-- ==== Sys2Proof/Word.lean ====
section
/-! DEFINITION. The word types of the block (spec/10_state.md, spec/46_laws.md R260): every quantity is
unsigned, at most 32 bits wide. Nothing else stands here. -/

namespace Sys2Proof

/-- A byte of a packet, of a buffer or of a memory. -/
abbrev Byte := BitVec 8

/-- A 16-bit register or unit of memory (20_memory R51, R57). -/
abbrev Word16 := BitVec 16

/-- A 32-bit byte address of program memory (10_state R31b). -/
abbrev Addr32 := BitVec 32

end Sys2Proof
end

