-- ==== Sys2Proof/Config.lean ====
section
/-! DEFINITION. The parameters of spec/00_scope.md R5 as plain data, the reference configuration REFCFG of
R5 and 95_test_vectors.md, and the free values that no rule fixes. -/

namespace Sys2Proof

/-- The endpoints (00_scope R5, decision D3; conflict C2: three, not four). -/
inductive Ep where
  | ctrl
  | data
  | comm
  deriving DecidableEq, Repr

/-- `CTRL`, `DATA`, `COMM` are 0, 1, 2 (00_scope R5). -/
def Ep.num : Ep → Nat
  | .ctrl => 0
  | .data => 1
  | .comm => 2

/-- One value for each endpoint. -/
structure PerEp (α : Type) where
  ctrl : α
  data : α
  comm : α
  deriving DecidableEq, Repr

/-- The value kept for endpoint `e`. -/
def PerEp.get {α : Type} (p : PerEp α) : Ep → α
  | .ctrl => p.ctrl
  | .data => p.data
  | .comm => p.comm

/-- The collection with endpoint `e`'s value replaced. -/
def PerEp.set {α : Type} (p : PerEp α) (e : Ep) (v : α) : PerEp α :=
  match e with
  | .ctrl => { p with ctrl := v }
  | .data => { p with data := v }
  | .comm => { p with comm := v }

/-- What an accepted page header draws on bulk IN (00_scope R5, `ACK_DATA_HEADER`, decision D15). -/
inductive AckDataHeader where
  | none
  | echo
  | noError
  deriving DecidableEq, Repr

/-- The parameters of one bitwise CRC of width 16. -/
structure CrcParams where
  poly   : Word16
  init   : Word16
  xorOut : Word16
  refIn  : Bool
  refOut : Bool
  deriving DecidableEq, Repr

/-- `CRC16` is an open parameter, any total function of the bytes (R5, R88, D12). Plain data stands for it:
a bitwise CRC that can be computed, or the `n`-th of a family of functions about which nothing is known
(log 8). -/
inductive CrcChoice where
  | bitwise (p : CrcParams)
  | other (n : Nat)
  deriving DecidableEq, Repr

/-- The parameters of 00_scope R5 that the spec leaves OPEN. The constraints of R5 are
`Sys2Proof.Machine.configValid`. -/
structure Config where
  /-- `CAP[e]`, bytes. -/
  cap : PerEp Nat
  /-- `RX_OFF[e]`, byte offset in packet memory. -/
  rxOff : PerEp Word16
  /-- `TX_OFF[e]`, byte offset in packet memory. -/
  txOff : PerEp Word16
  /-- `PMA_UNITS`. -/
  pmaUnits : Nat
  /-- `PAGE_SIZE`, bytes. -/
  pageSize : Nat
  /-- `FLASH_BASE`. -/
  flashBase : Addr32
  /-- `CRC16`. -/
  crc : CrcChoice
  /-- `ACK_DATA_HEADER`. -/
  ackDataHeader : AckDataHeader
  /-- `CTR_CLEAR_BOTH`. -/
  ctrClearBoth : Bool
  /-- `LC_DEFAULT`, 7 bytes. -/
  lcDefault : List Byte
  /-- `SELF_POWERED_INIT`. -/
  selfPoweredInit : Bool
  /-- `DEV_DESC`. -/
  devDesc : List Byte
  /-- `CFG_DESC`. -/
  cfgDesc : List Byte
  /-- `STR_DESC[i]`; `N_STRINGS` is the length of this list. -/
  strDesc : List (List Byte)
  deriving DecidableEq, Repr

/-- Places whose contents the spec leaves unspecified (93_implementation_defined.md section 2). -/
inductive Space where
  /-- Packet memory nobody has written since power-on (20_memory R53). -/
  | pma
  /-- `scratch` before its first fill (10_state R24, R32). -/
  | scratch
  /-- `cmd_buf` before its first fill (10_state R24, R32). -/
  | cmdBuf
  /-- A byte past the end of a transfer's source table (log 18). -/
  | source
  /-- A byte past the end of a caller's buffer (log 18). -/
  | caller
  deriving DecidableEq, Repr

/-- FREE VALUE (log 9, log 18): the byte at index `i` of a place whose contents no rule gives, after the
`n`-th power-on. Nothing in Lean can evaluate it. -/
opaque Config.unspecifiedByte : Space → (n : Nat) → (i : Nat) → Byte

/-- FREE VALUE (log 8): the functions that `CrcChoice.other n` stands for. -/
opaque Config.otherCrc16 : (n : Nat) → List Byte → Word16

/-- CRC-16/CCITT-FALSE, REFCFG's instance of `CRC16` (00_scope R5, 92 D12). -/
def CrcParams.ccittFalse : CrcParams :=
  { poly := 0x1021, init := 0xFFFF, xorOut := 0, refIn := false, refOut := false }

/-- REFCFG's configuration descriptor (95_test_vectors.md): `09 02 43 00 02 01 00 80 32`, then byte `i` is
`i` up to `42`. -/
def Config.refCfgDesc : List Byte :=
  [0x09, 0x02, 0x43, 0x00, 0x02, 0x01, 0x00, 0x80, 0x32] ++ (List.range' 9 58).map (BitVec.ofNat 8)

/-- REFCFG, the reference configuration of 00_scope R5 and 95_test_vectors.md: test data of the spec, which
`State.reset` takes (log 7, DESIGN CHOICE, unsafe). Statements that do not name it hold for every
configuration. -/
def Config.ref : Config :=
  { cap := ⟨8, 64, 8⟩
    rxOff := ⟨0x20, 0x30, 0xB8⟩
    txOff := ⟨0x28, 0x70, 0xB0⟩
    pmaUnits := 256
    pageSize := 1024
    flashBase := 0x08002000
    crc := .bitwise .ccittFalse
    ackDataHeader := .none
    ctrClearBoth := false
    lcDefault := [0x00, 0xC2, 0x01, 0x00, 0x00, 0x00, 0x08]
    selfPoweredInit := false
    devDesc := [0x12, 0x01, 0x00, 0x02, 0x02, 0x00, 0x00, 0x08, 0x83, 0x04, 0x40, 0x57, 0x00, 0x02, 0x01,
      0x02, 0x03, 0x01]
    cfgDesc := Config.refCfgDesc
    strDesc := [[0x04, 0x03, 0x09, 0x04], [0x0A, 0x03, 0x42, 0x00, 0x4F, 0x00, 0x4F, 0x00, 0x54, 0x00]] }

end Sys2Proof
end

