-- ==== Sys2Proof/Syntax.lean ====
section
/-! DEFINITION. The block's operations (spec/30_encoding.md R80, opcode_table.json: one constructor of
`Instr` per row), their operands (R95), the forms in which an operation is presented (R81), and the lines of
the stimulus (R98). -/

namespace Sys2Proof

/-- A direction of an endpoint, from the block's side (00_scope glossary). -/
inductive Dir where
  | rx
  | tx
  deriving DecidableEq, Repr

/-- The status values in the source's order (10_state R13). -/
inductive Stat where
  | disabled
  | stall
  | nak
  | valid
  deriving DecidableEq, Repr

/-- Endpoint types (10_state R12, bits 10:9). -/
inductive EpType where
  | bulk
  | control
  | iso
  | interrupt
  deriving DecidableEq, Repr

/-- The block's own byte buffers, the destinations a READ may name (10_state R31d, 41_buffer R133). -/
inductive Buffer where
  | setup
  | cmdBuf
  | scratch
  | lc
  | statusBuf
  deriving DecidableEq, Repr

/-- Byte source of an IN data stage (10_state R18, 42_control R145). -/
inductive XferSrc where
  | none
  | dev
  | cfg
  | str (i : Nat)
  | lc
  | status
  | config
  | zero
  deriving DecidableEq, Repr

/-- Error codes of the bulk protocol (30_encoding R90). -/
inductive ErrCode where
  | noError
  | cmdWrongLength
  | cmdWrongCrc
  | cmdWrongId
  deriving DecidableEq, Repr

/-- The causes `BUS_CAUSE` may set (45_collaborators R246). -/
inductive Cause where
  | susp
  | wkup
  | pmaovr
  | err
  | sof
  | esof
  deriving DecidableEq, Repr

/-- Phases of the Bulk Firmware-Update Protocol (10_state R23); the only context that changes decoding
(30_encoding R97). -/
inductive BlState where
  | waitSizeHeader
  | waitDataHeader
  | receivingPage
  | done
  deriving DecidableEq, Repr

/-- A host's device address; `none` is a stimulus line without `@a`: the current `DADDR.ADD`
(30_encoding R98, 45_collaborators R240). -/
abbrev DevAddr := Option (BitVec 7)

/-- Operands that every SETUP packet carries beside its request and `wValue` (30_encoding R82, R83): the
direction bit, the recipient, `wIndex` and `wLength`. -/
structure SetupArgs where
  dir     : Bool
  rcp     : BitVec 5
  wIndex  : Word16
  wLength : Word16
  deriving DecidableEq, Repr

/-- The block's operations, in the order of 30_encoding R80 and opcode_table.json. The Boolean operands
`dtog…` and the byte `tail` of the bus moves are the draws of 45_collaborators R242, R247: values the
environment brings (log 10). -/
inductive Instr where
  -- 40_endpoint_register.md
  | eprWrite (e : Ep) (v : Word16)
  | setStatus (e : Ep) (d : Dir) (target : Stat)
  | stall (e : Ep)
  | unstall (e : Ep)
  | markRxDone (e : Ep)
  | markTxReady (e : Ep)
  | clearCtr (e : Ep) (d : Dir)
  | epConfigure (e : Ep) (type : EpType) (addr : BitVec 4) (rx tx : Stat)
  -- 41_buffer_transfer.md
  | read (e : Ep) (dest : Buffer) (maxCount : Nat)
  | write (e : Ep) (src : List Byte) (count : Nat)
  -- 42_control_transfer.md, helpers and events
  | ack
  | reject
  | startIn (src : XferSrc) (naturalLen : Word16)
  | transmitSetupPacket
  | ctrlSetup
  | ctrlOut
  | ctrlIn
  -- 42_control_transfer.md, standard requests
  | getStatus (a : SetupArgs) (wValue : Word16)
  | clearFeature (a : SetupArgs) (wValue : Word16)
  | stdReserved2 (a : SetupArgs) (wValue : Word16)
  | setFeature (a : SetupArgs) (wValue : Word16)
  | stdReserved4 (a : SetupArgs) (wValue : Word16)
  | setAddress (a : SetupArgs) (wValue : Word16)
  | getDescriptor (a : SetupArgs) (type index : Byte)
  | getDescriptorDevice (a : SetupArgs) (index : Byte)
  | getDescriptorConfiguration (a : SetupArgs) (index : Byte)
  | getDescriptorString (a : SetupArgs) (index : Byte)
  | getDescriptorDeviceQualifier (a : SetupArgs) (index : Byte)
  | getDescriptorOther (a : SetupArgs) (type index : Byte)
  | setDescriptor (a : SetupArgs) (wValue : Word16)
  | getConfiguration (a : SetupArgs) (wValue : Word16)
  | setConfiguration (a : SetupArgs) (wValue : Word16)
  | getInterface (a : SetupArgs) (wValue : Word16)
  | setInterface (a : SetupArgs) (wValue : Word16)
  | synchFrame (a : SetupArgs) (wValue : Word16)
  | stdUnmapped (a : SetupArgs) (request : Byte) (wValue : Word16)
  -- 42_control_transfer.md, class requests and other types
  | setLineCoding (a : SetupArgs) (wValue : Word16)
  | getLineCoding (a : SetupArgs) (wValue : Word16)
  | setControlLineState (a : SetupArgs) (wValue : Word16)
  | sendBreak (a : SetupArgs) (wValue : Word16)
  | classOther (a : SetupArgs) (request : Byte) (wValue : Word16)
  | vendor (a : SetupArgs) (request : Byte) (wValue : Word16)
  | typeReserved (a : SetupArgs) (request : Byte) (wValue : Word16)
  -- 43_bulk_protocol.md
  | bulkOut
  | bulkIn
  | cmdSizeHeader (pad : Byte) (page dataLen crc : Word16)
  | cmdPageHeader (pad : Byte) (page dataLen crc : Word16)
  | pageData
  | doneDiscard
  | validateCmd (want : Byte)
  | reportError (code : ErrCode)
  | echo
  -- 44_interrupt_dispatcher.md
  | irqResume
  | irqSuspend
  | irqOther
  | irqReset
  | irqCtr
  | applyAddress
  | commOut
  | commIn
  -- 45_collaborators.md
  | busSetup (a : DevAddr) (b : List Byte) (dtogRx dtogTx : Bool)
  | busOut (a : DevAddr) (e : Ep) (b : List Byte) (tail : Byte) (dtogRx : Bool)
  | busIn (a : DevAddr) (e : Ep) (dtogTx : Bool)
  | busRefuse (a : DevAddr) (e : Ep) (d : Dir)
  | busReset
  | busCause (c : Cause)
  | flashErase (a : Addr32)
  | flashWrite (a : Addr32) (buf : List Byte) (k : Nat)
  | irqSetEnable (v : Bool)
  deriving DecidableEq, Repr

/-- A move of the bus side (45_collaborators R241 to R246), as the environment schedules it between two
accesses of the block (20_memory R62, log 11). -/
inductive BusMove where
  | setup (a : DevAddr) (b : List Byte) (dtogRx dtogTx : Bool)
  | out (a : DevAddr) (e : Ep) (b : List Byte) (tail : Byte) (dtogRx : Bool)
  | take (a : DevAddr) (e : Ep) (dtogTx : Bool)
  | refuse (a : DevAddr) (e : Ep) (d : Dir)
  | reset
  | cause (c : Cause)
  deriving DecidableEq, Repr

/-- The form in which an operation is presented (30_encoding R81). PRIM and ENV rows are selected by name and
have no bit pattern: they are presented as themselves (log 3). -/
inductive Code where
  /-- An operation selected by name: PRIM, ENV (R81), or the row of a record already valid (log 2). -/
  | name (i : Instr)
  /-- SETUP: a packet in wire order (R82). -/
  | setup (packet : List Byte)
  /-- CMD: a bulk OUT packet; `bl_state` selects how it is read (R88, R89), and a record is yet to be validated. -/
  | bulk (packet : List Byte)
  /-- EVT: a completion triple (R92). -/
  | event (evt : BitVec 6)
  /-- ISTR: an interrupt status word (R93). -/
  | cause (istr : Word16)
  deriving DecidableEq, Repr

/-- One line of the stimulus (30_encoding R98). `BUS.…` lines are `op (.name …)`. -/
inductive Line where
  /-- `POWERON`. -/
  | powerOn
  /-- `IRQ`: one interrupt entry, run to its end, if its condition holds (44_dispatcher R220). -/
  | irq
  /-- One operation run by itself. -/
  | op (c : Code)
  deriving DecidableEq, Repr

end Sys2Proof
end

