-- ==== Sys2Proof/WellFormed.lean ====
section
/-! DEFINITION. Which instructions are well formed: the limits the spec puts on operands that their types do
not carry. -/

namespace Sys2Proof

/-- Whether row GET_DESCRIPTOR.OTHER is the one a descriptor type selects (30_encoding R86). -/
def otherDescriptorType (t : Byte) : Bool :=
  t != 1 && t != 2 && t != 3 && t != 6

/-- Whether a class request code is outside the four the block knows (30_encoding R87). -/
def otherClassRequest (r : Byte) : Bool :=
  decide (r < 0x20#8) || decide (0x23#8 < r)

/-- Well-formedness:
* a row that is the remainder of others names no code of theirs (30_encoding R85 to R87);
* a SETUP packet has 8 bytes and an OUT packet at most 1023 (45_collaborators R241, R242; 00_scope R5).

Every other operand is well formed: an operation whose rule states no value for some of them runs all the same
(log 18: START_IN, WRITE, and FLASH_WRITE, for whose buffer of fewer than 2k bytes 45_collaborators R251 gives no byte),
and READ and WRITE move as many bytes as the counts and the capacity allow (41_buffer R130, R131). -/
def Instr.wf : Instr → Bool
  | .getDescriptorOther _ t _ => otherDescriptorType t
  | .stdUnmapped _ r _ => decide (13#8 ≤ r)
  | .classOther _ r _ => otherClassRequest r
  | .busSetup _ b _ _ => b.length == 8
  | .busOut _ _ b _ _ => decide (b.length ≤ 1023)
  | .eprWrite .. | .setStatus .. | .stall .. | .unstall .. | .markRxDone .. | .markTxReady ..
  | .clearCtr .. | .epConfigure .. | .read .. | .write .. | .ack | .reject | .startIn .. | .transmitSetupPacket
  | .ctrlSetup | .ctrlOut | .ctrlIn
  | .getStatus .. | .clearFeature .. | .stdReserved2 .. | .setFeature .. | .stdReserved4 .. | .setAddress ..
  | .getDescriptor .. | .getDescriptorDevice .. | .getDescriptorConfiguration .. | .getDescriptorString ..
  | .getDescriptorDeviceQualifier .. | .setDescriptor .. | .getConfiguration .. | .setConfiguration ..
  | .getInterface .. | .setInterface .. | .synchFrame .. | .setLineCoding .. | .getLineCoding ..
  | .setControlLineState .. | .sendBreak .. | .vendor .. | .typeReserved .. | .bulkOut | .bulkIn
  | .cmdSizeHeader .. | .cmdPageHeader .. | .pageData | .doneDiscard | .validateCmd .. | .reportError .. | .echo
  | .irqResume | .irqSuspend | .irqOther | .irqReset | .irqCtr | .applyAddress | .commOut | .commIn
  | .busIn .. | .busRefuse .. | .busReset | .busCause .. | .flashErase .. | .flashWrite ..
  | .irqSetEnable .. => true

/-- The rows selected by name, formats PRIM and ENV (30_encoding R81). -/
def Instr.named : Instr → Bool
  | .eprWrite .. | .setStatus .. | .stall .. | .unstall .. | .markRxDone .. | .markTxReady .. | .clearCtr ..
  | .epConfigure .. | .read .. | .write .. | .ack | .reject | .startIn .. | .transmitSetupPacket
  | .validateCmd .. | .reportError .. | .echo | .applyAddress
  | .busSetup .. | .busOut .. | .busIn .. | .busRefuse .. | .busReset | .busCause ..
  | .flashErase .. | .flashWrite .. | .irqSetEnable .. => true
  | .ctrlSetup | .ctrlOut | .ctrlIn | .getStatus .. | .clearFeature .. | .stdReserved2 .. | .setFeature ..
  | .stdReserved4 .. | .setAddress .. | .getDescriptor .. | .getDescriptorDevice ..
  | .getDescriptorConfiguration .. | .getDescriptorString .. | .getDescriptorDeviceQualifier ..
  | .getDescriptorOther .. | .setDescriptor .. | .getConfiguration .. | .setConfiguration ..
  | .getInterface .. | .setInterface .. | .synchFrame .. | .stdUnmapped .. | .setLineCoding ..
  | .getLineCoding .. | .setControlLineState .. | .sendBreak .. | .classOther .. | .vendor ..
  | .typeReserved .. | .bulkOut | .bulkIn | .cmdSizeHeader .. | .cmdPageHeader .. | .pageData | .doneDiscard
  | .irqResume | .irqSuspend | .irqOther | .irqReset | .irqCtr | .commOut | .commIn => false

/-- GET_DESCRIPTOR's handler row names the group its five case rows partition; a decoder does not try it
(30_encoding R100, log 6). -/
def Instr.handlerRow : Instr → Bool
  | .getDescriptor .. => true
  | _ => false

end Sys2Proof
end

