-- ==== Sys2Proof/Decode.lean ====
section
/-! DEFINITION. Decoding of the block's four bit patterns (spec/30_encoding.md R82 to R93), total on any
bytes and rejecting by name, and after it the encoder, written from the same tables. -/

namespace Sys2Proof

/-! ## Assembling and taking apart fields -/

/-- `le16(lo, hi)` of 00_scope section 5. -/
def le16 (lo hi : Byte) : Word16 := hi ++ lo

/-- The low and high byte of a 16-bit value, in memory order (20_memory R55). -/
def bytesOf16 (v : Word16) : List Byte := [v.extractLsb' 0 8, v.extractLsb' 8 8]

/-- Byte `i` of a packet or record. Every use is below the length the caller has checked, or that the
buffer has by invariant. -/
def byteAt (p : List Byte) (i : Nat) : Byte := p.getD i 0

/-- `bmRequestType` (30_encoding R83): direction bit 7, type bits 6:5, recipient bits 4:0. -/
def requestType (dir : Bool) (type : BitVec 2) (rcp : BitVec 5) : Byte :=
  BitVec.ofBool dir ++ type ++ rcp

/-- The operands every SETUP packet carries (30_encoding R82, R83). -/
def setupArgs (p : List Byte) : SetupArgs :=
  { dir := (byteAt p 0).getLsbD 7
    rcp := (byteAt p 0).extractLsb' 0 5
    wIndex := le16 (byteAt p 4) (byteAt p 5)
    wLength := le16 (byteAt p 6) (byteAt p 7) }

/-- `wValue` (30_encoding R82). -/
def packetValue (p : List Byte) : Word16 := le16 (byteAt p 2) (byteAt p 3)

/-- The SETUP decode key (30_encoding R84). -/
def setupKey (p : List Byte) : BitVec 32 := byteAt p 3 ++ byteAt p 2 ++ byteAt p 1 ++ byteAt p 0

/-! ## The SETUP rows -/

/-- The rows a SETUP key selects (30_encoding R85 to R87, R83); GET_DESCRIPTOR's handler row is no row a
decoder tries (R100). -/
inductive SetupRow where
  | getStatus
  | clearFeature
  | stdReserved2
  | setFeature
  | stdReserved4
  | setAddress
  | getDescriptorDevice
  | getDescriptorConfiguration
  | getDescriptorString
  | getDescriptorDeviceQualifier
  | getDescriptorOther
  | setDescriptor
  | getConfiguration
  | setConfiguration
  | getInterface
  | setInterface
  | synchFrame
  | stdUnmapped
  | setLineCoding
  | getLineCoding
  | setControlLineState
  | sendBreak
  | classOther
  | vendor
  | typeReserved
  deriving DecidableEq, Repr

/-- One line of a decode table: `key & mask = pattern` selects `row`. -/
structure TableLine (w : Nat) (α : Type) where
  row     : α
  mask    : BitVec w
  pattern : BitVec w
  deriving DecidableEq, Repr

/-- Whether a table line matches a key. -/
def TableLine.hits {w : Nat} {α : Type} (l : TableLine w α) (key : BitVec w) : Bool :=
  key &&& l.mask == l.pattern

/-- Standard requests 0 to 5 (30_encoding R85). -/
def setupTableLow : List (TableLine 32 SetupRow) :=
  [⟨.getStatus, 0x0000FF60, 0x00000000⟩, ⟨.clearFeature, 0x0000FF60, 0x00000100⟩,
   ⟨.stdReserved2, 0x0000FF60, 0x00000200⟩, ⟨.setFeature, 0x0000FF60, 0x00000300⟩,
   ⟨.stdReserved4, 0x0000FF60, 0x00000400⟩, ⟨.setAddress, 0x0000FF60, 0x00000500⟩]

/-- GET_DESCRIPTOR's cases (30_encoding R86). -/
def setupTableDescriptor : List (TableLine 32 SetupRow) :=
  [⟨.getDescriptorDevice, 0xFF00FF60, 0x01000600⟩, ⟨.getDescriptorConfiguration, 0xFF00FF60, 0x02000600⟩,
   ⟨.getDescriptorString, 0xFF00FF60, 0x03000600⟩, ⟨.getDescriptorDeviceQualifier, 0xFF00FF60, 0x06000600⟩,
   ⟨.getDescriptorOther, 0x0000FF60, 0x00000600⟩]

/-- Standard requests 7 to 12 and the codes outside the table (30_encoding R85). -/
def setupTableHigh : List (TableLine 32 SetupRow) :=
  [⟨.setDescriptor, 0x0000FF60, 0x00000700⟩, ⟨.getConfiguration, 0x0000FF60, 0x00000800⟩,
   ⟨.setConfiguration, 0x0000FF60, 0x00000900⟩, ⟨.getInterface, 0x0000FF60, 0x00000A00⟩,
   ⟨.setInterface, 0x0000FF60, 0x00000B00⟩, ⟨.synchFrame, 0x0000FF60, 0x00000C00⟩,
   ⟨.stdUnmapped, 0x00000060, 0x00000000⟩]

/-- Class requests, vendor and reserved types (30_encoding R87). -/
def setupTableClass : List (TableLine 32 SetupRow) :=
  [⟨.setLineCoding, 0x0000FF60, 0x00002020⟩, ⟨.getLineCoding, 0x0000FF60, 0x00002120⟩,
   ⟨.setControlLineState, 0x0000FF60, 0x00002220⟩, ⟨.sendBreak, 0x0000FF60, 0x00002320⟩,
   ⟨.classOther, 0x00000060, 0x00000020⟩, ⟨.vendor, 0x00000060, 0x00000040⟩,
   ⟨.typeReserved, 0x00000060, 0x00000060⟩]

/-- The SETUP table in the order rows are tried (30_encoding R84). -/
def setupTable : List (TableLine 32 SetupRow) :=
  setupTableLow ++ setupTableDescriptor ++ setupTableHigh ++ setupTableClass

/-- The operation a SETUP key selects: the first match (30_encoding R84). The last row takes every key the
others leave, so the default is never used for another reason. -/
def decodeKey (key : BitVec 32) : SetupRow :=
  match setupTable.find? (·.hits key) with
  | some l => l.row
  | none => .typeReserved

/-- The instruction of a row, with the operands of the packet (30_encoding R95). -/
def SetupRow.instr (row : SetupRow) (p : List Byte) : Instr :=
  let a := setupArgs p
  let v := packetValue p
  match row with
  | .getStatus => .getStatus a v
  | .clearFeature => .clearFeature a v
  | .stdReserved2 => .stdReserved2 a v
  | .setFeature => .setFeature a v
  | .stdReserved4 => .stdReserved4 a v
  | .setAddress => .setAddress a v
  | .getDescriptorDevice => .getDescriptorDevice a (byteAt p 2)
  | .getDescriptorConfiguration => .getDescriptorConfiguration a (byteAt p 2)
  | .getDescriptorString => .getDescriptorString a (byteAt p 2)
  | .getDescriptorDeviceQualifier => .getDescriptorDeviceQualifier a (byteAt p 2)
  | .getDescriptorOther => .getDescriptorOther a (byteAt p 3) (byteAt p 2)
  | .setDescriptor => .setDescriptor a v
  | .getConfiguration => .getConfiguration a v
  | .setConfiguration => .setConfiguration a v
  | .getInterface => .getInterface a v
  | .setInterface => .setInterface a v
  | .synchFrame => .synchFrame a v
  | .stdUnmapped => .stdUnmapped a (byteAt p 1) v
  | .setLineCoding => .setLineCoding a v
  | .getLineCoding => .getLineCoding a v
  | .setControlLineState => .setControlLineState a v
  | .sendBreak => .sendBreak a v
  | .classOther => .classOther a (byteAt p 1) v
  | .vendor => .vendor a (byteAt p 1) v
  | .typeReserved => .typeReserved a (byteAt p 1) v

/-! ## Completion triples -/

/-- The rows a completion triple selects (30_encoding R92). -/
inductive EventRow where
  | ctrlSetup
  | ctrlOut
  | ctrlIn
  | bulkOut
  | bulkIn
  | commOut
  | commIn
  deriving DecidableEq, Repr

/-- The table of 30_encoding R92. -/
def eventTable : List (TableLine 6 EventRow) :=
  [⟨.ctrlSetup, 0x3F, 0x30⟩, ⟨.ctrlOut, 0x3F, 0x10⟩, ⟨.ctrlIn, 0x1F, 0x00⟩, ⟨.bulkOut, 0x1F, 0x11⟩,
   ⟨.bulkIn, 0x1F, 0x01⟩, ⟨.commOut, 0x1F, 0x12⟩, ⟨.commIn, 0x1F, 0x02⟩]

/-- The completion triple `EP_ID | DIR << 4 | SETUP << 5` (30_encoding R92). -/
def eventOf (epId : BitVec 4) (dir setup : Bool) : BitVec 6 :=
  BitVec.ofBool setup ++ BitVec.ofBool dir ++ epId

/-- The handler a completion triple selects; an `EP_ID` above 2 has none and cannot arise
(30_encoding R92). -/
def decodeEvent (evt : BitVec 6) : Option EventRow :=
  (eventTable.find? (·.hits evt)).map (·.row)

/-- The instruction of a completion row. -/
def EventRow.instr : EventRow → Instr
  | .ctrlSetup => .ctrlSetup
  | .ctrlOut => .ctrlOut
  | .ctrlIn => .ctrlIn
  | .bulkOut => .bulkOut
  | .bulkIn => .bulkIn
  | .commOut => .commOut
  | .commIn => .commIn

/-! ## Interrupt causes -/

/-- The rows an interrupt status word selects (30_encoding R93). -/
inductive CauseRow where
  | resume
  | suspend
  | other
  | reset
  | ctr
  deriving DecidableEq, Repr

/-- The rows that match a snapshot of `ISTR`, in the order of 30_encoding R93. RESET, when it matches, keeps
IRQ_CTR from running in the same entry (44_dispatcher R221). -/
def decodeCauses (istr : Word16) : List CauseRow :=
  (if istr.getLsbD 12 then [.resume] else []) ++ (if istr.getLsbD 11 then [.suspend] else []) ++ [.other] ++
    (if istr.getLsbD 10 then [.reset] else if istr.getLsbD 15 then [.ctr] else [])

/-- The ONE row an interrupt status word presented by itself stands for (log 5): the first of RESUME,
SUSPEND, RESET, CTR whose bit is set, and IRQ_OTHER, whose mask is 0, when none is. -/
def decodeCause (istr : Word16) : CauseRow :=
  if istr.getLsbD 12 then .resume
  else if istr.getLsbD 11 then .suspend
  else if istr.getLsbD 10 then .reset
  else if istr.getLsbD 15 then .ctr
  else .other

/-- The instruction of a cause row. -/
def CauseRow.instr : CauseRow → Instr
  | .resume => .irqResume
  | .suspend => .irqSuspend
  | .other => .irqOther
  | .reset => .irqReset
  | .ctr => .irqCtr

/-! ## Decoding -/

/-- Why a presented form is no instruction. -/
inductive DecodeError where
  /-- A SETUP packet of other than 8 bytes (30_encoding R97). -/
  | setupLength
  /-- A command record of other than 8 bytes: no row, but the error `CMD_WRONG_LENGTH` (R96, R97). -/
  | recordLength
  /-- A command record whose id the phase does not accept: no row, but the error `CMD_WRONG_ID` (R89, R96). -/
  | recordId
  /-- A completion triple with `EP_ID` above 2, which cannot arise (R92). -/
  | eventEndpoint
  /-- A row that bits select was presented by name (R81); a step takes its word instead (`Code.resolve`). -/
  | notSelectedByName
  deriving DecidableEq, Repr

/-- What decoding answers. -/
inductive Decoded where
  | instr (i : Instr)
  | reject (r : DecodeError)
  deriving DecidableEq, Repr

/-- The instruction, where there is one. -/
def Decoded.instr? : Decoded → Option Instr
  | .instr i => some i
  | .reject _ => none

/-- A SETUP packet (30_encoding R82, R84). -/
def decodeSetup (p : List Byte) : Decoded :=
  if p.length = 8 then .instr ((decodeKey (setupKey p)).instr p) else .reject .setupLength

/-- A command record in a header phase that accepts `want` (30_encoding R88, R89). -/
def decodeRecord (want : Byte) (mk : Byte → Word16 → Word16 → Word16 → Instr) (p : List Byte) : Decoded :=
  if p.length ≠ 8 then .reject .recordLength
  else if byteAt p 0 = want then
    .instr (mk (byteAt p 1) (le16 (byteAt p 2) (byteAt p 3)) (le16 (byteAt p 4) (byteAt p 5))
      (le16 (byteAt p 6) (byteAt p 7)))
  else .reject .recordId

/-- A bulk OUT packet, read as `bl_state` says (30_encoding R89). In RECEIVING_PAGE and DONE the phase alone
selects the operation; the payload stays in the receive area (log 25). -/
def decodeBulk (bl : BlState) (p : List Byte) : Decoded :=
  match bl with
  | .waitSizeHeader => decodeRecord 0x20 .cmdSizeHeader p
  | .waitDataHeader => decodeRecord 0x21 .cmdPageHeader p
  | .receivingPage => .instr .pageData
  | .done => .instr .doneDiscard

/-- The rows a name presents: PRIM and ENV (30_encoding R81), and the two CMD rows, whose rules are those of a record
that VALIDATE_CMD has found valid (43_bulk R193, R194, log 2). -/
def Instr.byName : Instr → Bool
  | .cmdSizeHeader .. | .cmdPageHeader .. => true
  | i => i.named

/-- An operation presented by name (30_encoding R81). -/
def decodeName (i : Instr) : Decoded :=
  if i.byName then .instr i else .reject .notSelectedByName

/-- The decoder; `bl` is the one context that changes decoding (30_encoding R97). -/
def decode (bl : BlState) : Code → Decoded
  | .name i => decodeName i
  | .setup p => decodeSetup p
  | .bulk p => decodeBulk bl p
  | .event evt =>
    match decodeEvent evt with
    | some row => .instr row.instr
    | none => .reject .eventEndpoint
  | .cause istr => .instr (decodeCause istr).instr

/-! ## Encoding -/

/-- A SETUP packet in wire order (30_encoding R82). -/
def packetOf (a : SetupArgs) (type : BitVec 2) (request vl vh : Byte) : List Byte :=
  [requestType a.dir type a.rcp, request, vl, vh] ++ bytesOf16 a.wIndex ++ bytesOf16 a.wLength

/-- A SETUP packet of request code `request` with a 16-bit `wValue`. -/
def packetOfValue (a : SetupArgs) (type : BitVec 2) (request : Byte) (v : Word16) : List Byte :=
  packetOf a type request (v.extractLsb' 0 8) (v.extractLsb' 8 8)

/-- A command record (30_encoding R88). -/
def recordOf (id pad : Byte) (page dataLen crc : Word16) : List Byte :=
  [id, pad] ++ bytesOf16 page ++ bytesOf16 dataLen ++ bytesOf16 crc

/-- The form in which an instruction is presented: the words of 30_encoding R85 to R93 for the rows that bits
select, the name for the others. Bits an encoding does not fix and no operand holds are 0. -/
def encode : Instr → Code
  | .getStatus a v => .setup (packetOfValue a 0 0 v)
  | .clearFeature a v => .setup (packetOfValue a 0 1 v)
  | .stdReserved2 a v => .setup (packetOfValue a 0 2 v)
  | .setFeature a v => .setup (packetOfValue a 0 3 v)
  | .stdReserved4 a v => .setup (packetOfValue a 0 4 v)
  | .setAddress a v => .setup (packetOfValue a 0 5 v)
  | .getDescriptor a t i => .setup (packetOf a 0 6 i t)
  | .getDescriptorDevice a i => .setup (packetOf a 0 6 i 1)
  | .getDescriptorConfiguration a i => .setup (packetOf a 0 6 i 2)
  | .getDescriptorString a i => .setup (packetOf a 0 6 i 3)
  | .getDescriptorDeviceQualifier a i => .setup (packetOf a 0 6 i 6)
  | .getDescriptorOther a t i => .setup (packetOf a 0 6 i t)
  | .setDescriptor a v => .setup (packetOfValue a 0 7 v)
  | .getConfiguration a v => .setup (packetOfValue a 0 8 v)
  | .setConfiguration a v => .setup (packetOfValue a 0 9 v)
  | .getInterface a v => .setup (packetOfValue a 0 10 v)
  | .setInterface a v => .setup (packetOfValue a 0 11 v)
  | .synchFrame a v => .setup (packetOfValue a 0 12 v)
  | .stdUnmapped a r v => .setup (packetOfValue a 0 r v)
  | .setLineCoding a v => .setup (packetOfValue a 1 0x20 v)
  | .getLineCoding a v => .setup (packetOfValue a 1 0x21 v)
  | .setControlLineState a v => .setup (packetOfValue a 1 0x22 v)
  | .sendBreak a v => .setup (packetOfValue a 1 0x23 v)
  | .classOther a r v => .setup (packetOfValue a 1 r v)
  | .vendor a r v => .setup (packetOfValue a 2 r v)
  | .typeReserved a r v => .setup (packetOfValue a 3 r v)
  | .cmdSizeHeader pad page len crc => .bulk (recordOf 0x20 pad page len crc)
  | .cmdPageHeader pad page len crc => .bulk (recordOf 0x21 pad page len crc)
  | .pageData => .bulk []
  | .doneDiscard => .bulk []
  | .ctrlSetup => .event 0x30
  | .ctrlOut => .event 0x10
  | .ctrlIn => .event 0x00
  | .bulkOut => .event 0x11
  | .bulkIn => .event 0x01
  | .commOut => .event 0x12
  | .commIn => .event 0x02
  | .irqResume => .cause 0x1000
  | .irqSuspend => .cause 0x0800
  | .irqOther => .cause 0x0000
  | .irqReset => .cause 0x0400
  | .irqCtr => .cause 0x8000
  | i => .name i

/-- The name of another row stands for the word that selects it (30_encoding R81, log 3). -/
def Code.resolve : Code → Code
  | .name i => if i.byName then .name i else encode i
  | .setup p => .setup p
  | .bulk p => .bulk p
  | .event evt => .event evt
  | .cause istr => .cause istr

/-- The phase in which an instruction's words are read as that instruction (30_encoding R89); for the rows no
phase touches, any will do. -/
def Instr.phase : Instr → BlState
  | .cmdPageHeader .. => .waitDataHeader
  | .pageData => .receivingPage
  | .doneDiscard => .done
  | _ => .waitSizeHeader

/-! ## Words as opcode_table.json numbers them -/

/-- The low `8 * n` bits of `w` as `n` bytes, first byte first. -/
def bytesOfNat (n w : Nat) : List Byte :=
  (List.range n).map (fun i => BitVec.ofNat 8 (w / 2 ^ (8 * i)))

/-- The form that a table word of `nbits` bits stands for (log 4). The table gives no format with the
number, and rows of different formats have words of one width: a word of up to 8 bits is a command id where
it is `20` or `21`, else a completion triple where it fits in 6 bits; a word of up to 16 bits is an interrupt
status word where it is one of the four R93 gives; every other word is the first bytes of a SETUP packet whose
other bytes are 0. -/
def tableCode (nbits w : Nat) : Code :=
  let setup := Code.setup (bytesOfNat 8 (w % 2 ^ nbits))
  let k := w % 2 ^ nbits
  if nbits ≤ 8 then
    if k = 0x20 ∨ k = 0x21 then .bulk (bytesOfNat 8 k)
    else if k < 0x40 then .event (BitVec.ofNat 6 k)
    else setup
  else if nbits ≤ 16 then
    if k = 0x1000 ∨ k = 0x0800 ∨ k = 0x0400 ∨ k = 0x8000 then .cause (BitVec.ofNat 16 k) else setup
  else setup

/-- The phase in which a table word is read: the row's `state` (30_encoding R89, R100). -/
def tablePhase (nbits w : Nat) : BlState :=
  if nbits ≤ 8 ∧ w % 2 ^ nbits = 0x21 then .waitDataHeader else .waitSizeHeader

/-- The instruction the decoder reads from a word of opcode_table.json. -/
def decodeTableWord (nbits w : Nat) : Option Instr :=
  (decode (tablePhase nbits w) (tableCode nbits w)).instr?

end Sys2Proof
end

