-- ==== Sys2Proof/Machine/State.lean ====
section
/-! DEFINITION. The state of the block as plain data (spec/10_state.md), grouped as the spec's data model groups
it, its reset value (R32), and the reasons a step can stop. -/

namespace Sys2Proof.Machine

/-! ## Memories -/

/-- A memory: the bytes that have been written since power-on, by address (20_memory R51, R57; a 16-bit unit is
two bytes, low half first, R54, log 27). An unlisted address was not written; what it holds is
`Config.unspecifiedByte` (log 9). -/
abbrev Memory := List Host.Cell

/-- The canonical form of a memory: addresses strictly rising. An unlisted address reads as "not written", so
no entry can be equal to what an unlisted address reads as. -/
abbrev Memory.wf (m : Memory) : Prop := m.Pairwise (fun x y => x.1 < y.1)

/-! ## The shared registers and the bus -/

/-- What the host sees of a bus move (45_collaborators R240 "The block's outputs, as a host sees them", R243,
R244). -/
inductive Reply where
  /-- The packet was accepted. -/
  | accepted (a : BitVec 7)
  /-- The bytes an IN transaction brought. -/
  | bytes (a : BitVec 7) (b : List Byte)
  /-- A NAK handshake. -/
  | nak
  /-- A STALL handshake. -/
  | stall
  /-- No answer: another address, function disabled, or status DISABLED. -/
  | silent
  /-- The move was not open to the bus side: its precondition did not hold (log 12, log 13). -/
  | notMade
  deriving DecidableEq, Repr

/-- The registers and the packet memory that the block shares with the bus side (10_state section 2, 20_memory
R51), and with them the model's record of the bus: the moves scheduled between accesses, and what the host has
seen. -/
structure Hw where
  /-- `tx_offset[e]`, R11. -/
  txOffset : PerEp Word16
  /-- `rx_offset[e]`, R11. -/
  rxOffset : PerEp Word16
  /-- `tx_count[e]`, R11. -/
  txCount  : PerEp (BitVec 10)
  /-- `rx_count[e]`, R11. -/
  rxCount  : PerEp (BitVec 10)
  /-- `EPR[e]`, R12. -/
  epr      : PerEp Word16
  /-- `ISTR[14:8]`, the stored cause bits, R14; the other bits are views (`Hw.istr`). -/
  causes   : BitVec 7
  /-- `CNTR`, R15. -/
  cntr     : Word16
  /-- `DADDR`, R16. -/
  daddr    : BitVec 8
  /-- Packet memory, R31a. -/
  pma      : Memory
  /-- MODEL'S OWN (log 9): the number of power-ons, which picks the unspecified contents of memories. -/
  powerOns : Nat
  /-- MODEL'S OWN (log 11): the moves the bus side makes before the block's next accesses, one list for each
  access, the next access first. -/
  between  : List (List BusMove)
  /-- MODEL'S OWN: what the host has seen, oldest first (R240). -/
  replies  : List Reply
  deriving DecidableEq, Repr

/-! ## The block's own records -/

/-- The phase register of the Control Transfer State Machine (10_state R19). -/
inductive CtlState where
  | idle
  | setupReceived
  | dataIn
  | dataOut
  | status
  deriving DecidableEq, Repr

/-- `ControlTransferContext` with the phase register (10_state R17, R18, R19). -/
structure ControlCtx where
  /-- `setup[0..7]`, R17. -/
  setup        : List Byte
  configValue  : Byte
  xferSrc      : XferSrc
  xferOff      : Word16
  xferRem      : Word16
  remoteWakeup : Bool
  selfPowered  : Bool
  /-- `status_buf`, 2 bytes. -/
  statusBuf    : List Byte
  /-- `ctl_state`, R19. -/
  ctlState     : CtlState
  deriving DecidableEq, Repr

/-- `ClassState` (10_state R20). -/
structure ClassState where
  /-- `lc[0..6]`, the LineCoding record (30_encoding R91). -/
  lc  : List Byte
  dtr : Bool
  rts : Bool
  deriving DecidableEq, Repr

/-- `DeviceState` (10_state R21). -/
structure DeviceState where
  suspended   : Bool
  configured  : Bool
  addrPending : Bool
  pendingAddr : BitVec 7
  deriving DecidableEq, Repr

/-- The record of a validated command (10_state R22). -/
structure CmdRecord where
  id      : Byte
  page    : Word16
  dataLen : Word16
  crc     : Word16
  deriving DecidableEq, Repr

/-- `FlashSession` with the phase register (10_state R22, R23). -/
structure FlashSession where
  totalPages     : Word16
  curPage        : Word16
  pageOffset     : BitVec 32
  expectedLen    : Word16
  headerAccepted : Bool
  lastCmd        : CmdRecord
  /-- `bl_state`, R23. -/
  blState        : BlState
  deriving DecidableEq, Repr

/-- Log events (60_exceptions R289). -/
inductive LogEvent where
  /-- `LOG_BAD_DIRECTION`. -/
  | badDirection
  /-- `LOG_UNKNOWN_CLASS_REQ`. -/
  | unknownClassReq
  deriving DecidableEq, Repr

/-! ## The state -/

/-- The state: everything the spec gives the machine, the parameters it runs under, and the stimulus. -/
structure State where
  /-- The parameters of 00_scope R5; no step changes them (log 7). -/
  cfg       : Config
  /-- Shared registers and packet memory. -/
  hw        : Hw
  /-- ControlTransferContext and `ctl_state`. -/
  ctl       : ControlCtx
  /-- ClassState. -/
  cls       : ClassState
  /-- DeviceState. -/
  dev       : DeviceState
  /-- FlashSession and `bl_state`. -/
  sess      : FlashSession
  /-- `scratch`, 10_state R24. -/
  scratch   : List Byte
  /-- `cmd_buf`, 10_state R24. -/
  cmdBuf    : List Byte
  /-- `irq_enable`, 10_state R25. -/
  irqEnable : Bool
  /-- Program memory, 10_state R31b. -/
  flash     : Memory
  /-- The FlashFatal condition and the address it records (60_exceptions R272). -/
  fatal     : Option Addr32
  /-- The output-only trace of log events, oldest first (60_exceptions R289). -/
  log       : List LogEvent
  /-- MODEL'S OWN (log 23): what the last READ, WRITE, TRANSMIT_SETUP_PACKET or VALIDATE_CMD run as an
  instruction returned. -/
  result    : Nat
  /-- MODEL'S OWN (log 1): the stimulus lines not yet run (30_encoding R98), the next one first. -/
  lines     : List Line
  deriving DecidableEq, Repr

/-! ## Power-on and reset -/

/-- `SCRATCH_SIZE`: `CAP[DATA]` rounded up to even (00_scope R5, D19). -/
def scratchSize (c : Config) : Nat := 2 * ((c.cap.data + 1) / 2)

/-- A FlashSession with every field zero (10_state R22, R32). -/
def FlashSession.zero : FlashSession :=
  { totalPages := 0, curPage := 0, pageOffset := 0, expectedLen := 0, headerAccepted := false
    lastCmd := { id := 0, page := 0, dataLen := 0, crc := 0 }, blState := .waitSizeHeader }

/-- The ControlTransferContext of the column "after bus reset" (10_state R32). -/
def ControlCtx.initial (c : Config) : ControlCtx :=
  { setup := List.replicate 8 0, configValue := 0, xferSrc := .none, xferOff := 0, xferRem := 0
    remoteWakeup := false, selfPowered := c.selfPoweredInit, statusBuf := [0, 0], ctlState := .idle }

/-- The power-on state of 10_state R32 and 70_reset R301 under the parameters `c`, at the `n`-th power-on. The
unspecified contents of `scratch` and `cmd_buf` are free values (log 9); memories list nothing. -/
def State.powerOn (c : Config) (n : Nat) : State :=
  { cfg := c
    hw := { txOffset := c.txOff, rxOffset := c.rxOff, txCount := ⟨0, 0, 0⟩, rxCount := ⟨0, 0, 0⟩
            epr := ⟨0x3220, 0x3021, 0x0622⟩, causes := 0, cntr := 0, daddr := 0x80, pma := []
            powerOns := n, between := [], replies := [] }
    ctl := ControlCtx.initial c
    cls := { lc := c.lcDefault, dtr := false, rts := false }
    dev := { suspended := false, configured := false, addrPending := false, pendingAddr := 0 }
    sess := FlashSession.zero
    scratch := (List.range (scratchSize c)).map (Config.unspecifiedByte .scratch n)
    cmdBuf := (List.range 8).map (Config.unspecifiedByte .cmdBuf n)
    irqEnable := true
    flash := []
    fatal := none
    log := []
    result := 0
    lines := [] }

/-- The machine right after reset: the power-on state (10_state R32; the spec's other reset, the bus reset, is
the move BUS_RESET with the entry that serves it), under REFCFG (log 7). No stimulus is placed. -/
def State.reset : State := State.powerOn Config.ref 0

/-! ## Why a step can stop -/

/-- The faults. -/
inductive Fault where
  /-- Raised by every operation of the block that is run by itself after FlashFatal has stopped the block at
  address `a` (60_exceptions R272: "The block stops"; 93 section 1 "stuck"). Safe: nothing runs on. -/
  | flashFatal (a : Addr32)
  /-- Raised by every operation when a buffer area that the offset registers name does not lie inside packet
  memory: a unit index outside it does not exist (20_memory R52). No run from power-on meets it. Safe. -/
  | pmaUnitMissing
  deriving DecidableEq, Repr

/-- The refusals. -/
inductive Refusal where
  /-- Raised by `exec` for an instruction that has no meaning yet. Safe. -/
  | notModelled (mnemonic : String)
  /-- Raised by every operation under parameters that break the constraints of 00_scope R5 (20_memory R52,
  70_reset R304: "A model refuses a configuration that breaks one"). Safe. -/
  | badConfiguration
  /-- Raised by a step whose stimulus line is a completion triple of an endpoint above 2: it "cannot arise because
  there are three endpoint registers" (30_encoding R92). Safe. -/
  | undecodable (r : DecodeError)
  /-- Raised by BUS_SETUP and by a SETUP packet presented by itself, with other than 8 bytes (93 section 3). Safe. -/
  | setupNotEightBytes
  /-- Raised by BUS_OUT with more than `CAP[e]` bytes (93 section 3). Safe. -/
  | outPacketTooLong
  /-- Raised by READ run by itself where the bytes to copy are more than its destination holds: the spec gives
  bytes past a buffer's end no place (log 19). No rule of the spec asks for it. Safe. -/
  | bufferOverrun
  deriving DecidableEq, Repr

/-- What running an operation answers. -/
abbrev Answer := Host.Outcome State Fault Refusal

end Sys2Proof.Machine
end

