-- ==== Sys2Proof/Machine/Flags.lean ====
section
/-! DEFINITION. The fields and flags of the registers (spec/10_state.md R12 to R16) and every computation on
them: the reaction of an endpoint register to a write and the words the operations write
(spec/40_endpoint_register.md), the views of ISTR, the device phases. -/

namespace Sys2Proof.Machine

/-! ## Codes -/

/-- The numeric codes of 10_state R13. -/
def statCode : Stat → BitVec 2
  | .disabled => 0
  | .stall => 1
  | .nak => 2
  | .valid => 3

/-- The status a code stands for. -/
def statOf (c : BitVec 2) : Stat :=
  if c = 0 then .disabled else if c = 1 then .stall else if c = 2 then .nak else .valid

/-- The type codes of 10_state R12. -/
def epTypeCode : EpType → BitVec 2
  | .bulk => 0
  | .control => 1
  | .iso => 2
  | .interrupt => 3

/-- The error bytes of 30_encoding R90. -/
def errByte : ErrCode → Byte
  | .noError => 0
  | .cmdWrongLength => 1
  | .cmdWrongCrc => 2
  | .cmdWrongId => 3

/-! ## Fields of an endpoint register (10_state R12) -/

/-- `CTR_RX`, `CTR_TX`: the completion flag of a direction. -/
def eprFlag (r : Word16) : Dir → Bool
  | .rx => r.getLsbD 15
  | .tx => r.getLsbD 7

/-- `DTOG_RX`, `DTOG_TX`. -/
def eprToggle (r : Word16) : Dir → Bool
  | .rx => r.getLsbD 14
  | .tx => r.getLsbD 6

/-- `STAT_RX`, `STAT_TX`. -/
def eprStat (r : Word16) : Dir → Stat
  | .rx => statOf (r.extractLsb' 12 2)
  | .tx => statOf (r.extractLsb' 4 2)

/-- `SETUP`. -/
def eprSetup (r : Word16) : Bool := r.getLsbD 11

/-- `EP_TYPE`. -/
def eprType (r : Word16) : BitVec 2 := r.extractLsb' 9 2

/-- `EP_KIND`. -/
def eprKind (r : Word16) : Bool := r.getLsbD 8

/-- `EA`. -/
def eprAddr (r : Word16) : BitVec 4 := r.extractLsb' 0 4

/-! ## What a write does (40_endpoint_register R110) -/

/-- The value an endpoint register takes when `v` is written and it holds `old` (R110). -/
def regWriteValue (old v : Word16) : Word16 :=
  (v &&& 0x070F#16) ||| ((old ^^^ v) &&& 0x7070#16) ||| ((old &&& v) &&& 0x8080#16) ||| (old &&& 0x0800#16)

/-- `transition_bits(d, target)` (R112). -/
def transitionBits (d : Dir) (target : Stat) : Word16 :=
  match d with
  | .rx => (statCode target).setWidth 16 <<< 12
  | .tx => (statCode target).setWidth 16 <<< 4

/-- `preserve_mask(d)` (R112). -/
def preserveMask : Dir → Word16
  | .rx => 0xBF8F#16
  | .tx => 0x8FBF#16

/-- The word `set_status` writes (R111). -/
def setStatusWord (d : Dir) (target : Stat) (current : Word16) : Word16 :=
  (current ^^^ transitionBits d target) &&& preserveMask d

/-- The bit of a direction's completion flag (R118). -/
def flagBit : Dir → Word16
  | .rx => 0x8000#16
  | .tx => 0x0080#16

/-- The word `clear_ctr` writes (R118). -/
def clearCtrWord (both : Bool) (d : Dir) (current : Word16) : Word16 :=
  if both then current &&& 0x0F0F#16 else current &&& 0x8F8F#16 &&& ~~~(flagBit d)

/-- The word `ep_configure` writes (R120). -/
def epConfigureWord (type : EpType) (addr : BitVec 4) (rx tx : Stat) (current : Word16) : Word16 :=
  let want := transitionBits .rx rx ||| transitionBits .tx tx
  ((epTypeCode type).setWidth 16 <<< 9) ||| addr.setWidth 16 ||| ((current ^^^ want) &&& 0x7070#16)

/-! ## What the bus side writes (45_collaborators R241 to R243) -/

/-- A register with the bits of `mask` replaced by those of `v`. -/
def withBits (r mask v : Word16) : Word16 := (r &&& ~~~mask) ||| (v &&& mask)

/-- All ones, or zero. -/
def bits (b : Bool) : Word16 := if b then 0xFFFF#16 else 0

/-- The register after a SETUP transaction: both statuses NAK, `SETUP` and `CTR_RX` set, the toggles as drawn
(R241). -/
def eprAfterSetup (r : Word16) (dtogRx dtogTx : Bool) : Word16 :=
  withBits (withBits (withBits r 0xB830#16 0xA820#16) 0x4000#16 (bits dtogRx)) 0x0040#16 (bits dtogTx)

/-- The register after an OUT transaction: receive NAK, `CTR_RX` set, `SETUP` cleared, the toggle as drawn
(R242). -/
def eprAfterOut (r : Word16) (dtogRx : Bool) : Word16 :=
  withBits (withBits r 0xB800#16 0xA000#16) 0x4000#16 (bits dtogRx)

/-- The register after an IN transaction: transmit NAK, `CTR_TX` set, the toggle as drawn (R243). -/
def eprAfterIn (r : Word16) (dtogTx : Bool) : Word16 :=
  withBits (withBits r 0x00B0#16 0x00A0#16) 0x0040#16 (bits dtogTx)

/-! ## The views of ISTR (10_state R14) -/

/-- Whether some completion flag of a register is set. -/
def eprPending (r : Word16) : Bool := eprFlag r .rx || eprFlag r .tx

/-- The least endpoint with a completion flag set. -/
def firstPending (p : PerEp Word16) : Option Ep :=
  if eprPending p.ctrl then some .ctrl
  else if eprPending p.data then some .data
  else if eprPending p.comm then some .comm
  else none

/-- `CTR`, `DIR` and `EP_ID` as an ISTR word with no stored bit. -/
def completionView (p : PerEp Word16) : Word16 :=
  match firstPending p with
  | none => 0
  | some e => 0x8000#16 ||| (if eprFlag (p.get e) .rx then 0x0010#16 else 0) ||| BitVec.ofNat 16 e.num

/-- `ISTR` as a read returns it (R14): stored causes at bits 14:8, the views, bits 7:5 zero. -/
def Hw.istr (h : Hw) : Word16 := completionView h.epr ||| (h.causes.setWidth 16 <<< 8)

/-- The stored bit of a cause (R14, R246), within `ISTR[14:8]`. -/
def causeBit : Cause → BitVec 7
  | .pmaovr => 0x40
  | .err => 0x20
  | .wkup => 0x10
  | .susp => 0x08
  | .sof => 0x02
  | .esof => 0x01

/-- The stored bit RESET (R14), within `ISTR[14:8]`. -/
def resetBit : BitVec 7 := 0x04

/-! ## CNTR and DADDR (10_state R15, R16) -/

/-- `CNTR.LP_MODE`, bit 2. -/
def cntrLpMode (c : Word16) : Bool := c.getLsbD 2

/-- `CNTR.FSUSP`, bit 3. -/
def cntrFsusp (c : Word16) : Bool := c.getLsbD 3

/-- `DADDR.ADD`. -/
def daddrAdd (d : BitVec 8) : BitVec 7 := d.extractLsb' 0 7

/-- `DADDR.EF`. -/
def daddrEf (d : BitVec 8) : Bool := d.getLsbD 7

/-! ## Device phases (60_exceptions R283), which gate no rule -/

/-- Default, addressed or configured. -/
inductive Phase where
  | default
  | addressed
  | configured
  deriving DecidableEq, Repr

/-- The phase that `DADDR.ADD` and `configured` show. Where `DADDR.ADD` is nonzero and `configured` is 1 both of R283's
conditions hold, and the model answers `configured` (log 32, DESIGN CHOICE). -/
def State.phase (s : State) : Phase :=
  if s.dev.configured then .configured
  else if daddrAdd s.hw.daddr = 0 then .default
  else .addressed

end Sys2Proof.Machine
end

