-- ==== Sys2Proof/Machine/Operands.lean ====
section
/-! DEFINITION. Values assembled from packets, parameters and tables (spec/30_encoding.md R95,
spec/46_laws.md R260, R262), the constraints on parameters (spec/00_scope.md R5) and the CRC (R88). -/

namespace Sys2Proof.Machine

/-! ## Arithmetic -/

/-- `ceil2(n)`: units that hold `n` bytes (00_scope section 5). -/
def ceil2 (n : Nat) : Nat := (n + 1) / 2

/-- The byte address of unit `i` of the area at byte offset `off`: unit `(off >> 1) + i` (20_memory R51, R262),
two bytes for a unit (log 27). -/
def unitAddr (off : Word16) (i : Nat) : Nat := 2 * (off.toNat / 2 + i)

/-- The endpoint an index names, if there is one (10_state R12). -/
def epOfNum (n : Nat) : Option Ep :=
  if n = 0 then some .ctrl else if n = 1 then some .data else if n = 2 then some .comm else none

/-- `packet_size` (00_scope R5, D33). -/
def packetSize (c : Config) : Nat := c.cap.ctrl

/-- Reverse the low `n` bits of a byte or word, one at a time. -/
def reflect {w : Nat} (v : BitVec w) : BitVec w := v.reverse

/-- One bit of a bitwise CRC of width 16. -/
def crcBit (poly crc : Word16) : Word16 :=
  if crc.getLsbD 15 then (crc <<< 1) ^^^ poly else crc <<< 1

/-- One byte of a bitwise CRC of width 16. -/
def crcByte (p : CrcParams) (crc : Word16) (b : Byte) : Word16 :=
  let b := if p.refIn then reflect b else b
  (List.range 8).foldl (fun r _ => crcBit p.poly r) (crc ^^^ (b.setWidth 16 <<< 8))

/-- `CRC16` (30_encoding R88, D12). -/
def crc16 (c : Config) (bytes : List Byte) : Word16 :=
  match c.crc with
  | .bitwise p =>
    let r := bytes.foldl (crcByte p) p.init
    (if p.refOut then reflect r else r) ^^^ p.xorOut
  | .other n => Config.otherCrc16 n bytes

/-- The CRC a command record holds is that of its first six bytes (30_encoding R88). -/
abbrev recordCrcGood (c : Config) (rec : List Byte) : Prop :=
  crc16 c (rec.take 6) = le16 (byteAt rec 6) (byteAt rec 7)

/-! ## Constraints on the parameters (00_scope R5, 70_reset R304) -/

/-- The six buffer areas, as first byte and length rounded up to even. -/
def bufferAreas (c : Config) (rx tx : PerEp Word16) : List (Nat × Nat) :=
  [Ep.ctrl, Ep.data, Ep.comm].map (fun e => (unitAddr (rx.get e) 0, 2 * ceil2 (c.cap.get e))) ++
  [Ep.ctrl, Ep.data, Ep.comm].map (fun e => (unitAddr (tx.get e) 0, 2 * ceil2 (c.cap.get e)))

/-- Whether two areas do not overlap. -/
def apart (x y : Nat × Nat) : Bool := decide (x.1 + x.2 ≤ y.1) || decide (y.1 + y.2 ≤ x.1)

/-- Whether every area lies inside packet memory (20_memory R52). -/
def areasInside (c : Config) (rx tx : PerEp Word16) : Bool :=
  (bufferAreas c rx tx).all (fun a => decide (a.1 + a.2 ≤ 2 * c.pmaUnits))

/-- Whether an offset is even. -/
def evenOffset (o : Word16) : Bool := o.toNat % 2 == 0

/-- Capacities (R5). -/
def capacitiesValid (c : Config) : Bool :=
  decide (8 ≤ c.cap.ctrl) && decide (8 ≤ c.cap.data) && decide (1 ≤ c.cap.comm) &&
  decide (c.cap.ctrl ≤ 1023) && decide (c.cap.data ≤ 1023) && decide (c.cap.comm ≤ 1023)

/-- Buffer areas even-aligned, not overlapping, inside packet memory (R5). -/
def areasValid (c : Config) : Bool :=
  evenOffset c.rxOff.ctrl && evenOffset c.rxOff.data && evenOffset c.rxOff.comm &&
  evenOffset c.txOff.ctrl && evenOffset c.txOff.data && evenOffset c.txOff.comm &&
  areasInside c c.rxOff c.txOff &&
  decide ((bufferAreas c c.rxOff c.txOff).Pairwise (fun x y => apart x y = true))

/-- Pages (R5). -/
def pagesValid (c : Config) : Bool :=
  c.pageSize % 2 == 0 && decide (0 < c.pageSize) && c.flashBase.toNat % 2 == 0

/-- Descriptor length fields no larger than their tables, LineCoding of 7 bytes (R5). -/
def tablesValid (c : Config) : Bool :=
  c.lcDefault.length == 7 &&
  decide (1 ≤ c.devDesc.length) && decide ((byteAt c.devDesc 0).toNat ≤ c.devDesc.length) &&
  decide (4 ≤ c.cfgDesc.length) &&
  decide ((le16 (byteAt c.cfgDesc 2) (byteAt c.cfgDesc 3)).toNat ≤ c.cfgDesc.length) &&
  c.strDesc.all (fun d => decide (1 ≤ d.length) && decide ((byteAt d 0).toNat ≤ d.length))

/-- The constraints of 00_scope R5. -/
def configValid (c : Config) : Bool :=
  capacitiesValid c && areasValid c && pagesValid c && tablesValid c

/-! ## Operands taken from the captured SETUP packet (30_encoding R95) -/

/-- `setup[0][7]`: 1 is device-to-host. -/
def ControlCtx.dirIn (x : ControlCtx) : Bool := (byteAt x.setup 0).getLsbD 7

/-- Request type, `setup[0][6:5]`. -/
def ControlCtx.reqType (x : ControlCtx) : BitVec 2 := (byteAt x.setup 0).extractLsb' 5 2

/-- Recipient, `setup[0][4:0]`. -/
def ControlCtx.recipient (x : ControlCtx) : BitVec 5 := (byteAt x.setup 0).extractLsb' 0 5

/-- Request code, `setup[1]`. -/
def ControlCtx.request (x : ControlCtx) : Byte := byteAt x.setup 1

/-- `wValue`. -/
def ControlCtx.wValue (x : ControlCtx) : Word16 := packetValue x.setup

/-- `wValueL`. -/
def ControlCtx.wValueL (x : ControlCtx) : Byte := byteAt x.setup 2

/-- `wValueH`. -/
def ControlCtx.wValueH (x : ControlCtx) : Byte := byteAt x.setup 3

/-- `wIndex`. -/
def ControlCtx.wIndex (x : ControlCtx) : Word16 := le16 (byteAt x.setup 4) (byteAt x.setup 5)

/-- `wLength`. -/
def ControlCtx.wLength (x : ControlCtx) : Word16 := le16 (byteAt x.setup 6) (byteAt x.setup 7)

/-- Addressed endpoint of a feature or status request, `wIndex[3:0]`, where there is one. -/
def ControlCtx.addressedEp (x : ControlCtx) : Option Ep := epOfNum (x.wIndex.extractLsb' 0 4).toNat

/-- Addressed direction, `wIndex[7]`. -/
def ControlCtx.addressedDir (x : ControlCtx) : Dir := if x.wIndex.getLsbD 7 then .tx else .rx

/-! ## Sources of IN data stages (42_control R145, R160) -/

/-- The bytes of a source that the block can send. -/
def sourceBytes (s : State) : XferSrc → List Byte
  | .none => []
  | .dev => s.cfg.devDesc
  | .cfg => s.cfg.cfgDesc
  | .str i => s.cfg.strDesc.getD i []
  | .lc => s.cls.lc
  | .status => s.ctl.statusBuf
  | .config => [s.ctl.configValue]
  | .zero => [0]

/-- `Rom(DEV)[0]`. -/
def devLength (c : Config) : Word16 := (byteAt c.devDesc 0).setWidth 16

/-- `le16(Rom(CFG)[2], Rom(CFG)[3])`. -/
def cfgLength (c : Config) : Word16 := le16 (byteAt c.cfgDesc 2) (byteAt c.cfgDesc 3)

/-- `Rom(STR(i))[0]`. -/
def strLength (c : Config) (i : Nat) : Word16 := (byteAt (c.strDesc.getD i []) 0).setWidth 16

/-- Bytes `off .. off + n - 1` of `src`; a byte the list does not hold is a free value (log 18). -/
def sliceOf (space : Space) (powerOns : Nat) (src : List Byte) (off n : Nat) : List Byte :=
  (List.range n).map (fun i => src.getD (off + i) (Config.unspecifiedByte space powerOns (off + i)))

/-- The least of two 16-bit lengths. -/
def min16 (a b : Word16) : Word16 := if a ≤ b then a else b

/-! ## Command records and page addresses (30_encoding R88, 43_bulk R203) -/

/-- The fields of a record as `last_cmd` keeps them (43_bulk R193). -/
def cmdRecordOf (rec : List Byte) : CmdRecord :=
  { id := byteAt rec 0
    page := le16 (byteAt rec 2) (byteAt rec 3)
    dataLen := le16 (byteAt rec 4) (byteAt rec 5)
    crc := le16 (byteAt rec 6) (byteAt rec 7) }

/-- `page_base(p)`: computed exactly, then reduced modulo 2^32 (43_bulk R203). -/
def pageBase (c : Config) (p : Word16) : Addr32 :=
  BitVec.ofNat 32 (c.flashBase.toNat + p.toNat * c.pageSize)

/-! ## Buffers -/

/-- A buffer with its first bytes overwritten; the rest keep their contents (41_buffer R130). -/
def overlay (buf bytes : List Byte) : List Byte := bytes ++ buf.drop bytes.length

/-- The size of a destination buffer. -/
def bufferSize (c : Config) : Buffer → Nat
  | .setup => 8
  | .cmdBuf => 8
  | .scratch => scratchSize c
  | .lc => 7
  | .statusBuf => 2

/-- A destination buffer overwritten from its start. -/
def State.fill (s : State) (dest : Buffer) (bytes : List Byte) : State :=
  match dest with
  | .setup => { s with ctl.setup := overlay s.ctl.setup bytes }
  | .cmdBuf => { s with cmdBuf := overlay s.cmdBuf bytes }
  | .scratch => { s with scratch := overlay s.scratch bytes }
  | .lc => { s with cls.lc := overlay s.cls.lc bytes }
  | .statusBuf => { s with ctl.statusBuf := overlay s.ctl.statusBuf bytes }

end Sys2Proof.Machine
end

