-- ==== Sys2Proof/Machine/Bus.lean ====
section
/-! DEFINITION. Memory operations (spec/20_memory.md R52, R54, R57) and the moves of the bus side on the shared
registers (spec/45_collaborators.md R240 to R247). -/

namespace Sys2Proof.Machine

/-! ## Memory -/

/-- The byte written at an address, if one was. -/
def Memory.read? (m : Memory) (a : Nat) : Option Byte :=
  (m.find? (fun c => c.1 == a)).map (·.2)

/-- Consecutive cells from address `a`. -/
def Memory.cells (a : Nat) : List Byte → Memory
  | [] => []
  | b :: bs => (a, b) :: Memory.cells (a + 1) bs

/-- The memory with `bs` stored from address `a`, in the canonical form. -/
def Memory.store (m : Memory) (a : Nat) (bs : List Byte) : Memory :=
  m.filter (fun c => decide (c.1 < a)) ++ Memory.cells a bs ++
    m.filter (fun c => decide (a + bs.length ≤ c.1))

/-- The byte of packet memory at byte address `a`; one nobody has written is a free value (20_memory R53,
log 9). -/
def Hw.pmaByte (h : Hw) (a : Nat) : Byte :=
  (h.pma.read? a).getD (Config.unspecifiedByte .pma h.powerOns a)

/-- `PMA[u]` for the unit at byte address `a = 2u` (20_memory R52, R54). -/
def Hw.pmaUnit (h : Hw) (a : Nat) : Word16 := le16 (h.pmaByte a) (h.pmaByte (a + 1))

/-- `n` bytes of packet memory from byte address `a`, in wire order (20_memory R54). -/
def Hw.pmaBytes (h : Hw) (a n : Nat) : List Byte := (List.range n).map (fun i => h.pmaByte (a + i))

/-- `PMA[u] <- v` for the unit at byte address `a = 2u` (20_memory R52, R54). -/
def Hw.putUnit (h : Hw) (a : Nat) (v : Word16) : Hw := { h with pma := h.pma.store a (bytesOf16 v) }

/-! ## The bus side -/

/-- The address a transaction uses: the one named, or the current `DADDR.ADD` (45_collaborators R240). -/
def Hw.addressed (h : Hw) (a : DevAddr) : BitVec 7 := a.getD (daddrAdd h.daddr)

/-- Whether the device answers at an address: `EF = 1` and the address is `DADDR.ADD` (R240). -/
def Hw.answers (h : Hw) (a : DevAddr) : Bool := daddrEf h.daddr && h.addressed a == daddrAdd h.daddr

/-- The host sees a reply. -/
def Hw.reply (h : Hw) (r : Reply) : Hw := { h with replies := h.replies ++ [r] }

/-- The handshake a status that is not VALID draws (R244). -/
def refusal : Stat → Reply
  | .disabled => .silent
  | .stall => .stall
  | .nak => .nak
  | .valid => .notMade

/-- A received packet laid in the receive area of `e`, with the byte `tail` as the high half of the last unit of
an odd packet, and its count stored (R241, R242). -/
def Hw.receive (h : Hw) (e : Ep) (b : List Byte) (tail : Byte) : Hw :=
  { h with
    pma := h.pma.store (unitAddr (h.rxOffset.get e) 0) (if b.length % 2 = 1 then b ++ [tail] else b)
    rxCount := h.rxCount.set e (BitVec.ofNat 10 b.length) }

/-- The precondition of a SETUP transaction (R241). -/
def Hw.setupOpen (h : Hw) : Bool :=
  eprType h.epr.ctrl == epTypeCode .control && eprStat h.epr.ctrl .rx != .disabled && !eprFlag h.epr.ctrl .rx

/-- BUS_SETUP (R241). Endpoint 0's register is the one at index 0, whatever its EA holds (log 31). -/
def Hw.busSetup (h : Hw) (a : DevAddr) (b : List Byte) (dtogRx dtogTx : Bool) : Hw :=
  if !h.answers a then h.reply .silent
  else if !h.setupOpen || b.length != 8 then h.reply .notMade
  else
    ({ h.receive .ctrl b 0 with
       epr := h.epr.set .ctrl (eprAfterSetup h.epr.ctrl dtogRx dtogTx) }).reply (.accepted (h.addressed a))

/-- BUS_OUT (R242) on the register at index `e`, whatever its EA holds (log 31); a status that is not VALID refuses the
packet (R244). -/
def Hw.busOut (c : Config) (h : Hw) (a : DevAddr) (e : Ep) (b : List Byte) (tail : Byte) (dtogRx : Bool) : Hw :=
  if !h.answers a then h.reply .silent
  else if eprStat (h.epr.get e) .rx != .valid then h.reply (refusal (eprStat (h.epr.get e) .rx))
  else if c.cap.get e < b.length then h.reply .notMade
  else
    ({ h.receive e b tail with
       epr := h.epr.set e (eprAfterOut (h.epr.get e) dtogRx) }).reply (.accepted (h.addressed a))

/-- The bytes an IN transaction on `e` brings the host: `tx_count[e]` bytes of the transmit area (R243). -/
def Hw.outgoing (h : Hw) (e : Ep) : List Byte :=
  h.pmaBytes (unitAddr (h.txOffset.get e) 0) (h.txCount.get e).toNat

/-- BUS_IN (R243) on the register at index `e`, whatever its EA holds (log 31); a status that is not VALID refuses the
transaction (R244). -/
def Hw.busIn (h : Hw) (a : DevAddr) (e : Ep) (dtogTx : Bool) : Hw :=
  if !h.answers a then h.reply .silent
  else if eprStat (h.epr.get e) .tx != .valid then h.reply (refusal (eprStat (h.epr.get e) .tx))
  else
    ({ h with epr := h.epr.set e (eprAfterIn (h.epr.get e) dtogTx) }).reply
      (.bytes (h.addressed a) (h.outgoing e))

/-- BUS_REFUSE (R244) on the register at index `e`, whatever its EA holds (log 31); on a direction whose status is VALID
the move is not open. -/
def Hw.busRefuse (h : Hw) (a : DevAddr) (e : Ep) (d : Dir) : Hw :=
  if !h.answers a then h.reply .silent else h.reply (refusal (eprStat (h.epr.get e) d))

/-- BUS_RESET (R245). -/
def Hw.busReset (h : Hw) : Hw :=
  { h with causes := h.causes ||| resetBit, epr := ⟨0, 0, 0⟩, daddr := 0 }

/-- BUS_CAUSE (R246). -/
def Hw.busCause (h : Hw) (c : Cause) : Hw := { h with causes := h.causes ||| causeBit c }

/-- One scheduled move (20_memory R62). A move whose precondition does not hold changes nothing but what the
host sees (log 12). -/
def Hw.move (c : Config) (h : Hw) : BusMove → Hw
  | .setup a b dtogRx dtogTx => h.busSetup a b dtogRx dtogTx
  | .out a e b tail dtogRx => Hw.busOut c h a e b tail dtogRx
  | .take a e dtogTx => h.busIn a e dtogTx
  | .refuse a e d => h.busRefuse a e d
  | .reset => h.busReset
  | .cause k => h.busCause k

/-- The instant before an access of the block: the bus side makes the moves scheduled there (20_memory R62,
log 11). With nothing scheduled nothing happens. -/
def Hw.slot (c : Config) (h : Hw) : Hw :=
  match h.between with
  | [] => h
  | moves :: rest => moves.foldl (Hw.move c) { h with between := rest }

/-- The number of moves still scheduled. -/
def Hw.scheduled (h : Hw) : Nat := (h.between.map List.length).sum

end Sys2Proof.Machine
end

