-- ==== Sys2Proof/Machine/Ops.lean ====
section
/-! DEFINITION. The named operations over registers and memories that the rules call: register and unit
accesses, `set_status` and what is built on it (spec/40_endpoint_register.md), `read` and `write`
(spec/41_buffer_transfer.md), the flash calls (spec/45_collaborators.md R250 to R253), and the three ways an
operation ends other than by doing its work (spec/60_exceptions.md R270 to R272). Before every access to a
register or unit that the bus side shares stands a slot (`Hw.slot`, log 11). -/

namespace Sys2Proof.Machine

/-! ## The endpoint register -/

/-- `RegWrite(EPR[e], v)` (40_endpoint_register R110). The old value is the one held at the instant of the
write. -/
def Hw.regWrite (c : Config) (e : Ep) (v : Word16) (h : Hw) : Hw :=
  let h := h.slot c
  { h with epr := h.epr.set e (regWriteValue (h.epr.get e) v) }

/-- `set_status(e, d, target)` (R111): one read, one write. -/
def Hw.setStatus (c : Config) (e : Ep) (d : Dir) (target : Stat) (h : Hw) : Hw :=
  let h := h.slot c
  Hw.regWrite c e (setStatusWord d target (h.epr.get e)) h

/-- `stall(e)` (R114): receive direction first. -/
def Hw.stall (c : Config) (e : Ep) (h : Hw) : Hw :=
  Hw.setStatus c e .tx .stall (Hw.setStatus c e .rx .stall h)

/-- `unstall(e)` (R115). -/
def Hw.unstall (c : Config) (e : Ep) (h : Hw) : Hw :=
  Hw.setStatus c e .tx .nak (Hw.setStatus c e .rx .valid h)

/-- `mark_rx_done(e)` (R116). -/
def Hw.markRxDone (c : Config) (e : Ep) (h : Hw) : Hw := Hw.setStatus c e .rx .valid h

/-- `mark_tx_ready(e)` (R117). -/
def Hw.markTxReady (c : Config) (e : Ep) (h : Hw) : Hw := Hw.setStatus c e .tx .valid h

/-- `clear_ctr(e, d)` (R118). -/
def Hw.clearCtr (c : Config) (e : Ep) (d : Dir) (h : Hw) : Hw :=
  let h := h.slot c
  Hw.regWrite c e (clearCtrWord c.ctrClearBoth d (h.epr.get e)) h

/-- `ep_configure(e, type, addr, rx, tx)` (R120). -/
def Hw.epConfigure (c : Config) (e : Ep) (type : EpType) (addr : BitVec 4) (rx tx : Stat) (h : Hw) : Hw :=
  let h := h.slot c
  Hw.regWrite c e (epConfigureWord type addr rx tx (h.epr.get e)) h

/-! ## read and write -/

/-- The two bytes of `k` units from byte address `a`, one `PmaRead` at a time, in increasing order
(41_buffer R130). -/
def Hw.readUnits (c : Config) : (k a : Nat) → Hw → List Byte × Hw
  | 0, _, h => ([], h)
  | k + 1, a, h =>
    let h := h.slot c
    let r := Hw.readUnits c k (a + 2) h
    (bytesOf16 (h.pmaUnit a) ++ r.1, r.2)

/-- `read(e, dest, max_count)` (41_buffer R130): the bytes for `dest[0 .. n-1]`, whose number is `n`. The
control endpoint is re-armed after the last unit is copied. -/
def Hw.read (c : Config) (e : Ep) (maxCount : Nat) (h : Hw) : List Byte × Hw :=
  let h := h.slot c
  let n := min maxCount (min (h.rxCount.get e).toNat (c.cap.get e))
  let r := Hw.readUnits c (ceil2 n) (unitAddr (h.rxOffset.get e) 0) h
  (r.1.take n, match e with
    | .ctrl => Hw.markRxDone c .ctrl r.2
    | .data | .comm => r.2)

/-- Bytes into units from byte address `a`, one `PmaWrite` at a time, in increasing order, an odd last byte in a
unit whose high half is 0 (41_buffer R131). -/
def Hw.writeUnits (c : Config) : (a : Nat) → List Byte → Hw → Hw
  | _, [], h => h
  | a, [lo], h => (h.slot c).putUnit a (le16 lo 0)
  | a, lo :: hi :: rest, h => Hw.writeUnits c (a + 2) rest ((h.slot c).putUnit a (le16 lo hi))

/-- The bytes `write` queues: the first `min(count, CAP[e])` of `src` (R131). A byte the caller's buffer does
not hold is a free value (log 18). -/
def queuedBytes (c : Config) (powerOns : Nat) (e : Ep) (src : List Byte) (count : Nat) : List Byte :=
  sliceOf .caller powerOns src 0 (min count (c.cap.get e))

/-- `write(e, src, count)` (41_buffer R131): all units, then the count, then the status. It returns `q`, the
number of bytes queued. -/
def Hw.write (c : Config) (e : Ep) (src : List Byte) (count : Nat) (h : Hw) : Nat × Hw :=
  let b := queuedBytes c h.powerOns e src count
  let h := Hw.writeUnits c (unitAddr (h.txOffset.get e) 0) b h
  let h := h.slot c
  let h := { h with txCount := h.txCount.set e (BitVec.ofNat 10 b.length) }
  (b.length, Hw.markTxReady c e h)

/-! ## From the shared registers to the whole state -/

/-- An operation on the shared registers, on the whole state: nothing else changes. -/
def State.onHw (s : State) (f : Config → Hw → Hw) : State := { s with hw := f s.cfg s.hw }

/-- The instant before an access of the block. -/
def State.slot (s : State) : State := s.onHw (fun c h => h.slot c)

/-- `read` into one of the block's own buffers. -/
def State.readInto (s : State) (e : Ep) (dest : Buffer) (maxCount : Nat) : State :=
  let r := Hw.read s.cfg e maxCount s.hw
  { s with hw := r.2 }.fill dest r.1

/-- `write` from a list of bytes; the number of bytes queued is dropped. -/
def State.send (s : State) (e : Ep) (src : List Byte) (count : Nat) : State :=
  s.onHw (fun c h => (Hw.write c e src count h).2)

/-- `log(id)` (60_exceptions R289). -/
def State.logEvent (s : State) (e : LogEvent) : State := { s with log := s.log ++ [e] }

/-! ## The errors (60_exceptions R270 to R272) -/

/-- `raise CtrlStall` (R270): REJECT, 42_control R144. Nothing is recorded; the entry goes on. -/
def State.raiseCtrlStall (s : State) : State :=
  { s.onHw (fun c h => Hw.setStatus c .ctrl .rx .stall h) with ctl.ctlState := .idle }

/-- `raise BulkError(code)` (R271): one byte on bulk IN, 43_bulk R198. The session does not change. -/
def State.raiseBulkError (s : State) (code : ErrCode) : State := s.send .data [errByte code] 1

/-- `raise FlashFatal(a)` (R272): the block stops, `a` is recorded, and nothing else changes. Callers end their
rule and their entry; `State.run` and `State.due` keep anything later of the block from running (log 14). -/
def State.raiseFlashFatal (s : State) (a : Addr32) : State := { s with fatal := some a }

/-! ## The flash calls -/

/-- Whether an address is not unit-aligned (45_collaborators R253). -/
def oddAddress (a : Addr32) : Bool := a.getLsbD 0

/-- At most 2^32 bytes stored in program memory from byte address `a`, modulo 2^32 (20_memory R57, log 17). -/
def storeWrapped (m : Memory) (a : Addr32) (bs : List Byte) : Memory :=
  let room := 2 ^ 32 - a.toNat
  if bs.length ≤ room then m.store a.toNat bs
  else (m.store a.toNat (bs.take room)).store 0 (bs.drop room)

/-- Bytes stored in program memory from byte address `a`, modulo 2^32, in increasing order (45_collaborators R251,
log 17): of more than 2^32 bytes the last 2^32 are what is left. -/
def storeFlash (m : Memory) (a : Addr32) (bs : List Byte) : Memory :=
  if bs.length ≤ 2 ^ 32 then storeWrapped m a bs
  else storeWrapped m (a + BitVec.ofNat 32 (bs.length - 2 ^ 32)) (bs.drop (bs.length - 2 ^ 32))

/-- `FlashErase(a)` (45_collaborators R250, R253): a page of units `0xFFFF`. -/
def State.flashErase (s : State) (a : Addr32) : State :=
  if oddAddress a then s.raiseFlashFatal a
  else { s with flash := storeFlash s.flash a (List.replicate s.cfg.pageSize 0xFF) }

/-- `FlashWrite(a, buf, k)` (45_collaborators R251, R253): `k` units, low byte first. A byte the buffer does not
hold is a free value (log 18). -/
def State.flashWrite (s : State) (a : Addr32) (buf : List Byte) (k : Nat) : State :=
  if oddAddress a then s.raiseFlashFatal a
  else { s with flash := storeFlash s.flash a (sliceOf .caller s.hw.powerOns buf 0 (2 * k)) }

/-! ## Running an operation -/

/-- Whether the buffer areas lie inside packet memory (20_memory R52). -/
def State.areasInside (s : State) : Bool :=
  Machine.areasInside s.cfg s.hw.rxOffset s.hw.txOffset

/-- A move of the environment: refused under parameters that break 00_scope R5, a fault where a buffer area lies
outside packet memory (20_memory R52); otherwise its effect. -/
def State.env (s : State) (k : State → State) : Answer :=
  if !configValid s.cfg then .refused .badConfiguration
  else if !s.areasInside then .fault .pmaUnitMissing
  else .next (k s)

/-- An operation of the block: as `State.env`, and a fault once FlashFatal has stopped the block
(60_exceptions R272). -/
def State.run (s : State) (k : State → State) : Answer :=
  match s.fatal with
  | some a => .fault (.flashFatal a)
  | none => s.env k

end Sys2Proof.Machine
end

