-- ==== Sys2Proof/Machine/Collaborators.lean ====
section
/-! DEFINITION. The meanings of the collaborators' moves (spec/45_collaborators.md). The bus side and the session
owner move whether or not FlashFatal has stopped the block; the flash calls are the block's. -/

namespace Sys2Proof.Machine

/-- BUS_SETUP, R241. Other than 8 bytes is a stimulus a model refuses (93 section 3). -/
def execBusSetup (a : DevAddr) (b : List Byte) (dtogRx dtogTx : Bool) (s : State) : Answer :=
  if b.length ≠ 8 then .refused .setupNotEightBytes
  else s.env (fun s => s.onHw (fun _ h => h.busSetup a b dtogRx dtogTx))

/-- BUS_OUT, R242. More than `CAP[e]` bytes is a stimulus a model refuses (93 section 3). -/
def execBusOut (a : DevAddr) (e : Ep) (b : List Byte) (tail : Byte) (dtogRx : Bool) (s : State) : Answer :=
  if s.cfg.cap.get e < b.length then .refused .outPacketTooLong
  else s.env (fun s => s.onHw (fun c h => Hw.busOut c h a e b tail dtogRx))

/-- BUS_IN, R243. -/
def execBusIn (a : DevAddr) (e : Ep) (dtogTx : Bool) (s : State) : Answer :=
  s.env (fun s => s.onHw (fun _ h => h.busIn a e dtogTx))

/-- BUS_REFUSE, R244. -/
def execBusRefuse (a : DevAddr) (e : Ep) (d : Dir) (s : State) : Answer :=
  s.env (fun s => s.onHw (fun _ h => h.busRefuse a e d))

/-- BUS_RESET, R245. -/
def execBusReset (s : State) : Answer := s.env (fun s => s.onHw (fun _ h => h.busReset))

/-- BUS_CAUSE, R246. -/
def execBusCause (k : Cause) (s : State) : Answer := s.env (fun s => s.onHw (fun _ h => h.busCause k))

/-- FLASH_ERASE, R250. -/
def execFlashErase (a : Addr32) (s : State) : Answer := s.run (fun s => s.flashErase a)

/-- FLASH_WRITE, R251. -/
def execFlashWrite (a : Addr32) (buf : List Byte) (k : Nat) (s : State) : Answer :=
  s.run (fun s => s.flashWrite a buf k)

/-- IRQ_SET_ENABLE, R256. -/
def execIrqSetEnable (v : Bool) (s : State) : Answer := s.env (fun s => { s with irqEnable := v })

end Sys2Proof.Machine
end

