-- ==== Sys2Proof/Machine/Endpoint.lean ====
section
/-! DEFINITION. The meanings of the Endpoint Register Model's operations (spec/40_endpoint_register.md). None of
them can fault or returns a value. -/

namespace Sys2Proof.Machine

/-- EPR_WRITE, R110. -/
def execEprWrite (e : Ep) (v : Word16) (s : State) : Answer :=
  s.run (fun s => s.onHw (fun c h => Hw.regWrite c e v h))

/-- SET_STATUS, R111. -/
def execSetStatus (e : Ep) (d : Dir) (target : Stat) (s : State) : Answer :=
  s.run (fun s => s.onHw (fun c h => Hw.setStatus c e d target h))

/-- STALL, R114. -/
def execStall (e : Ep) (s : State) : Answer := s.run (fun s => s.onHw (fun c h => Hw.stall c e h))

/-- UNSTALL, R115. -/
def execUnstall (e : Ep) (s : State) : Answer := s.run (fun s => s.onHw (fun c h => Hw.unstall c e h))

/-- MARK_RX_DONE, R116. -/
def execMarkRxDone (e : Ep) (s : State) : Answer := s.run (fun s => s.onHw (fun c h => Hw.markRxDone c e h))

/-- MARK_TX_READY, R117. -/
def execMarkTxReady (e : Ep) (s : State) : Answer := s.run (fun s => s.onHw (fun c h => Hw.markTxReady c e h))

/-- CLEAR_CTR, R118. -/
def execClearCtr (e : Ep) (d : Dir) (s : State) : Answer :=
  s.run (fun s => s.onHw (fun c h => Hw.clearCtr c e d h))

/-- EP_CONFIGURE, R120. -/
def execEpConfigure (e : Ep) (type : EpType) (addr : BitVec 4) (rx tx : Stat) (s : State) : Answer :=
  s.run (fun s => s.onHw (fun c h => Hw.epConfigure c e type addr rx tx h))

end Sys2Proof.Machine
end

