-- ==== Sys2Proof/Machine/Bulk.lean ====
section
/-! DEFINITION. The Bulk Firmware-Update Protocol (spec/43_bulk_protocol.md): its rules as functions on the state
and the meanings of its instructions. A header instruction run by itself is given a record that is already valid, and
first puts it in `cmd_buf`, where VALIDATE_CMD's READ puts it (log 2). -/

namespace Sys2Proof.Machine

/-! ## Responses -/

/-- REPORT, R198. -/
def reportRule (code : ErrCode) (s : State) : State := s.raiseBulkError code

/-- ECHO, R199: the eight bytes as received. -/
def echoRule (s : State) : State := s.send .data s.cmdBuf 8

/-! ## Command records -/

/-- VALIDATE_CMD, R192: length, then CRC, then id; the first that fails gives the code. -/
def validateRule (want : Byte) (s : State) : ErrCode × State :=
  let s := s.slot
  if (s.hw.rxCount.get .data).toNat ≠ 8 then (.cmdWrongLength, s)
  else
    let s := s.readInto .data .cmdBuf 8
    if ¬ recordCrcGood s.cfg s.cmdBuf then (.cmdWrongCrc, s)
    else if byteAt s.cmdBuf 0 ≠ want then (.cmdWrongId, s)
    else (.noError, s)

/-- The phase that follows a size header or a completed page: DONE once every page is there (R193, R196,
conflict C7). -/
def nextPhase (curPage totalPages : Word16) : BlState :=
  if curPage = totalPages then .done else .waitDataHeader

/-- CMD_SIZE_HEADER, R193. -/
def sizeHeaderRule (s : State) : State :=
  let s := { s with sess.lastCmd := cmdRecordOf s.cmdBuf, sess.totalPages := (cmdRecordOf s.cmdBuf).page }
  let s := echoRule s
  { s with sess.blState := nextPhase s.sess.curPage s.sess.totalPages }

/-- What an accepted page header draws on bulk IN (R194, `ACK_DATA_HEADER`). -/
def ackPageHeader (s : State) : State :=
  match s.cfg.ackDataHeader with
  | .none => s
  | .echo => echoRule s
  | .noError => reportRule .noError s

/-- CMD_PAGE_HEADER, R194: the page is erased before the header counts as accepted. A fatal erase ends the
rule (60_exceptions R272). -/
def pageHeaderRule (s : State) : State :=
  let s := { s with
    sess.lastCmd := cmdRecordOf s.cmdBuf
    sess.expectedLen := (cmdRecordOf s.cmdBuf).dataLen
    sess.pageOffset := 0 }
  let s := s.flashErase (pageBase s.cfg s.sess.curPage)
  if s.fatal.isSome then s
  else ackPageHeader { s with sess.headerAccepted := true, sess.blState := .receivingPage }

/-! ## Page data -/

/-- Page completion, R196. -/
def pageComplete (x : FlashSession) : FlashSession :=
  { x with
    curPage := x.curPage + 1
    pageOffset := 0
    expectedLen := 0
    headerAccepted := false
    blState := nextPhase (x.curPage + 1) x.totalPages }

/-- The session after `n` bytes of page data (R195, last two lines; R196). -/
def pageAdvance (n : Nat) (x : FlashSession) : FlashSession :=
  let x := { x with pageOffset := x.pageOffset + BitVec.ofNat 32 n }
  if x.expectedLen.toNat ≤ x.pageOffset.toNat then pageComplete x else x

/-- PAGE_DATA, R195. A fatal write ends the rule with `scratch` filled and the session unchanged
(60_exceptions R272). -/
def pageDataRule (s : State) : State :=
  let n := (Hw.read s.cfg .data (scratchSize s.cfg) s.hw).1.length
  let s := s.readInto .data .scratch (scratchSize s.cfg)
  let s := s.flashWrite (pageBase s.cfg s.sess.curPage + s.sess.pageOffset) s.scratch (ceil2 n)
  if s.fatal.isSome then s else { s with sess := pageAdvance n s.sess }

/-- DONE_DISCARD, R197: nothing changes. -/
def doneDiscardRule (s : State) : State := s

/-! ## Events -/

/-- A packet in a header phase (R191): a valid record runs its rule, another draws its error byte. -/
def headerPacket (want : Byte) (accept : State → State) (s : State) : State :=
  let r := validateRule want s
  if r.1 = .noError then accept r.2 else r.2.raiseBulkError r.1

/-- The case of R191 that `bl_state` selects. -/
def bulkCase (s : State) : State :=
  match s.sess.blState with
  | .waitSizeHeader => headerPacket 0x20 sizeHeaderRule s
  | .waitDataHeader => headerPacket 0x21 pageHeaderRule s
  | .receivingPage => pageDataRule s
  | .done => doneDiscardRule s

/-- BULK_OUT, R191: the case, then the re-arm of R200, which a FlashFatal keeps from running. -/
def bulkOutRule (s : State) : State :=
  let s := bulkCase s
  if s.fatal.isSome then s else s.onHw (fun c h => Hw.markRxDone c .data h)

/-- BULK_IN, R201: nothing changes. -/
def bulkInRule (s : State) : State := s

/-! ## The meanings -/

/-- BULK_OUT, R191. -/
def execBulkOut (s : State) : Answer := s.run bulkOutRule

/-- BULK_IN, R201. -/
def execBulkIn (s : State) : Answer := s.run bulkInRule

/-- CMD_SIZE_HEADER, R193. -/
def execCmdSizeHeader (pad : Byte) (page dataLen crc : Word16) (s : State) : Answer :=
  s.run (fun s => sizeHeaderRule { s with cmdBuf := recordOf 0x20 pad page dataLen crc })

/-- CMD_PAGE_HEADER, R194. -/
def execCmdPageHeader (pad : Byte) (page dataLen crc : Word16) (s : State) : Answer :=
  s.run (fun s => pageHeaderRule { s with cmdBuf := recordOf 0x21 pad page dataLen crc })

/-- PAGE_DATA, R195. -/
def execPageData (s : State) : Answer := s.run pageDataRule

/-- DONE_DISCARD, R197. -/
def execDoneDiscard (s : State) : Answer := s.run doneDiscardRule

/-- VALIDATE_CMD, R192. It returns the code (log 23). -/
def execValidateCmd (want : Byte) (s : State) : Answer :=
  s.run (fun s => { (validateRule want s).2 with result := (errByte (validateRule want s).1).toNat })

/-- REPORT_ERROR, R198. -/
def execReportError (code : ErrCode) (s : State) : Answer := s.run (reportRule code)

/-- ECHO, R199. -/
def execEcho (s : State) : Answer := s.run echoRule

end Sys2Proof.Machine
end

