-- ==== Sys2Proof/Machine/Control.lean ====
section
/-! DEFINITION. The Control Transfer State Machine (spec/42_control_transfer.md): its rules as functions on the
state, which the interrupt entry runs one after another, and the meanings of its instructions. An instruction of
format SETUP first puts its packet in `setup[0..7]`, where CTRL_SETUP's READ puts it (log 2). -/

namespace Sys2Proof.Machine

/-! ## Helpers -/

/-- `ctl_state <- x` (R178). -/
def State.enter (s : State) (x : CtlState) : State := { s with ctl.ctlState := x }

/-- ACK, R143: a zero-length packet is queued. -/
def ackRule (s : State) : State := s.send .ctrl [] 0

/-- REJECT, R144. -/
def rejectRule (s : State) : State := s.raiseCtrlStall

/-- `call ACK; ctl_state <- x`. -/
def ackInto (x : CtlState) (s : State) : State := (ackRule s).enter x

/-- The chunk TransmitSetupPacket sends: `min(xfer_rem, packet_size)` bytes of the source from `xfer_off`
(R146). -/
def nextChunk (s : State) : List Byte :=
  sliceOf .source s.hw.powerOns (sourceBytes s s.ctl.xferSrc) s.ctl.xferOff.toNat
    (min s.ctl.xferRem.toNat (packetSize s.cfg))

/-- TRANSMIT_SETUP_PACKET, R146: whether a packet was queued, and the state after. -/
def transmitRule (s : State) : Bool × State :=
  if s.ctl.dirIn then
    let w := Hw.write s.cfg .ctrl (nextChunk s) (nextChunk s).length s.hw
    (true, { s with
      hw := w.2
      ctl.xferOff := s.ctl.xferOff + BitVec.ofNat 16 w.1
      ctl.xferRem := s.ctl.xferRem - BitVec.ofNat 16 w.1 })
  else (false, s.logEvent .badDirection)

/-- START_IN, R145: the length is clamped to `wLength`. -/
def startInRule (src : XferSrc) (naturalLen : Word16) (s : State) : State :=
  let r := transmitRule { s with
    ctl.xferSrc := src, ctl.xferOff := 0, ctl.xferRem := min16 naturalLen s.ctl.wLength }
  r.2.enter (if r.1 then .dataIn else .idle)

/-! ## Standard requests -/

/-- The byte GET_STATUS answers for the device (30_encoding R94). -/
def deviceStatusByte (x : ControlCtx) : Byte :=
  (BitVec.ofBool x.selfPowered).setWidth 8 ||| ((BitVec.ofBool x.remoteWakeup).setWidth 8 <<< 1)

/-- `status_buf <- [b, 00]` and the reply begins (R148). -/
def replyStatus (b : Byte) (s : State) : State := startInRule .status 2 { s with ctl.statusBuf := [b, 0] }

/-- GET_STATUS, R148. -/
def getStatusRule (s : State) : State :=
  if s.ctl.recipient = 0 then replyStatus (deviceStatusByte s.ctl) s
  else if s.ctl.recipient = 1 then replyStatus 0 s
  else if s.ctl.recipient = 2 then
    match s.ctl.addressedEp with
    | some e =>
      let s := s.slot
      replyStatus (if eprStat (s.hw.epr.get e) s.ctl.addressedDir = .stall then 1 else 0) s
    | none => rejectRule s
  else rejectRule s

/-- What a feature request addresses (30_encoding R94, R149, R151). -/
inductive Feature where
  | remoteWakeup
  | halt (e : Ep)
  | unknown
  deriving DecidableEq, Repr

/-- The feature the captured packet addresses. -/
def ControlCtx.feature (x : ControlCtx) : Feature :=
  if x.recipient = 0 ∧ x.wValue = 1 then .remoteWakeup
  else if x.recipient = 2 ∧ x.wValue = 0 then
    match x.addressedEp with
    | some e => .halt e
    | none => .unknown
  else .unknown

/-- CLEAR_FEATURE, R149. -/
def clearFeatureRule (s : State) : State :=
  match s.ctl.feature with
  | .remoteWakeup => ackInto .status { s with ctl.remoteWakeup := false }
  | .halt e => ackInto .status (s.onHw (fun c h => Hw.unstall c e h))
  | .unknown => rejectRule s

/-- SET_FEATURE, R151. -/
def setFeatureRule (s : State) : State :=
  match s.ctl.feature with
  | .remoteWakeup => ackInto .status { s with ctl.remoteWakeup := true }
  | .halt e => ackInto .status (s.onHw (fun c h => Hw.stall c e h))
  | .unknown => rejectRule s

/-- SET_ADDRESS, R153: the address is kept, not applied. -/
def setAddressRule (s : State) : State :=
  ackInto .status { s with dev.pendingAddr := s.ctl.wValue.extractLsb' 0 7, dev.addrPending := true }

/-- GET_DESCRIPTOR.DEVICE, R155. -/
def getDescriptorDeviceRule (s : State) : State := startInRule .dev (devLength s.cfg) s

/-- GET_DESCRIPTOR.CONFIGURATION, R156. -/
def getDescriptorConfigurationRule (s : State) : State := startInRule .cfg (cfgLength s.cfg) s

/-- GET_DESCRIPTOR.STRING, R157. -/
def getDescriptorStringRule (s : State) : State :=
  let i := s.ctl.wValueL.toNat
  if i < s.cfg.strDesc.length then startInRule (.str i) (strLength s.cfg i) s else rejectRule s

/-- GET_DESCRIPTOR, R154: the case its descriptor type names; types 6 (R158) and any other (R159) reject. -/
def getDescriptorRule (s : State) : State :=
  if s.ctl.wValueH = 1 then getDescriptorDeviceRule s
  else if s.ctl.wValueH = 2 then getDescriptorConfigurationRule s
  else if s.ctl.wValueH = 3 then getDescriptorStringRule s
  else rejectRule s

/-- GET_CONFIGURATION, R162. -/
def getConfigurationRule (s : State) : State := startInRule .config 1 s

/-- SET_CONFIGURATION, R163 (conflict C3: the line coding is reset by a nonzero value). -/
def setConfigurationRule (s : State) : State :=
  let s := { s with ctl.configValue := s.ctl.wValueL }
  ackInto .status
    (if s.ctl.wValueL = 0 then { s with dev.configured := false }
     else
       { s with
         cls := { lc := s.cfg.lcDefault, dtr := false, rts := false }
         dev.addrPending := false
         dev.configured := true })

/-- GET_INTERFACE, R164. -/
def getInterfaceRule (s : State) : State := startInRule .zero 1 s

/-- SET_INTERFACE, R165. -/
def setInterfaceRule (s : State) : State := ackInto .status s

/-! ## Class requests -/

/-- `call ACK; ctl_state <- DATA_OUT if wLength != 0 else STATUS` (R169, R171, R172). -/
def ackBeforeData (s : State) : State :=
  ackInto (if s.ctl.wLength = 0 then .status else .dataOut) s

/-- GET_LINE_CODING, R170. -/
def getLineCodingRule (s : State) : State := startInRule .lc 7 s

/-- CLASS_OTHER, R173. -/
def classOtherRule (s : State) : State := ackInto .status (s.logEvent .unknownClassReq)

/-! ## Dispatch and events -/

/-- The rule of a SETUP row. -/
def SetupRow.rule : SetupRow → State → State
  | .getStatus => getStatusRule
  | .clearFeature => clearFeatureRule
  | .stdReserved2 => rejectRule
  | .setFeature => setFeatureRule
  | .stdReserved4 => rejectRule
  | .setAddress => setAddressRule
  | .getDescriptorDevice => getDescriptorDeviceRule
  | .getDescriptorConfiguration => getDescriptorConfigurationRule
  | .getDescriptorString => getDescriptorStringRule
  | .getDescriptorDeviceQualifier => rejectRule
  | .getDescriptorOther => rejectRule
  | .setDescriptor => rejectRule
  | .getConfiguration => getConfigurationRule
  | .setConfiguration => setConfigurationRule
  | .getInterface => getInterfaceRule
  | .setInterface => setInterfaceRule
  | .synchFrame => rejectRule
  | .stdUnmapped => rejectRule
  | .setLineCoding => ackBeforeData
  | .getLineCoding => getLineCodingRule
  | .setControlLineState => ackBeforeData
  | .sendBreak => ackBeforeData
  | .classOther => classOtherRule
  | .vendor => rejectRule
  | .typeReserved => rejectRule

/-- The operation the captured packet selects, run (R141, R142, R147, R168; 30_encoding R84). -/
def dispatchSetup (s : State) : State := SetupRow.rule (decodeKey (setupKey s.ctl.setup)) s

/-- CTRL_SETUP, R141. -/
def ctrlSetupRule (s : State) : State := dispatchSetup ((s.enter .setupReceived).readInto .ctrl .setup 8)

/-- `ctl_state` after CTRL_IN (R178). -/
def afterCtrlIn (sent : Bool) (x : CtlState) : CtlState :=
  if sent then .dataIn
  else match x with
    | .dataIn => .status
    | .status => .idle
    | .idle => .idle
    | .setupReceived => .setupReceived
    | .dataOut => .dataOut

/-- CTRL_IN, R176. -/
def ctrlInRule (s : State) : State :=
  let r := if s.ctl.xferRem = 0 then (false, s) else transmitRule s
  r.2.enter (afterCtrlIn r.1 s.ctl.ctlState)

/-- `ctl_state` after CTRL_OUT (R178). -/
def afterCtrlOut (x : CtlState) : CtlState := if x = .dataOut then .status else .idle

/-- CTRL_OUT, R177: keyed on the captured packet, with no phase flag. -/
def ctrlOutRule (s : State) : State :=
  let t :=
    if s.ctl.reqType = 1 ∧ s.ctl.request = 0x20 then s.readInto .ctrl .lc 7
    else
      let s :=
        if s.ctl.reqType = 1 ∧ s.ctl.request = 0x22 then
          { s with cls.dtr := s.ctl.wValueH.getLsbD 0, cls.rts := s.ctl.wValueH.getLsbD 1 }
        else s
      s.onHw (fun c h => Hw.markRxDone c .ctrl h)
  t.enter (afterCtrlOut s.ctl.ctlState)

/-! ## The meanings: helpers and events -/

/-- ACK, R143. -/
def execAck (s : State) : Answer := s.run ackRule

/-- REJECT, R144. -/
def execReject (s : State) : Answer := s.run rejectRule

/-- START_IN, R145. -/
def execStartIn (src : XferSrc) (naturalLen : Word16) (s : State) : Answer := s.run (startInRule src naturalLen)

/-- TRANSMIT_SETUP_PACKET, R146. It returns 1 where a packet was queued (log 23). -/
def execTransmitSetupPacket (s : State) : Answer :=
  s.run (fun s => { (transmitRule s).2 with result := (transmitRule s).1.toNat })

/-- CTRL_SETUP, R141. -/
def execCtrlSetup (s : State) : Answer := s.run ctrlSetupRule

/-- CTRL_OUT, R177. -/
def execCtrlOut (s : State) : Answer := s.run ctrlOutRule

/-- CTRL_IN, R176. -/
def execCtrlIn (s : State) : Answer := s.run ctrlInRule

/-! ## The meanings: requests -/

/-- The packet of a SETUP-format instruction is captured in `setup[0..7]` (log 2). -/
def State.capture (s : State) (packet : List Byte) : State := { s with ctl.setup := packet }

/-- A SETUP-format instruction: the packet is captured and its rule runs. -/
def runSetup (packet : List Byte) (rule : State → State) (s : State) : Answer :=
  s.run (fun s => rule (s.capture packet))

/-- GET_STATUS, R148. -/
def execGetStatus (a : SetupArgs) (v : Word16) (s : State) : Answer :=
  runSetup (packetOfValue a 0 0 v) getStatusRule s

/-- CLEAR_FEATURE, R149. -/
def execClearFeature (a : SetupArgs) (v : Word16) (s : State) : Answer :=
  runSetup (packetOfValue a 0 1 v) clearFeatureRule s

/-- STD_RESERVED_2, R150. -/
def execStdReserved2 (a : SetupArgs) (v : Word16) (s : State) : Answer :=
  runSetup (packetOfValue a 0 2 v) rejectRule s

/-- SET_FEATURE, R151. -/
def execSetFeature (a : SetupArgs) (v : Word16) (s : State) : Answer :=
  runSetup (packetOfValue a 0 3 v) setFeatureRule s

/-- STD_RESERVED_4, R152. -/
def execStdReserved4 (a : SetupArgs) (v : Word16) (s : State) : Answer :=
  runSetup (packetOfValue a 0 4 v) rejectRule s

/-- SET_ADDRESS, R153. -/
def execSetAddress (a : SetupArgs) (v : Word16) (s : State) : Answer :=
  runSetup (packetOfValue a 0 5 v) setAddressRule s

/-- GET_DESCRIPTOR, R154. -/
def execGetDescriptor (a : SetupArgs) (type index : Byte) (s : State) : Answer :=
  runSetup (packetOf a 0 6 index type) getDescriptorRule s

/-- GET_DESCRIPTOR.DEVICE, R155. -/
def execGetDescriptorDevice (a : SetupArgs) (index : Byte) (s : State) : Answer :=
  runSetup (packetOf a 0 6 index 1) getDescriptorDeviceRule s

/-- GET_DESCRIPTOR.CONFIGURATION, R156. -/
def execGetDescriptorConfiguration (a : SetupArgs) (index : Byte) (s : State) : Answer :=
  runSetup (packetOf a 0 6 index 2) getDescriptorConfigurationRule s

/-- GET_DESCRIPTOR.STRING, R157. -/
def execGetDescriptorString (a : SetupArgs) (index : Byte) (s : State) : Answer :=
  runSetup (packetOf a 0 6 index 3) getDescriptorStringRule s

/-- GET_DESCRIPTOR.DEVICE_QUALIFIER, R158. -/
def execGetDescriptorDeviceQualifier (a : SetupArgs) (index : Byte) (s : State) : Answer :=
  runSetup (packetOf a 0 6 index 6) rejectRule s

/-- GET_DESCRIPTOR.OTHER, R159. -/
def execGetDescriptorOther (a : SetupArgs) (type index : Byte) (s : State) : Answer :=
  runSetup (packetOf a 0 6 index type) rejectRule s

/-- SET_DESCRIPTOR, R161. -/
def execSetDescriptor (a : SetupArgs) (v : Word16) (s : State) : Answer :=
  runSetup (packetOfValue a 0 7 v) rejectRule s

/-- GET_CONFIGURATION, R162. -/
def execGetConfiguration (a : SetupArgs) (v : Word16) (s : State) : Answer :=
  runSetup (packetOfValue a 0 8 v) getConfigurationRule s

/-- SET_CONFIGURATION, R163. -/
def execSetConfiguration (a : SetupArgs) (v : Word16) (s : State) : Answer :=
  runSetup (packetOfValue a 0 9 v) setConfigurationRule s

/-- GET_INTERFACE, R164. -/
def execGetInterface (a : SetupArgs) (v : Word16) (s : State) : Answer :=
  runSetup (packetOfValue a 0 10 v) getInterfaceRule s

/-- SET_INTERFACE, R165. -/
def execSetInterface (a : SetupArgs) (v : Word16) (s : State) : Answer :=
  runSetup (packetOfValue a 0 11 v) setInterfaceRule s

/-- SYNCH_FRAME, R166. -/
def execSynchFrame (a : SetupArgs) (v : Word16) (s : State) : Answer :=
  runSetup (packetOfValue a 0 12 v) rejectRule s

/-- STD_UNMAPPED, R167. -/
def execStdUnmapped (a : SetupArgs) (request : Byte) (v : Word16) (s : State) : Answer :=
  runSetup (packetOfValue a 0 request v) rejectRule s

/-- SET_LINE_CODING, R169. -/
def execSetLineCoding (a : SetupArgs) (v : Word16) (s : State) : Answer :=
  runSetup (packetOfValue a 1 0x20 v) ackBeforeData s

/-- GET_LINE_CODING, R170. -/
def execGetLineCoding (a : SetupArgs) (v : Word16) (s : State) : Answer :=
  runSetup (packetOfValue a 1 0x21 v) getLineCodingRule s

/-- SET_CONTROL_LINE_STATE, R171. -/
def execSetControlLineState (a : SetupArgs) (v : Word16) (s : State) : Answer :=
  runSetup (packetOfValue a 1 0x22 v) ackBeforeData s

/-- SEND_BREAK, R172. -/
def execSendBreak (a : SetupArgs) (v : Word16) (s : State) : Answer :=
  runSetup (packetOfValue a 1 0x23 v) ackBeforeData s

/-- CLASS_OTHER, R173. -/
def execClassOther (a : SetupArgs) (request : Byte) (v : Word16) (s : State) : Answer :=
  runSetup (packetOfValue a 1 request v) classOtherRule s

/-- VENDOR, R174. -/
def execVendor (a : SetupArgs) (request : Byte) (v : Word16) (s : State) : Answer :=
  runSetup (packetOfValue a 2 request v) rejectRule s

/-- TYPE_RESERVED, R175. -/
def execTypeReserved (a : SetupArgs) (request : Byte) (v : Word16) (s : State) : Answer :=
  runSetup (packetOfValue a 3 request v) rejectRule s

end Sys2Proof.Machine
end

