-- ==== Sys2Proof/Machine/Interrupt.lean ====
section
/-! DEFINITION. The Interrupt Dispatcher (spec/44_interrupt_dispatcher.md): its rules as functions on the state,
the entry they make up, and the meanings of its instructions. -/

namespace Sys2Proof.Machine

/-! ## Causes -/

/-- `CNTR.FSUSP` and `CNTR.LP_MODE` take a value, one register write each (R222, R223). -/
def Hw.putLowPower (c : Config) (on : Bool) (h : Hw) : Hw :=
  let h := h.slot c
  let h := { h with cntr := withBits h.cntr 0x0008#16 (bits on) }
  let h := h.slot c
  { h with cntr := withBits h.cntr 0x0004#16 (bits on) }

/-- IRQ_RESUME, R222. -/
def resumeRule (s : State) : State :=
  { s with dev.suspended := false }.onHw (fun c h => Hw.putLowPower c false h)

/-- IRQ_SUSPEND, R223. -/
def suspendRule (s : State) : State :=
  { s with dev.suspended := true }.onHw (fun c h => Hw.putLowPower c true h)

/-- IRQ_OTHER, R224: one register write clears all seven stored cause bits, as they stand at that instant. -/
def clearCausesRule (s : State) : State := s.onHw (fun c h => { h.slot c with causes := 0 })

/-! ## Bus reset -/

/-- The endpoint values of R233. -/
def resetConfigure (c : Config) (e : Ep) (h : Hw) : Hw :=
  match e with
  | .ctrl => Hw.epConfigure c .ctrl .control 0 .valid .nak h
  | .data => Hw.epConfigure c .data .bulk 1 .valid .nak h
  | .comm => Hw.epConfigure c .comm .interrupt 2 .disabled .nak h

/-- One turn of the reset handler's loop over endpoints (R225). -/
def resetEndpoint (c : Config) (h : Hw) (e : Ep) : Hw :=
  let h := h.slot c
  let h := { h with txOffset := h.txOffset.set e (c.txOff.get e) }
  let h := h.slot c
  let h := { h with rxOffset := h.rxOffset.set e (c.rxOff.get e) }
  let h := h.slot c
  let h := { h with txCount := h.txCount.set e 0 }
  let h := h.slot c
  let h := { h with rxCount := h.rxCount.set e 0 }
  resetConfigure c e h

/-- `DADDR <- v`, one register write. -/
def Hw.putDaddr (c : Config) (v : BitVec 8) (h : Hw) : Hw := { h.slot c with daddr := v }

/-- The ControlTransferContext the reset handler leaves (R225). -/
def resetControl (c : Config) : ControlCtx :=
  { setup := [0, 0, 0, 0, 0, 0, 0, 0], configValue := 0, xferSrc := .none, xferOff := 0, xferRem := 0
    remoteWakeup := false, selfPowered := c.selfPoweredInit, statusBuf := [0, 0], ctlState := .idle }

/-- The FlashSession the reset handler leaves (R225). -/
def resetSession : FlashSession :=
  { totalPages := 0, curPage := 0, pageOffset := 0, expectedLen := 0, headerAccepted := false
    lastCmd := { id := 0, page := 0, dataLen := 0, crc := 0 }, blState := .waitSizeHeader }

/-- IRQ_RESET, the bus-reset handler, R225. -/
def resetRule (s : State) : State :=
  { s.onHw (fun c h => Hw.putDaddr c 0x80 ([Ep.ctrl, Ep.data, Ep.comm].foldl (resetEndpoint c) h)) with
    ctl := resetControl s.cfg
    dev := { s.dev with configured := false, addrPending := false, pendingAddr := 0 }
    sess := resetSession }

/-! ## Completions -/

/-- APPLY_ADDRESS, R229: `DADDR <- 0x80 | pending_addr`; `pending_addr` keeps its value. -/
def applyAddressRule (s : State) : State :=
  { s.onHw (fun c h => Hw.putDaddr c (0x80 ||| s.dev.pendingAddr.setWidth 8) h) with dev.addrPending := false }

/-- COMM_OUT, R230: no state changes. -/
def commOutRule (s : State) : State := s

/-- COMM_IN, R231: no handler. -/
def commInRule (s : State) : State := s

/-- The handler of a completion row (R227, R228). -/
def EventRow.rule : EventRow → State → State
  | .ctrlSetup => ctrlSetupRule
  | .ctrlOut => ctrlOutRule
  | .ctrlIn => ctrlInRule
  | .bulkOut => bulkOutRule
  | .bulkIn => bulkInRule
  | .commOut => commOutRule
  | .commIn => commInRule

/-- A pending address is applied before a device-to-host handler runs (R228). -/
def applyIfPending (d : Dir) (s : State) : State :=
  if d = .tx ∧ s.dev.addrPending = true then applyAddressRule s else s

/-- A completion on endpoint `e`, direction `d`, routed by its triple (R226 to R228, 30_encoding R92). -/
def routeCompletion (e : Ep) (d : Dir) (isSetup : Bool) (s : State) : State :=
  match decodeEvent (eventOf (BitVec.ofNat 4 e.num) (d == .rx) isSetup) with
  | some row => EventRow.rule row (applyIfPending d s)
  | none => s

/-- One turn of the drain loop for the ISTR value `v` (R226): the flag is cleared before the handler runs, and
SETUP is sampled before the flag is cleared. -/
def drainTurn (v : Word16) (s : State) : State :=
  match epOfNum (v.extractLsb' 0 4).toNat with
  | some e =>
    let d : Dir := if v.getLsbD 4 then .rx else .tx
    let s := s.slot
    let isSetup := eprSetup (s.hw.epr.get e)
    routeCompletion e d isSetup (s.onHw (fun c h => Hw.clearCtr c e d h))
  | none => s

/-- The drain loop (R226), a fresh read of ISTR on every turn; FlashFatal ends it. -/
def drainLoop : (fuel : Nat) → State → State
  | 0, s => s
  | fuel + 1, s =>
    let s := s.slot
    if s.hw.istr.getLsbD 15 then
      let s := drainTurn s.hw.istr s
      if s.fatal.isSome then s else drainLoop fuel s
    else s

/-- IRQ_CTR, R226. Each turn clears one completion flag and only a bus move sets one, so six flags and the moves
still scheduled bound the turns (R232, log 16). -/
def drainRule (s : State) : State := drainLoop (s.hw.scheduled + 7) s

/-! ## The entry -/

/-- The rule of a cause row. -/
def CauseRow.rule : CauseRow → State → State
  | .resume => resumeRule
  | .suspend => suspendRule
  | .other => clearCausesRule
  | .reset => resetRule
  | .ctr => drainRule

/-- One interrupt entry, R221: one read of ISTR, then the rows it selects in their order. RESET returns before
the drain loop; the drain loop re-reads ISTR, so it runs whether or not the snapshot shows `CTR`. -/
def entryRule (s : State) : State :=
  let s := s.slot
  let c := s.hw.istr
  let s := if c.getLsbD 12 then resumeRule s else s
  let s := if c.getLsbD 11 then suspendRule s else s
  let s := clearCausesRule s
  if c.getLsbD 10 then resetRule s else drainRule s

/-- Whether an entry may start (R220), the block not being stopped by FlashFatal (60_exceptions R272: "no later
entry runs"). -/
def State.due (s : State) : Bool :=
  s.irqEnable && s.fatal.isNone && (s.hw.istr &&& 0xFF00#16 != 0)

/-- An entry where one may start; where its condition is false no entry runs (R220). -/
def State.entryIfDue (s : State) : State := if s.due then entryRule s else s

/-! ## The meanings -/

/-- IRQ_RESUME, R222. -/
def execIrqResume (s : State) : Answer := s.run resumeRule

/-- IRQ_SUSPEND, R223. -/
def execIrqSuspend (s : State) : Answer := s.run suspendRule

/-- IRQ_OTHER, R224. -/
def execIrqOther (s : State) : Answer := s.run clearCausesRule

/-- IRQ_RESET, R225. -/
def execIrqReset (s : State) : Answer := s.run resetRule

/-- IRQ_CTR, R226. -/
def execIrqCtr (s : State) : Answer := s.run drainRule

/-- APPLY_ADDRESS, R229. -/
def execApplyAddress (s : State) : Answer := s.run applyAddressRule

/-- COMM_OUT, R230. -/
def execCommOut (s : State) : Answer := s.run commOutRule

/-- COMM_IN, R231. -/
def execCommIn (s : State) : Answer := s.run commInRule

end Sys2Proof.Machine
end

