-- ==== Sys2Proof/Machine/Transfer.lean ====
section
/-! DEFINITION. The meanings of the Buffer Transfer Engine's operations (spec/41_buffer_transfer.md). Run as
instructions they leave what they return in `result` (log 23). -/

namespace Sys2Proof.Machine

/-- READ, R130. A packet that would fill more bytes than the destination holds is refused: the spec gives bytes
past a buffer's end no place (log 19). -/
def execRead (e : Ep) (dest : Buffer) (maxCount : Nat) (s : State) : Answer :=
  if bufferSize s.cfg dest < (Hw.read s.cfg e maxCount s.hw).1.length then .refused .bufferOverrun
  else s.run (fun s =>
    { s.readInto e dest maxCount with result := (Hw.read s.cfg e maxCount s.hw).1.length })

/-- WRITE, R131. -/
def execWrite (e : Ep) (src : List Byte) (count : Nat) (s : State) : Answer :=
  s.run (fun s => { s.send e src count with result := (Hw.write s.cfg e src count s.hw).1 })

end Sys2Proof.Machine
end

