-- ==== Sys2Proof/Machine/Dispatch.lean ====
section
/-! DEFINITION. Which meaning each instruction has: one arm per constructor of `Instr`, in the order of
spec/opcode_table.json. -/

namespace Sys2Proof.Machine

/-- The meaning of an instruction (spec/30_encoding.md R80). -/
def exec (i : Instr) (s : State) : Host.Outcome State Fault Refusal :=
  match i with
  -- 40_endpoint_register.md
  | .eprWrite e v => Sys2Proof.Machine.execEprWrite e v s
  | .setStatus e d target => Sys2Proof.Machine.execSetStatus e d target s
  | .stall e => Sys2Proof.Machine.execStall e s
  | .unstall e => Sys2Proof.Machine.execUnstall e s
  | .markRxDone e => Sys2Proof.Machine.execMarkRxDone e s
  | .markTxReady e => Sys2Proof.Machine.execMarkTxReady e s
  | .clearCtr e d => Sys2Proof.Machine.execClearCtr e d s
  | .epConfigure e type addr rx tx => Sys2Proof.Machine.execEpConfigure e type addr rx tx s
  -- 41_buffer_transfer.md
  | .read e dest maxCount => Sys2Proof.Machine.execRead e dest maxCount s
  | .write e src count => Sys2Proof.Machine.execWrite e src count s
  -- 42_control_transfer.md
  | .ack => Sys2Proof.Machine.execAck s
  | .reject => Sys2Proof.Machine.execReject s
  | .startIn src naturalLen => Sys2Proof.Machine.execStartIn src naturalLen s
  | .transmitSetupPacket => Sys2Proof.Machine.execTransmitSetupPacket s
  | .ctrlSetup => Sys2Proof.Machine.execCtrlSetup s
  | .ctrlOut => Sys2Proof.Machine.execCtrlOut s
  | .ctrlIn => Sys2Proof.Machine.execCtrlIn s
  | .getStatus a wValue => Sys2Proof.Machine.execGetStatus a wValue s
  | .clearFeature a wValue => Sys2Proof.Machine.execClearFeature a wValue s
  | .stdReserved2 a wValue => Sys2Proof.Machine.execStdReserved2 a wValue s
  | .setFeature a wValue => Sys2Proof.Machine.execSetFeature a wValue s
  | .stdReserved4 a wValue => Sys2Proof.Machine.execStdReserved4 a wValue s
  | .setAddress a wValue => Sys2Proof.Machine.execSetAddress a wValue s
  | .getDescriptor a type index => Sys2Proof.Machine.execGetDescriptor a type index s
  | .getDescriptorDevice a index => Sys2Proof.Machine.execGetDescriptorDevice a index s
  | .getDescriptorConfiguration a index => Sys2Proof.Machine.execGetDescriptorConfiguration a index s
  | .getDescriptorString a index => Sys2Proof.Machine.execGetDescriptorString a index s
  | .getDescriptorDeviceQualifier a index => Sys2Proof.Machine.execGetDescriptorDeviceQualifier a index s
  | .getDescriptorOther a type index => Sys2Proof.Machine.execGetDescriptorOther a type index s
  | .setDescriptor a wValue => Sys2Proof.Machine.execSetDescriptor a wValue s
  | .getConfiguration a wValue => Sys2Proof.Machine.execGetConfiguration a wValue s
  | .setConfiguration a wValue => Sys2Proof.Machine.execSetConfiguration a wValue s
  | .getInterface a wValue => Sys2Proof.Machine.execGetInterface a wValue s
  | .setInterface a wValue => Sys2Proof.Machine.execSetInterface a wValue s
  | .synchFrame a wValue => Sys2Proof.Machine.execSynchFrame a wValue s
  | .stdUnmapped a request wValue => Sys2Proof.Machine.execStdUnmapped a request wValue s
  | .setLineCoding a wValue => Sys2Proof.Machine.execSetLineCoding a wValue s
  | .getLineCoding a wValue => Sys2Proof.Machine.execGetLineCoding a wValue s
  | .setControlLineState a wValue => Sys2Proof.Machine.execSetControlLineState a wValue s
  | .sendBreak a wValue => Sys2Proof.Machine.execSendBreak a wValue s
  | .classOther a request wValue => Sys2Proof.Machine.execClassOther a request wValue s
  | .vendor a request wValue => Sys2Proof.Machine.execVendor a request wValue s
  | .typeReserved a request wValue => Sys2Proof.Machine.execTypeReserved a request wValue s
  -- 43_bulk_protocol.md
  | .bulkOut => Sys2Proof.Machine.execBulkOut s
  | .bulkIn => Sys2Proof.Machine.execBulkIn s
  | .cmdSizeHeader pad page dataLen crc => Sys2Proof.Machine.execCmdSizeHeader pad page dataLen crc s
  | .cmdPageHeader pad page dataLen crc => Sys2Proof.Machine.execCmdPageHeader pad page dataLen crc s
  | .pageData => Sys2Proof.Machine.execPageData s
  | .doneDiscard => Sys2Proof.Machine.execDoneDiscard s
  | .validateCmd want => Sys2Proof.Machine.execValidateCmd want s
  | .reportError code => Sys2Proof.Machine.execReportError code s
  | .echo => Sys2Proof.Machine.execEcho s
  -- 44_interrupt_dispatcher.md
  | .irqResume => Sys2Proof.Machine.execIrqResume s
  | .irqSuspend => Sys2Proof.Machine.execIrqSuspend s
  | .irqOther => Sys2Proof.Machine.execIrqOther s
  | .irqReset => Sys2Proof.Machine.execIrqReset s
  | .irqCtr => Sys2Proof.Machine.execIrqCtr s
  | .applyAddress => Sys2Proof.Machine.execApplyAddress s
  | .commOut => Sys2Proof.Machine.execCommOut s
  | .commIn => Sys2Proof.Machine.execCommIn s
  -- 45_collaborators.md
  | .busSetup a b dtogRx dtogTx => Sys2Proof.Machine.execBusSetup a b dtogRx dtogTx s
  | .busOut a e b tail dtogRx => Sys2Proof.Machine.execBusOut a e b tail dtogRx s
  | .busIn a e dtogTx => Sys2Proof.Machine.execBusIn a e dtogTx s
  | .busRefuse a e d => Sys2Proof.Machine.execBusRefuse a e d s
  | .busReset => Sys2Proof.Machine.execBusReset s
  | .busCause c => Sys2Proof.Machine.execBusCause c s
  | .flashErase a => Sys2Proof.Machine.execFlashErase a s
  | .flashWrite a buf k => Sys2Proof.Machine.execFlashWrite a buf k s
  | .irqSetEnable v => Sys2Proof.Machine.execIrqSetEnable v s

end Sys2Proof.Machine
end

