-- ==== Sys2Proof/Machine/Present.lean ====
section
/-! DEFINITION. An operation presented by itself as a stimulus line (spec/30_encoding.md R98): a command record is
validated in the order of spec/43_bulk_protocol.md R192, the rest is decoded and run. -/

namespace Sys2Proof.Machine

/-- Whether a form is a record of the right length, read in a header phase, whose CRC fails: the second test of R192,
made before the id is looked at (60_exceptions R277). -/
def State.crcFails (s : State) : Code → Bool
  | .bulk p => decide (s.sess.blState = .waitSizeHeader ∨ s.sess.blState = .waitDataHeader) &&
      decide (p.length = 8) && !decide (recordCrcGood s.cfg p)
  | .name _ => false
  | .setup _ => false
  | .event _ => false
  | .cause _ => false

/-- A record of the right length is in `cmd_buf` when it is found wrong; of another length it touches nothing
(R192). -/
def State.keepRecord (s : State) : Code → State
  | .bulk p => if p.length = 8 then { s with cmdBuf := p } else s
  | .name _ => s
  | .setup _ => s
  | .event _ => s
  | .cause _ => s

/-- A presented form that no row takes. A command record of the wrong length, or of the wrong id with a good CRC, draws
its error byte (30_encoding R96, 60_exceptions R271); a SETUP packet of other than 8 bytes is refused (93 section 3); a
triple of an endpoint above 2 "cannot arise" (30_encoding R92) and is refused (log 24). A name is never left to be
rejected (`Code.resolve`). -/
def undecoded (r : DecodeError) (s : State) : Answer :=
  match r with
  | .recordLength => exec (.reportError .cmdWrongLength) s
  | .recordId => exec (.reportError .cmdWrongId) s
  | .setupLength => .refused .setupNotEightBytes
  | .eventEndpoint => .refused (.undecodable .eventEndpoint)
  | .notSelectedByName => .refused (.undecodable .notSelectedByName)

/-- One operation presented by itself, decoded in the phase the machine is in. -/
def present (c : Code) (s : State) : Answer :=
  let c := c.resolve
  if s.crcFails c then exec (.reportError .cmdWrongCrc) (s.keepRecord c)
  else
    match decode s.sess.blState c with
    | .instr i => exec i s
    | .reject r => undecoded r (s.keepRecord c)

end Sys2Proof.Machine
end

