-- ==== Sys2Proof/Machine/Step.lean ====
section
/-! DEFINITION. The machine's step: the next stimulus line (spec/30_encoding.md R98), and where none is left, the
entry that is still pending (spec/44_interrupt_dispatcher.md R220, spec/70_reset_and_hazards.md R318). -/

namespace Sys2Proof.Machine

/-- POWERON: the power-on state (10_state R32). What the host and the log have recorded, the environment's
schedule and the remaining lines are not the block's and stay (log 22). -/
def State.powerCycle (s : State) : State :=
  let p := State.powerOn s.cfg (s.hw.powerOns + 1)
  { p with
    hw := { p.hw with between := s.hw.between, replies := s.hw.replies }
    log := s.log
    result := s.result
    lines := s.lines }

/-- One step. The stimulus line at the head of `lines` is taken and run: POWERON, an interrupt entry, or an
operation presented by itself. With no line left, a pending entry runs; where none is pending the machine is quiescent
and nothing changes. -/
def step (s : State) : Host.Outcome State Fault Refusal :=
  match s.lines with
  | [] => s.env State.entryIfDue
  | .powerOn :: rest =>
    if configValid s.cfg then .next { s with lines := rest }.powerCycle else .refused .badConfiguration
  | .irq :: rest => { s with lines := rest }.env State.entryIfDue
  | .op c :: rest => present c { s with lines := rest }

/-- `s` with the instruction of a table word as its next stimulus line (log 1, log 4). The table's word of a CMD row is
its id byte alone, with no CRC: it stands for the row, run on a record that is already valid, so the row is named; the
phase is set to the row's `state` (30_encoding R89). Nothing else changes. -/
def State.withFetchWord (s : State) (nbits w : Nat) : State :=
  match tableCode nbits w, decodeTableWord nbits w with
  | .bulk _, some i => { s with lines := .op (.name i) :: s.lines, sess.blState := tablePhase nbits w }
  | c, _ => { s with lines := .op c :: s.lines }

end Sys2Proof.Machine
end

