-- ==== Sys2Proof/Safety.lean ====
section
/-! DEFINITION. What counts as a safe run, the invariant that every step keeps, and the words in which statements
speak of a state: when the block runs, when the bus side is still, what a register holds after a status change,
what a queued packet is. -/

namespace Sys2Proof

/-! ## Kinds of instructions -/

/-- The moves of the bus side and of the session owner, which the block does not make (10_state R10 b, d). -/
def Instr.environment : Instr → Bool
  | .busSetup .. | .busOut .. | .busIn .. | .busRefuse .. | .busReset | .busCause .. | .irqSetEnable .. => true
  | .eprWrite .. | .setStatus .. | .stall .. | .unstall .. | .markRxDone .. | .markTxReady .. | .clearCtr ..
  | .epConfigure .. | .read .. | .write .. | .ack | .reject | .startIn .. | .transmitSetupPacket | .ctrlSetup
  | .ctrlOut | .ctrlIn | .getStatus .. | .clearFeature .. | .stdReserved2 .. | .setFeature .. | .stdReserved4 ..
  | .setAddress .. | .getDescriptor .. | .getDescriptorDevice .. | .getDescriptorConfiguration ..
  | .getDescriptorString .. | .getDescriptorDeviceQualifier .. | .getDescriptorOther .. | .setDescriptor ..
  | .getConfiguration .. | .setConfiguration .. | .getInterface .. | .setInterface .. | .synchFrame ..
  | .stdUnmapped .. | .setLineCoding .. | .getLineCoding .. | .setControlLineState .. | .sendBreak ..
  | .classOther .. | .vendor .. | .typeReserved .. | .bulkOut | .bulkIn | .cmdSizeHeader .. | .cmdPageHeader ..
  | .pageData | .doneDiscard | .validateCmd .. | .reportError .. | .echo | .irqResume | .irqSuspend | .irqOther
  | .irqReset | .irqCtr | .applyAddress | .commOut | .commIn | .flashErase .. | .flashWrite .. => false

/-- The operands that the parameters admit: a READ stays inside its destination (log 19), a SETUP packet has 8
bytes and an OUT packet no more than the capacity (93 section 3). -/
def Instr.fits (c : Config) : Instr → Prop
  | .read _ dest m => m ≤ Machine.bufferSize c dest
  | .busSetup _ b _ _ => b.length = 8
  | .busOut _ e b _ _ => b.length ≤ c.cap.get e
  | _ => True

end Sys2Proof

namespace Sys2Proof.Machine

/-! ## When an operation runs -/

/-- The environment's moves run: the parameters obey 00_scope R5 and the buffer areas lie inside packet memory
(20_memory R52). -/
def State.ready (s : State) : Prop := configValid s.cfg = true ∧ s.areasInside = true

/-- The block's operations run: as `State.ready`, and no FlashFatal has stopped the block (60_exceptions R272). -/
def State.runnable (s : State) : Prop := s.ready ∧ s.fatal = none

/-- The bus side makes no move between the block's accesses (20_memory R62: an atomic entry). -/
def State.quiet (s : State) : Prop := s.hw.between = []

/-! ## Classification of a SETUP packet -/

/-- The operation a standard request code selects: "a fixed table indexed by request code" (42_control R147,
R154; 30_encoding R85, R86). -/
def classifyStandard (a : SetupArgs) (request vl vh : Byte) (v : Word16) : Instr :=
  match request.toNat with
  | 0 => .getStatus a v
  | 1 => .clearFeature a v
  | 2 => .stdReserved2 a v
  | 3 => .setFeature a v
  | 4 => .stdReserved4 a v
  | 5 => .setAddress a v
  | 6 =>
    match vh.toNat with
    | 1 => .getDescriptorDevice a vl
    | 2 => .getDescriptorConfiguration a vl
    | 3 => .getDescriptorString a vl
    | 6 => .getDescriptorDeviceQualifier a vl
    | _ => .getDescriptorOther a vh vl
  | 7 => .setDescriptor a v
  | 8 => .getConfiguration a v
  | 9 => .setConfiguration a v
  | 10 => .getInterface a v
  | 11 => .setInterface a v
  | 12 => .synchFrame a v
  | _ => .stdUnmapped a request v

/-- The operation a class request code selects (42_control R168, 30_encoding R87). -/
def classifyClass (a : SetupArgs) (request : Byte) (v : Word16) : Instr :=
  match request.toNat with
  | 0x20 => .setLineCoding a v
  | 0x21 => .getLineCoding a v
  | 0x22 => .setControlLineState a v
  | 0x23 => .sendBreak a v
  | _ => .classOther a request v

/-- The classification by type, then by code (42_control R142). -/
def classify (p : List Byte) : Instr :=
  match ((byteAt p 0).extractLsb' 5 2).toNat with
  | 0 => classifyStandard (setupArgs p) (byteAt p 1) (byteAt p 2) (byteAt p 3) (packetValue p)
  | 1 => classifyClass (setupArgs p) (byteAt p 1) (packetValue p)
  | 2 => .vendor (setupArgs p) (byteAt p 1) (packetValue p)
  | _ => .typeReserved (setupArgs p) (byteAt p 1) (packetValue p)

/-! ## Register values -/

/-- The bits of a direction's status field (10_state R12). -/
def statusMask : Dir → Word16
  | .rx => 0x3000#16
  | .tx => 0x0030#16

/-- A register whose status field of one direction is `target` and whose other bits are as they were
(40_endpoint_register R113). -/
def withStatus (r : Word16) (d : Dir) (target : Stat) : Word16 :=
  withBits r (statusMask d) (transitionBits d target)

/-- The registers after `set_status(e, d, target)` with no bus move in between. -/
def Hw.setTo (h : Hw) (e : Ep) (d : Dir) (target : Stat) : Hw :=
  { h with epr := h.epr.set e (withStatus (h.epr.get e) d target) }

/-! ## Packets -/

/-- The first byte of the receive area of an endpoint (20_memory R51). -/
def Hw.rxBase (h : Hw) (e : Ep) : Nat := unitAddr (h.rxOffset.get e) 0

/-- The first byte of the transmit area of an endpoint (20_memory R51). -/
def Hw.txBase (h : Hw) (e : Ep) : Nat := unitAddr (h.txOffset.get e) 0

/-- The first `n` bytes of the receive area, in wire order (20_memory R54). -/
def Hw.received (h : Hw) (e : Ep) (n : Nat) : List Byte := h.pmaBytes (h.rxBase e) n

/-- How many bytes a `read` of at most `m` bytes takes (41_buffer R130). -/
def Hw.readable (c : Config) (h : Hw) (e : Ep) (m : Nat) : Nat := min m (min (h.rxCount.get e).toNat (c.cap.get e))

/-- `h'` is `h` after the packet `b` was queued on endpoint `e` (41_buffer R131): the bytes stand in the transmit
area, an odd last one in a unit whose high half is 0, every other byte of packet memory reads as before, the count
is stored, the transmit status is VALID, and nothing else has changed. -/
def Hw.queues (e : Ep) (b : List Byte) (h h' : Hw) : Prop :=
  (∀ i : Nat, ∀ x : Byte, b[i]? = some x → h'.pmaByte (h.txBase e + i) = x) ∧
  (b.length % 2 = 1 → h'.pmaByte (h.txBase e + b.length) = 0) ∧
  (∀ a : Nat, (a < h.txBase e ∨ h.txBase e + 2 * ceil2 b.length ≤ a) → h'.pmaByte a = h.pmaByte a) ∧
  h' = { h with
    pma := h'.pma
    txCount := h.txCount.set e (BitVec.ofNat 10 b.length)
    epr := h.epr.set e (withStatus (h.epr.get e) .tx .valid) }

/-- The contents of one of the block's own byte buffers (10_state R31d). -/
def State.buffer (s : State) : Buffer → List Byte
  | .setup => s.ctl.setup
  | .cmdBuf => s.cmdBuf
  | .scratch => s.scratch
  | .lc => s.cls.lc
  | .statusBuf => s.ctl.statusBuf

/-- A state with one of the byte buffers replaced. -/
def State.withBuffer (s : State) (d : Buffer) (b : List Byte) : State :=
  match d with
  | .setup => { s with ctl.setup := b }
  | .cmdBuf => { s with cmdBuf := b }
  | .scratch => { s with scratch := b }
  | .lc => { s with cls.lc := b }
  | .statusBuf => { s with ctl.statusBuf := b }

/-- `b` is `n` bytes of `src` from `off`; where `src` ends early no rule gives the byte (log 18). -/
def Chunk (src : List Byte) (off n : Nat) (b : List Byte) : Prop :=
  b.length = n ∧ ∀ i x, i < n → src[off + i]? = some x → b[i]? = some x

/-! ## How a control request ends -/

/-- `t` follows `u` by `call ACK; ctl_state <- x` (42_control R143): a zero-length packet is queued, and but for
the shared registers nothing else has changed. -/
def Acked (u t : State) (x : CtlState) : Prop :=
  t = { u with hw := t.hw, ctl.ctlState := x } ∧ (u.quiet → Hw.queues .ctrl [] u.hw t.hw)

/-- `t` follows `u` by `call REJECT` (42_control R144): the control receive status is STALL, `ctl_state` is IDLE,
and but for the shared registers nothing else has changed. -/
def Rejected (u t : State) : Prop :=
  t = { u with hw := t.hw, ctl.ctlState := .idle } ∧ (u.quiet → t.hw = u.hw.setTo .ctrl .rx .stall)

/-- `t` follows `u` by `call START_IN(src, natural)` (42_control R145, R146): the length is clamped to `wLength`;
under a device-to-host direction bit the first packet is queued and the rest is kept for later, under the other
the guard logs and queues nothing. -/
def Sends (u t : State) (src : XferSrc) (natural : Word16) : Prop :=
  let total := min natural.toNat u.ctl.wLength.toNat
  let n := min total (packetSize u.cfg)
  if u.ctl.dirIn = true then
    t = { u with
      hw := t.hw
      ctl.xferSrc := src
      ctl.xferOff := BitVec.ofNat 16 n
      ctl.xferRem := BitVec.ofNat 16 (total - n)
      ctl.ctlState := .dataIn } ∧
    (u.quiet → ∃ b, Chunk (sourceBytes u src) 0 n b ∧ Hw.queues .ctrl b u.hw t.hw)
  else
    t = { u with
      ctl.xferSrc := src
      ctl.xferOff := 0
      ctl.xferRem := BitVec.ofNat 16 total
      ctl.ctlState := .idle
      log := u.log ++ [.badDirection] }

/-- The packets that `k` CTRL_INs bring out of the transmit area of endpoint 0 (42_control R176): one for each of
them that finds bytes not yet queued. -/
def State.laterPackets : (k : Nat) → State → List (List Byte)
  | 0, _ => []
  | k + 1, s =>
    if s.ctl.xferRem = 0 then []
    else
      match exec .ctrlIn s with
      | .next t => t.hw.outgoing .ctrl :: State.laterPackets k t
      | .fault _ | .refused _ => []

/-! ## The invariant -/

/-- The shared registers and packet memory: packet memory is in canonical form and lists only bytes that exist
(20_memory R51); the offsets are the parameters (10_state R11); no count exceeds the capacity (R11, R97, R131);
the bits of CNTR that the block does not use hold 0 (R15). -/
structure Hw.Legal (c : Config) (h : Hw) : Prop where
  canonical : h.pma.wf
  inside : ∀ x ∈ h.pma, x.1 < 2 * c.pmaUnits
  txOffsets : h.txOffset = c.txOff
  rxOffsets : h.rxOffset = c.rxOff
  rxCounts : ∀ e, (h.rxCount.get e).toNat ≤ c.cap.get e
  txCounts : ∀ e, (h.txCount.get e).toNat ≤ c.cap.get e
  lowPower : h.cntr &&& 0xFFF3#16 = 0

/-- The control context: the buffers keep their lengths, `xfer_off + xfer_rem` fits 16 bits (46_laws R260), and
SETUP_RECEIVED is held only inside the handling of a SETUP (10_state R19, 42_control R178). -/
structure ControlCtx.Legal (x : ControlCtx) : Prop where
  setupLength : x.setup.length = 8
  statusLength : x.statusBuf.length = 2
  noWrap : x.xferOff.toNat + x.xferRem.toNat < 2 ^ 16
  phase : x.ctlState ≠ .setupReceived

/-- The counters of a session with no page under way. -/
def FlashSession.idlePage (x : FlashSession) : Prop :=
  x.pageOffset = 0 ∧ x.expectedLen = 0 ∧ x.headerAccepted = false

/-- The session (10_state R30 b to d, 46_laws R260): nothing of it is set before the size header; the page index
is below the total while pages are expected and equal to it in DONE; a header is accepted exactly in
RECEIVING_PAGE, where fewer bytes than expected have arrived or both numbers are 0. -/
def FlashSession.Legal (x : FlashSession) : Prop :=
  match x.blState with
  | .waitSizeHeader => x = FlashSession.zero
  | .waitDataHeader => x.idlePage ∧ x.curPage < x.totalPages
  | .receivingPage =>
    x.headerAccepted = true ∧ x.curPage < x.totalPages ∧
      (x.pageOffset.toNat < x.expectedLen.toNat ∨ x.pageOffset = 0 ∧ x.expectedLen = 0)
  | .done => x.idlePage ∧ x.curPage = x.totalPages

/-- Program memory is in canonical form and lists only 32-bit addresses (20_memory R57). -/
structure FlashLegal (m : Memory) : Prop where
  canonical : m.wf
  inside : ∀ x ∈ m, x.1 < 2 ^ 32

/-- The invariant of the machine. -/
structure Inv (s : State) : Prop where
  config : configValid s.cfg = true
  hw : s.hw.Legal s.cfg
  ctl : s.ctl.Legal
  session : s.sess.Legal
  lineCoding : s.cls.lc.length = 7
  scratch : s.scratch.length = scratchSize s.cfg
  cmdBuf : s.cmdBuf.length = 8
  flash : FlashLegal s.flash
  /-- FlashFatal records an odd address (60_exceptions R272). -/
  fatalOdd : ∀ a, s.fatal = some a → oddAddress a = true

/-! ## Safe runs -/

/-- `Reaches s t`: some steps lead from `s` to `t`. -/
inductive Reaches : State → State → Prop where
  | refl (s : State) : Reaches s s
  | step (s t u : State) : Reaches s t → Machine.step t = .next u → Reaches s u

/-- A safe run from `s`: whatever is reached, FlashFatal has not stopped the block and the next step is no
fault. -/
def SafeFrom (s : State) : Prop :=
  ∀ t, Reaches s t → t.fatal = none ∧ ∀ f, Machine.step t ≠ .fault f

end Sys2Proof.Machine
end

