-- ==== Sys2Proof/Certificates/Slice0/Obligations.lean ====
section
/-! DEFINITION. The statements for the provers, in the order of the spec's files. Where a statement speaks of "the
bus side still" it says so by `State.quiet`: no move is scheduled between the block's accesses. -/

open Sys2Proof Sys2Proof.Machine

/-! ## State and memory -/

/-- 10_state R14: `ISTR` as a read returns it. `CTR` is the or of the six completion flags, `EP_ID` the least
endpoint with one, `DIR` its receive flag; both are 0 when no flag is set; bits 14:8 are the stored causes and bits
7:5 read 0. -/
def Obligations.IstrIsAView : Prop :=
  ∀ h : Hw,
    (h.istr.getLsbD 15 = true ↔ ∃ e d, eprFlag (h.epr.get e) d = true) ∧
    (∀ e, (∃ d, eprFlag (h.epr.get e) d = true) → (∀ f : Ep, f.num < e.num → ∀ d, eprFlag (h.epr.get f) d = false) →
      h.istr.extractLsb' 0 4 = BitVec.ofNat 4 e.num ∧ h.istr.getLsbD 4 = eprFlag (h.epr.get e) .rx) ∧
    ((∀ e d, eprFlag (h.epr.get e) d = false) → h.istr.extractLsb' 0 5 = 0) ∧
    h.istr.extractLsb' 8 7 = h.causes ∧
    h.istr.extractLsb' 5 3 = 0

/-- 10_state R32, column "after power-on", 70_reset R301: what a POWERON line leaves under valid parameters. -/
def Obligations.PowerOnState : Prop :=
  ∀ (s : State) (rest : List Line), s.lines = .powerOn :: rest → configValid s.cfg = true →
    ∃ t, step s = .next t ∧ t.cfg = s.cfg ∧ t.lines = rest ∧
      t.hw.epr = ⟨0x3220, 0x3021, 0x0622⟩ ∧ t.hw.causes = 0 ∧ t.hw.cntr = 0 ∧ t.hw.daddr = 0x80 ∧
      t.hw.txOffset = s.cfg.txOff ∧ t.hw.rxOffset = s.cfg.rxOff ∧
      t.hw.txCount = ⟨0, 0, 0⟩ ∧ t.hw.rxCount = ⟨0, 0, 0⟩ ∧
      t.ctl = { setup := [0, 0, 0, 0, 0, 0, 0, 0], configValue := 0, xferSrc := .none, xferOff := 0, xferRem := 0,
                remoteWakeup := false, selfPowered := s.cfg.selfPoweredInit, statusBuf := [0, 0],
                ctlState := .idle } ∧
      t.cls = { lc := s.cfg.lcDefault, dtr := false, rts := false } ∧
      t.dev = { suspended := false, configured := false, addrPending := false, pendingAddr := 0 } ∧
      t.sess = { totalPages := 0, curPage := 0, pageOffset := 0, expectedLen := 0, headerAccepted := false,
                 lastCmd := { id := 0, page := 0, dataLen := 0, crc := 0 }, blState := .waitSizeHeader } ∧
      t.irqEnable = true ∧ t.fatal = none

/-- The machine right after reset is a power-on state (10_state R32) in which no FlashFatal stands; the invariant holds
there. Its parameters are REFCFG, the model's choice (log 7), and that nothing is listed in either memory, whose
contents R32 leaves unspecified, is the model's choice too (log 9). -/
def Obligations.ResetMeetsInvariant : Prop :=
  Inv State.reset ∧ State.reset.hw.pma = [] ∧ State.reset.flash = [] ∧ State.reset.fatal = none

/-- Every step keeps the invariant, from every state that meets it, whatever the bus side does: memories stay
canonical and inside their spaces, offsets and unused CNTR bits stay as they are, counts stay within capacities,
the session counters obey 10_state R30 b to d, and `xfer_off + xfer_rem` never leaves 16 bits (46_laws R260). No step
changes the parameters (00_scope R5). -/
def Obligations.StepKeepsInvariant : Prop :=
  ∀ s t : State, step s = .next t → t.cfg = s.cfg ∧ (Inv s → Inv t)

/-! ## Encoding -/

/-- Decoding the encoding of a well-formed instruction gives the instruction, with every operand at every value;
`Instr.phase` is the phase in which a command record is read (30_encoding R82 to R93, R97), and GET_DESCRIPTOR's
handler row is none a decoder tries (R100). -/
def Obligations.DecodeEncode : Prop :=
  ∀ i : Instr, i.wf = true → i.handlerRow = false → decode i.phase (encode i) = .instr i

/-- No bit of a SETUP packet is dropped: what decodes from a packet encodes to that packet. The same holds of a
command record in a header phase. -/
def Obligations.EncodeDecode : Prop :=
  (∀ (bl : BlState) (p : List Byte) (i : Instr), decode bl (.setup p) = .instr i → encode i = .setup p) ∧
  (∀ (bl : BlState) (p : List Byte) (i : Instr), bl = .waitSizeHeader ∨ bl = .waitDataHeader →
    decode bl (.bulk p) = .instr i → encode i = .bulk p)

/-- The key of 30_encoding R84 decodes every 8-byte packet, and to the operation that classifying by type (42_control
R142) and then by request code and descriptor type (R147, R154, R168) gives. -/
def Obligations.SetupKeyClassifies : Prop :=
  ∀ (bl : BlState) (p : List Byte), p.length = 8 → decode bl (.setup p) = .instr (classify p)

/-- A SETUP packet or, in a header phase, a command record of other than 8 bytes is no instruction (30_encoding R82,
R97); nor is a record whose id the phase does not accept (R89), nor a completion triple of an endpoint above 2 (R92).
A step refuses the packet (93 section 3), and draws the error byte of a record that is wrong in length, CRC or id, the
first of them that is (43_bulk R192, 60_exceptions R277); a record of the right length is in `cmd_buf` by then (R192),
and the report is REPORT_ERROR run by itself (log 2, the model's choice). R92 says only that such a triple cannot arise;
that a step refuses it is the model's choice (log 24). -/
def Obligations.DecodeRejects : Prop :=
  (∀ bl p, p.length ≠ 8 → decode bl (.setup p) = .reject .setupLength) ∧
  (∀ bl p, bl = .waitSizeHeader ∨ bl = .waitDataHeader → p.length ≠ 8 →
    decode bl (.bulk p) = .reject .recordLength) ∧
  (∀ p, p.length = 8 → p[0]? ≠ some 0x20 → decode .waitSizeHeader (.bulk p) = .reject .recordId) ∧
  (∀ p, p.length = 8 → p[0]? ≠ some 0x21 → decode .waitDataHeader (.bulk p) = .reject .recordId) ∧
  (∀ bl (n : BitVec 4) (d su : Bool), 2 < n.toNat →
    decode bl (.event (eventOf n d su)) = .reject .eventEndpoint) ∧
  ∀ (s : State) (rest : List Line),
    (∀ p, s.lines = .op (.setup p) :: rest → p.length ≠ 8 → step s = .refused .setupNotEightBytes) ∧
    (∀ (p : List Byte) (want : Byte), s.lines = .op (.bulk p) :: rest →
      (s.sess.blState = .waitSizeHeader ∧ want = 0x20 ∨ s.sess.blState = .waitDataHeader ∧ want = 0x21) →
      let good : Prop := crc16 s.cfg (p.take 6) = le16 (byteAt p 6) (byteAt p 7)
      (p.length ≠ 8 → step s = exec (.reportError .cmdWrongLength) { s with lines := rest }) ∧
      (p.length = 8 → ¬ good → step s = exec (.reportError .cmdWrongCrc) { s with lines := rest, cmdBuf := p }) ∧
      (p.length = 8 → good → p[0]? ≠ some want →
        step s = exec (.reportError .cmdWrongId) { s with lines := rest, cmdBuf := p })) ∧
    (∀ (n : BitVec 4) (d su : Bool), s.lines = .op (.event (eventOf n d su)) :: rest → 2 < n.toNat →
      step s = .refused (.undecodable .eventEndpoint))

/-- A few words written out from 30_encoding R82 to R92 decode to what they stand for. That the interrupt status word
0x0400, presented by itself, stands for the one row IRQ_RESET is the model's choice (log 5): by R93 every row that
matches runs, IRQ_OTHER always, and an entry does so. -/
def Obligations.WrittenWordsDecode : Prop :=
  decode .done (.setup [0x80, 0x06, 0x00, 0x01, 0x00, 0x00, 0x40, 0x00]) =
    .instr (.getDescriptorDevice ⟨true, 0, 0, 64⟩ 0) ∧
  decode .done (.setup [0x00, 0x05, 0x2A, 0x00, 0x00, 0x00, 0x00, 0x00]) =
    .instr (.setAddress ⟨false, 0, 0, 0⟩ 0x002A) ∧
  decode .done (.setup [0x21, 0x20, 0x00, 0x00, 0x01, 0x00, 0x07, 0x00]) =
    .instr (.setLineCoding ⟨false, 1, 1, 7⟩ 0) ∧
  decode .waitSizeHeader (.bulk [0x20, 0x00, 0x03, 0x00, 0x00, 0x00, 0xC4, 0xA0]) =
    .instr (.cmdSizeHeader 0 3 0 0xA0C4) ∧
  decode .done (.event 0x30) = .instr .ctrlSetup ∧
  decode .done (.event 0x11) = .instr .bulkOut ∧
  decode .done (.cause 0x0400) = .instr .irqReset

/-! ## Steps -/

/-- When the next stimulus line decodes, in the phase the machine is in, to an instruction, the step is that
instruction's `exec` with the line taken; a command record in a header phase must also have a good CRC (43_bulk R192;
DecodeRejects says what another draws). A row is also run by its name: the rows without a bit pattern and the two header
rows, whose record is then already valid, as themselves, and every other as its word. That a step takes one line, that
any operation may stand as one, and what a name stands for, is the model's choice (log 1, log 2, log 3, log 30). -/
def Obligations.StepRunsDecoded : Prop :=
  (∀ (s : State) (c : Code) (rest : List Line) (i : Instr), s.lines = .op c :: rest →
    decode s.sess.blState c = .instr i →
    (∀ p, c = .bulk p → s.sess.blState = .waitSizeHeader ∨ s.sess.blState = .waitDataHeader →
      crc16 s.cfg (p.take 6) = le16 (byteAt p 6) (byteAt p 7)) →
    step s = exec i { s with lines := rest }) ∧
  ∀ (s : State) (i : Instr) (rest : List Line), s.lines = .op (.name i) :: rest →
    (i.named = true ∨ (∃ pad page len crc, i = .cmdSizeHeader pad page len crc ∨ i = .cmdPageHeader pad page len crc) →
      step s = exec i { s with lines := rest }) ∧
    (i.named = false → (∀ pad page len crc, i ≠ .cmdSizeHeader pad page len crc ∧ i ≠ .cmdPageHeader pad page len crc) →
      step s = step { s with lines := .op (encode i) :: rest })

/-- Every instruction completes, whatever the bus side has scheduled: the block's under valid parameters, with the
buffer areas inside packet memory and no FlashFatal standing, the environment's also after one. -/
def Obligations.EveryInstructionCompletes : Prop :=
  ∀ (i : Instr) (s : State), i.fits s.cfg → s.ready → (i.environment = false → s.fatal = none) →
    ∃ t, exec i s = .next t

/-- 60_exceptions R272: once FlashFatal stands, no operation of the block runs and no entry starts; every step but
a power-on keeps it. -/
def Obligations.FlashFatalStops : Prop :=
  ∀ (s : State) (a : Addr32), s.fatal = some a →
    (∀ i : Instr, i.environment = false → i.fits s.cfg → exec i s = .fault (.flashFatal a)) ∧
    (∀ rest, s.lines = .irq :: rest → s.ready → step s = .next { s with lines := rest }) ∧
    (∀ t, step s = .next t → t.fatal = some a ∨ ∃ rest, s.lines = .powerOn :: rest)

/-- 70_reset R304 (1), 93 section 3: parameters that break a constraint of 00_scope R5 are refused, at every operation
and at power-on; a SETUP packet of other than 8 bytes and an OUT packet above the capacity are refused; a READ of
more bytes than its destination holds is refused (log 19, the model's choice). -/
def Obligations.Refused : Prop :=
  ∀ s : State,
    (configValid s.cfg = false →
      (∀ i : Instr, s.fatal = none → i.fits s.cfg → exec i s = .refused .badConfiguration) ∧
      (∀ rest, s.lines = .powerOn :: rest → step s = .refused .badConfiguration)) ∧
    (∀ a b dr dt, b.length ≠ 8 → exec (.busSetup a b dr dt) s = .refused .setupNotEightBytes) ∧
    (∀ a e b tail dr, s.cfg.cap.get e < b.length → exec (.busOut a e b tail dr) s = .refused .outPacketTooLong) ∧
    (∀ e d m, s.quiet → bufferSize s.cfg d < s.hw.readable s.cfg e m → exec (.read e d m) s = .refused .bufferOverrun)

/-! ## Endpoint registers -/

/-- 40_endpoint_register R110: what a register write does to each bit, over the value the register holds at the
instant of the write; nothing else changes. -/
def Obligations.RegisterWrite : Prop :=
  ∀ (s : State) (e : Ep) (v : Word16), s.runnable →
    ∃ r : Word16,
      exec (.eprWrite e v) s = .next { s with
        hw := { s.hw.slot s.cfg with epr := (s.hw.slot s.cfg).epr.set e r } } ∧
      ∀ i : Nat, i < 16 → r.getLsbD i =
        if (0x070F#16).getLsbD i then v.getLsbD i
        else if (0x7070#16).getLsbD i then ((s.hw.slot s.cfg).epr.get e).getLsbD i ^^ v.getLsbD i
        else if (0x8080#16).getLsbD i then ((s.hw.slot s.cfg).epr.get e).getLsbD i && v.getLsbD i
        else ((s.hw.slot s.cfg).epr.get e).getLsbD i

/-- 40_endpoint_register R113: with no bus move between its accesses, `set_status` sets one field and leaves every
other field as it was. -/
def Obligations.SetStatusResult : Prop :=
  ∀ (s : State) (e : Ep) (d : Dir) (target : Stat), s.runnable → s.quiet →
    ∃ r : Word16,
      exec (.setStatus e d target) s = .next { s with hw := { s.hw with epr := s.hw.epr.set e r } } ∧
      eprStat r d = target ∧
      (∀ d', d' ≠ d → eprStat r d' = eprStat (s.hw.epr.get e) d') ∧
      (∀ d', eprToggle r d' = eprToggle (s.hw.epr.get e) d' ∧ eprFlag r d' = eprFlag (s.hw.epr.get e) d') ∧
      eprType r = eprType (s.hw.epr.get e) ∧ eprKind r = eprKind (s.hw.epr.get e) ∧
      eprAddr r = eprAddr (s.hw.epr.get e) ∧ eprSetup r = eprSetup (s.hw.epr.get e)

/-- 40_endpoint_register R111, R112, R114 to R117, 30_encoding R99, under any schedule of the bus side: SET_STATUS is
one read of the register and one write of the word the rule gives; STALL, UNSTALL, MARK_RX_DONE and MARK_TX_READY are
the SET_STATUS calls they expand to, in their order. -/
def Obligations.StatusOperationsExpand : Prop :=
  ∀ (s : State) (e : Ep), s.runnable →
    (∀ (d : Dir) (target : Stat),
      let h := s.hw.slot s.cfg
      let delta : Word16 := match d with
        | .rx => (statCode target).setWidth 16 <<< 12
        | .tx => (statCode target).setWidth 16 <<< 4
      let mask : Word16 := match d with
        | .rx => 0xBF8F
        | .tx => 0x8FBF
      ∃ t, exec (.eprWrite e ((h.epr.get e ^^^ delta) &&& mask)) { s with hw := h } = .next t ∧
        exec (.setStatus e d target) s = .next t) ∧
    (∃ u t, exec (.setStatus e .rx .stall) s = .next u ∧ exec (.setStatus e .tx .stall) u = .next t ∧
      exec (.stall e) s = .next t) ∧
    (∃ u t, exec (.setStatus e .rx .valid) s = .next u ∧ exec (.setStatus e .tx .nak) u = .next t ∧
      exec (.unstall e) s = .next t) ∧
    (∃ t, exec (.setStatus e .rx .valid) s = .next t ∧ exec (.markRxDone e) s = .next t) ∧
    (∃ t, exec (.setStatus e .tx .valid) s = .next t ∧ exec (.markTxReady e) s = .next t)

/-- 40_endpoint_register R118: `clear_ctr` is one read and one write; with no bus move in between it clears the flag
of its direction, or both under `CTR_CLEAR_BOTH`, and changes no other bit. -/
def Obligations.ClearCompletion : Prop :=
  ∀ (s : State) (e : Ep) (d : Dir), s.runnable →
    (let current := (s.hw.slot s.cfg).epr.get e
     let flag : Word16 := match d with
       | .rx => 0x8000
       | .tx => 0x0080
     let written := if s.cfg.ctrClearBoth then current &&& 0x0F0F#16 else current &&& 0x8F8F#16 &&& ~~~flag
     exec (.clearCtr e d) s = exec (.eprWrite e written) { s with hw := s.hw.slot s.cfg }) ∧
    (s.quiet → ∃ r : Word16,
      exec (.clearCtr e d) s = .next { s with hw := { s.hw with epr := s.hw.epr.set e r } } ∧
      eprFlag r d = false ∧
      (∀ d', d' ≠ d → eprFlag r d' = (eprFlag (s.hw.epr.get e) d' && !s.cfg.ctrClearBoth)) ∧
      ∀ i : Nat, i ≠ 15 → i ≠ 7 → r.getLsbD i = (s.hw.epr.get e).getLsbD i)

/-- 40_endpoint_register R120: `ep_configure` brings every field but SETUP to a known value. -/
def Obligations.EndpointConfigured : Prop :=
  ∀ (s : State) (e : Ep) (type : EpType) (addr : BitVec 4) (rx tx : Stat), s.runnable →
    (let current := (s.hw.slot s.cfg).epr.get e
     let want : Word16 := ((statCode rx).setWidth 16 <<< 12) ||| ((statCode tx).setWidth 16 <<< 4)
     exec (.epConfigure e type addr rx tx) s =
       exec (.eprWrite e (((epTypeCode type).setWidth 16 <<< 9) ||| addr.setWidth 16 |||
         ((current ^^^ want) &&& 0x7070#16))) { s with hw := s.hw.slot s.cfg }) ∧
    (s.quiet → ∃ r : Word16,
      exec (.epConfigure e type addr rx tx) s = .next { s with hw := { s.hw with epr := s.hw.epr.set e r } } ∧
      eprType r = epTypeCode type ∧ eprKind r = false ∧ eprAddr r = addr ∧
      eprStat r .rx = rx ∧ eprStat r .tx = tx ∧
      (∀ d, eprToggle r d = false ∧ eprFlag r d = false) ∧ eprSetup r = eprSetup (s.hw.epr.get e))

/-- 40_endpoint_register R119 (a), (b): the register write of a `set_status`, issued twice, brings the machine back
to where it was; a second SET_STATUS of the same target changes nothing. -/
def Obligations.RepeatedWrites : Prop :=
  ∀ (s : State) (e : Ep) (d : Dir) (target : Stat), s.runnable → s.quiet →
    (∃ u, exec (.eprWrite e (setStatusWord d target (s.hw.epr.get e))) s = .next u ∧
      exec (.eprWrite e (setStatusWord d target (s.hw.epr.get e))) u = .next s) ∧
    (∃ u, exec (.setStatus e d target) s = .next u ∧ exec (.setStatus e d target) u = .next u)

/-- 70_reset R306 (a), R319: an IN transaction that completes between the read and the write of a SET_STATUS on the
receive direction loses its completion flag, and its NAK stands; a SUSPEND cause set between the snapshot and the
clearing write of an entry is cleared unseen. -/
def Obligations.InterleavingHazards : Prop :=
  (∀ (s : State) (e : Ep) (target : Stat) (dt : Bool) (rest : List (List BusMove)), s.runnable →
    s.hw.between = [] :: [.take none e dt] :: rest → daddrEf s.hw.daddr = true →
    eprStat (s.hw.epr.get e) .tx = .valid → eprFlag (s.hw.epr.get e) .tx = false →
    ∃ t, exec (.setStatus e .rx target) s = .next t ∧
      eprFlag (t.hw.epr.get e) .tx = false ∧ eprStat (t.hw.epr.get e) .tx = .nak ∧
      eprStat (t.hw.epr.get e) .rx = target ∧
      t.hw.replies = s.hw.replies ++ [.bytes (daddrAdd s.hw.daddr) (s.hw.outgoing e)]) ∧
  (∀ (s : State) (rest : List Line), s.runnable → s.irqEnable = true → s.lines = .irq :: rest →
    s.hw.between = [[], [.cause .susp]] → s.hw.istr &&& 0x1C00 = 0 → s.hw.causes ≠ 0 →
    s.hw.istr.getLsbD 15 = false →
    ∃ t, step s = .next t ∧ t.hw.causes = 0 ∧ t.dev = s.dev ∧ t.hw.cntr = s.hw.cntr)

/-! ## Buffer transfers -/

/-- 41_buffer R130, the bus side still: READ brings the first `n = min(max_count, rx_count, CAP)` received bytes in
wire order, leaves the rest of the destination, re-arms the control endpoint alone, and changes nothing else. It
leaves `n` in `result` (log 23). -/
def Obligations.ReadResult : Prop :=
  ∀ (s : State) (e : Ep) (dest : Buffer) (m : Nat), s.runnable → s.quiet →
    let n := min m (min (s.hw.rxCount.get e).toNat (s.cfg.cap.get e))
    n ≤ bufferSize s.cfg dest →
    ∃ b : List Byte,
      exec (.read e dest m) s = .next (State.withBuffer { s with
        hw := if e = .ctrl then s.hw.setTo .ctrl .rx .valid else s.hw
        result := n } dest b) ∧
      (∀ i, i < n → b[i]? = some (s.hw.pmaByte (s.hw.rxBase e + i))) ∧
      (∀ i, n ≤ i → b[i]? = (s.buffer dest)[i]?)

/-- 41_buffer R131, the bus side still: WRITE queues the first `q = min(count, CAP)` bytes of its buffer, whatever the
status was (a byte the buffer does not hold is a free value, log 18), and leaves `q` in `result` (log 23); every byte of packet memory outside the units it writes reads as before. -/
def Obligations.WriteResult : Prop :=
  ∀ (s : State) (e : Ep) (src : List Byte) (count : Nat), s.runnable → s.quiet →
    let q := min count (s.cfg.cap.get e)
    ∃ t b, exec (.write e src count) s = .next t ∧ t = { s with hw := t.hw, result := q } ∧
      Chunk src 0 q b ∧ Hw.queues e b s.hw t.hw

/-- 41_buffer R132: if the units a WRITE produced stand in the receive area with their count, a READ returns the
bytes written, odd lengths included; beyond the capacity it returns that prefix. -/
def Obligations.RoundTrip : Prop :=
  ∀ (s t u : State) (e f : Ep) (src : List Byte) (n : Nat) (dest : Buffer) (m : Nat),
    s.runnable → s.quiet → exec (.write e src n) s = .next t →
    let q := min n (s.cfg.cap.get e)
    q ≤ src.length → u.runnable → u.quiet → q ≤ u.cfg.cap.get f → (u.hw.rxCount.get f).toNat = q → q ≤ m → q ≤ bufferSize u.cfg dest →
    (∀ i, i < ceil2 q → u.hw.pmaUnit (u.hw.rxBase f + 2 * i) = t.hw.pmaUnit (t.hw.txBase e + 2 * i)) →
    ∃ w, exec (.read f dest m) u = .next w ∧ w.result = q ∧ (w.buffer dest).take q = src.take q

/-! ## Control transfers -/

/-- A SETUP-format instruction presented by itself brings its packet along: it does what it does where the packet
already stands in `setup[0..7]`, as CTRL_SETUP's READ leaves it (42_control R141). The model's choice, log 2. The same
holds of a header record and `cmd_buf` (43_bulk R192). -/
def Obligations.PacketIsCaptured : Prop :=
  ∀ (i : Instr) (s : State) (p : List Byte),
    (encode i = .setup p → exec i s = exec i { s with ctl.setup := p }) ∧
    ((∃ pad page len crc, i = .cmdSizeHeader pad page len crc ∨ i = .cmdPageHeader pad page len crc) →
      encode i = .bulk p → exec i s = exec i { s with cmdBuf := p })

/-- 42_control R141: CTRL_SETUP reads 8 bytes of endpoint 0 into `setup` and runs the operation they select, under
any schedule of the bus side. -/
def Obligations.SetupEventDispatches : Prop :=
  ∀ (s u : State) (bl : BlState) (i : Instr), s.runnable → exec (.read .ctrl .setup 8) s = .next u →
    decode bl (.setup u.ctl.setup) = .instr i →
    exec .ctrlSetup s = exec i { u with result := s.result } ∧ ∃ t, exec .ctrlSetup s = .next t

/-- 42_control R143, R144, 60_exceptions R270: ACK queues a zero-length packet, REJECT stalls the control receive
direction alone and goes to IDLE. -/
def Obligations.AckAndReject : Prop :=
  ∀ s : State, s.runnable →
    (∃ t, exec .ack s = .next t ∧ Acked s t s.ctl.ctlState) ∧
    (∃ t, exec .reject s = .next t ∧ Rejected s t) ∧
    (∃ u, exec (.write .ctrl [] 0) s = .next u ∧ exec .ack s = .next { u with result := s.result }) ∧
    (∃ u, exec (.setStatus .ctrl .rx .stall) s = .next u ∧
      exec .reject s = .next { u with ctl.ctlState := .idle })

/-- 42_control R145: START_IN, for every source and length. The bytes of each source are those of the rule's
table. -/
def Obligations.StartIn : Prop :=
  ∀ (s : State) (src : XferSrc) (natural : Word16), s.runnable →
    (∃ t, exec (.startIn src natural) s = .next t ∧ Sends s t src natural) ∧
    sourceBytes s .dev = s.cfg.devDesc ∧ sourceBytes s .cfg = s.cfg.cfgDesc ∧
    (∀ i d, s.cfg.strDesc[i]? = some d → sourceBytes s (.str i) = d) ∧
    sourceBytes s .lc = s.cls.lc ∧ sourceBytes s .status = s.ctl.statusBuf ∧
    sourceBytes s .config = [s.ctl.configValue] ∧ sourceBytes s .zero = [0]

/-- 42_control R146: under a host-to-device direction bit TRANSMIT_SETUP_PACKET logs and queues nothing; under the
other it queues the next `min(xfer_rem, packet_size)` bytes and moves the pointer. It leaves in `result` whether a
packet was queued (log 23). -/
def Obligations.TransmitSetupPacket : Prop :=
  ∀ s : State, s.runnable →
    (s.ctl.dirIn = false →
      exec .transmitSetupPacket s = .next { s with log := s.log ++ [.badDirection], result := 0 }) ∧
    (s.ctl.dirIn = true →
      let n := min s.ctl.xferRem.toNat (packetSize s.cfg)
      ∃ t, exec .transmitSetupPacket s = .next t ∧
        t = { s with
          hw := t.hw
          ctl.xferOff := s.ctl.xferOff + BitVec.ofNat 16 n
          ctl.xferRem := s.ctl.xferRem - BitVec.ofNat 16 n
          result := 1 } ∧
        (s.quiet → ∃ b, Chunk (sourceBytes s s.ctl.xferSrc) s.ctl.xferOff.toNat n b ∧
          Hw.queues .ctrl b s.hw t.hw))

/-- 42_control R179 (a), R180: the packets of one IN data stage, the bus side still: `floor(total / packet_size)` full
ones, then one with the remainder, or a single empty one where `total` is 0, and no terminating empty one; together
they are the first `total = min(natural, wLength)` bytes of the source. -/
def Obligations.DataStageIsClamped : Prop :=
  ∀ (s t : State) (src : XferSrc) (natural : Word16) (k : Nat), s.runnable → s.quiet → s.ctl.dirIn = true →
    exec (.startIn src natural) s = .next t →
    let total := min natural.toNat s.ctl.wLength.toNat
    let size := packetSize s.cfg
    total ≤ (sourceBytes s src).length → total ≤ k →
    let packets := t.hw.outgoing .ctrl :: t.laterPackets k
    packets.flatten = (sourceBytes s src).take total ∧
    packets.map List.length = List.replicate (total / size) size ++
      (if total % size = 0 ∧ total ≠ 0 then [] else [total % size])

/-- 42_control R148, 30_encoding R94: GET_STATUS, for every recipient and endpoint. -/
def Obligations.GetStatus : Prop :=
  ∀ (s : State) (a : SetupArgs) (v : Word16), s.runnable → s.ctl.setup = packetOfValue a 0 0 v →
    let ep := (a.wIndex.extractLsb' 0 4).toNat
    ∃ t, exec (.getStatus a v) s = .next t ∧
      (a.rcp = 0 → Sends { s with ctl.statusBuf :=
        [BitVec.ofNat 8 (s.ctl.selfPowered.toNat + 2 * s.ctl.remoteWakeup.toNat), 0] } t .status 2) ∧
      (a.rcp = 1 → Sends { s with ctl.statusBuf := [0, 0] } t .status 2) ∧
      (∀ e : Ep, a.rcp = 2 → ep = e.num →
        let d : Dir := if a.wIndex.getLsbD 7 then .tx else .rx
        Sends { s with
          hw := s.hw.slot s.cfg
          ctl.statusBuf := [if eprStat ((s.hw.slot s.cfg).epr.get e) d = .stall then 1 else 0, 0] } t .status 2) ∧
      (2 < a.rcp.toNat ∨ (a.rcp = 2 ∧ 2 < ep) → Rejected s t)

/-- 42_control R149, R151: CLEAR_FEATURE and SET_FEATURE, for every recipient, selector and endpoint. -/
def Obligations.Features : Prop :=
  ∀ (s : State) (a : SetupArgs) (v : Word16) (on : Bool), s.runnable →
    let i : Instr := if on then .setFeature a v else .clearFeature a v
    let ep := (a.wIndex.extractLsb' 0 4).toNat
    s.ctl.setup = packetOfValue a 0 (if on then 3 else 1) v →
    ∃ t, exec i s = .next t ∧
      (a.rcp = 0 ∧ v = 1 → Acked { s with ctl.remoteWakeup := on } t .status) ∧
      (∀ e : Ep, a.rcp = 2 ∧ v = 0 ∧ ep = e.num →
        ∃ u, exec (if on then .stall e else .unstall e) s = .next u ∧ Acked u t .status) ∧
      (¬(a.rcp = 0 ∧ v = 1) → ¬(a.rcp = 2 ∧ v = 0 ∧ ep < 3) → Rejected s t)

/-- 42_control R153: SET_ADDRESS stores `wValue[6:0]`, sets the pending flag and acknowledges; DADDR is not written
(the bus side still). -/
def Obligations.SetAddressDefers : Prop :=
  ∀ (s : State) (a : SetupArgs) (v : Word16), s.runnable → s.ctl.setup = packetOfValue a 0 5 v →
    ∃ t, exec (.setAddress a v) s = .next t ∧
      Acked { s with dev.pendingAddr := v.extractLsb' 0 7, dev.addrPending := true } t .status ∧
      (s.quiet → t.hw.daddr = s.hw.daddr)

/-- 42_control R154 to R157, 30_encoding R86: GET_DESCRIPTOR and the cases that send; a string index out of range is
rejected. -/
def Obligations.GetDescriptorSends : Prop :=
  ∀ (s : State) (a : SetupArgs) (type index : Byte), s.runnable → s.ctl.setup = packetOf a 0 6 index type →
    (∃ t, exec (.getDescriptor a type index) s = .next t ∧
      (type = 1 → exec (.getDescriptorDevice a index) s = .next t) ∧
      (type = 2 → exec (.getDescriptorConfiguration a index) s = .next t) ∧
      (type = 3 → exec (.getDescriptorString a index) s = .next t) ∧
      (type = 6 → exec (.getDescriptorDeviceQualifier a index) s = .next t) ∧
      (type ≠ 1 → type ≠ 2 → type ≠ 3 → type ≠ 6 → exec (.getDescriptorOther a type index) s = .next t)) ∧
    (type = 1 → ∃ t, exec (.getDescriptorDevice a index) s = .next t ∧
      ∀ n, s.cfg.devDesc[0]? = some n → Sends s t .dev (n.setWidth 16)) ∧
    (type = 2 → ∃ t, exec (.getDescriptorConfiguration a index) s = .next t ∧
      ∀ lo hi, s.cfg.cfgDesc[2]? = some lo → s.cfg.cfgDesc[3]? = some hi → Sends s t .cfg (le16 lo hi)) ∧
    (type = 3 → ∃ t, exec (.getDescriptorString a index) s = .next t ∧
      (∀ d n, s.cfg.strDesc[index.toNat]? = some d → d[0]? = some n →
        Sends s t (.str index.toNat) (n.setWidth 16)) ∧
      (s.cfg.strDesc.length ≤ index.toNat → Rejected s t))

/-- 42_control R150, R152, R158, R159, R161, R166, R167, R174, R175: the requests that are always rejected. -/
def Obligations.NullRequestsReject : Prop :=
  ∀ (s : State) (a : SetupArgs) (v : Word16) (r type index : Byte), s.runnable →
    (s.ctl.setup = packetOfValue a 0 2 v → ∃ t, exec (.stdReserved2 a v) s = .next t ∧ Rejected s t) ∧
    (s.ctl.setup = packetOfValue a 0 4 v → ∃ t, exec (.stdReserved4 a v) s = .next t ∧ Rejected s t) ∧
    (s.ctl.setup = packetOfValue a 0 7 v → ∃ t, exec (.setDescriptor a v) s = .next t ∧ Rejected s t) ∧
    (s.ctl.setup = packetOfValue a 0 12 v → ∃ t, exec (.synchFrame a v) s = .next t ∧ Rejected s t) ∧
    (s.ctl.setup = packetOfValue a 0 r v → ∃ t, exec (.stdUnmapped a r v) s = .next t ∧ Rejected s t) ∧
    (s.ctl.setup = packetOf a 0 6 index 6 →
      ∃ t, exec (.getDescriptorDeviceQualifier a index) s = .next t ∧ Rejected s t) ∧
    (s.ctl.setup = packetOf a 0 6 index type →
      ∃ t, exec (.getDescriptorOther a type index) s = .next t ∧ Rejected s t) ∧
    (s.ctl.setup = packetOfValue a 2 r v → ∃ t, exec (.vendor a r v) s = .next t ∧ Rejected s t) ∧
    (s.ctl.setup = packetOfValue a 3 r v → ∃ t, exec (.typeReserved a r v) s = .next t ∧ Rejected s t)

/-- 42_control R162 to R165: configuration and interface requests. A nonzero configuration value re-initializes the
class state and withdraws a pending address, 0 clears the configured flag alone; endpoint registers are not touched
but for the acknowledgement. -/
def Obligations.ConfigurationRequests : Prop :=
  ∀ (s : State) (a : SetupArgs) (v : Word16), s.runnable →
    (s.ctl.setup = packetOfValue a 0 9 v →
      ∃ t, exec (.setConfiguration a v) s = .next t ∧
        (v.extractLsb' 0 8 = 0 →
          Acked { s with ctl.configValue := 0, dev.configured := false } t .status) ∧
        (v.extractLsb' 0 8 ≠ 0 →
          Acked { s with
            ctl.configValue := v.extractLsb' 0 8
            cls := { lc := s.cfg.lcDefault, dtr := false, rts := false }
            dev.addrPending := false
            dev.configured := true } t .status)) ∧
    (s.ctl.setup = packetOfValue a 0 8 v →
      ∃ t, exec (.getConfiguration a v) s = .next t ∧ Sends s t .config 1) ∧
    (s.ctl.setup = packetOfValue a 0 10 v → ∃ t, exec (.getInterface a v) s = .next t ∧ Sends s t .zero 1) ∧
    (s.ctl.setup = packetOfValue a 0 11 v → ∃ t, exec (.setInterface a v) s = .next t ∧ Acked s t .status)

/-- 42_control R169 to R173: the class requests. -/
def Obligations.ClassRequests : Prop :=
  ∀ (s : State) (a : SetupArgs) (v : Word16) (r : Byte), s.runnable →
    let next : CtlState := if a.wLength = 0 then .status else .dataOut
    (s.ctl.setup = packetOfValue a 1 0x20 v → ∃ t, exec (.setLineCoding a v) s = .next t ∧ Acked s t next) ∧
    (s.ctl.setup = packetOfValue a 1 0x21 v → ∃ t, exec (.getLineCoding a v) s = .next t ∧ Sends s t .lc 7) ∧
    (s.ctl.setup = packetOfValue a 1 0x22 v → ∃ t, exec (.setControlLineState a v) s = .next t ∧ Acked s t next) ∧
    (s.ctl.setup = packetOfValue a 1 0x23 v → ∃ t, exec (.sendBreak a v) s = .next t ∧ Acked s t next) ∧
    (s.ctl.setup = packetOfValue a 1 r v → ∃ t, exec (.classOther a r v) s = .next t ∧
      Acked { s with log := s.log ++ [.unknownClassReq] } t .status)

/-- 42_control R176, R178: CTRL_IN sends the next chunk where bytes are left, by TRANSMIT_SETUP_PACKET, and otherwise
changes the phase register alone. -/
def Obligations.ControlIn : Prop :=
  ∀ s : State, s.runnable →
    let after : CtlState := match s.ctl.ctlState with
      | .dataIn => .status
      | .status => .idle
      | x => x
    (s.ctl.xferRem = 0 → exec .ctrlIn s = .next { s with ctl.ctlState := after }) ∧
    (s.ctl.xferRem ≠ 0 → ∃ u, exec .transmitSetupPacket s = .next u ∧
      exec .ctrlIn s = .next { u with
        result := s.result
        ctl.ctlState := if u.result = 1 then .dataIn else after })

/-- 42_control R177, R178: CTRL_OUT takes the LineCoding record, or DTR and RTS from the captured packet, or nothing,
and re-arms reception once on every path. -/
def Obligations.ControlOut : Prop :=
  ∀ s : State, s.runnable →
    let next : CtlState := if s.ctl.ctlState = .dataOut then .status else .idle
    let cls : Bool := (byteAt s.ctl.setup 0).extractLsb' 5 2 = 1
    let code : Byte := byteAt s.ctl.setup 1
    let vh : Byte := byteAt s.ctl.setup 3
    (cls ∧ code = 0x20 → ∃ u, exec (.read .ctrl .lc 7) s = .next u ∧
      exec .ctrlOut s = .next { u with result := s.result, ctl.ctlState := next }) ∧
    (cls ∧ code = 0x22 → ∃ u, exec (.markRxDone .ctrl) { s with
        cls.dtr := vh.getLsbD 0, cls.rts := vh.getLsbD 1 } = .next u ∧
      exec .ctrlOut s = .next { u with ctl.ctlState := next }) ∧
    (¬(cls ∧ code = 0x20) → ¬(cls ∧ code = 0x22) → ∃ u, exec (.markRxDone .ctrl) s = .next u ∧
      exec .ctrlOut s = .next { u with ctl.ctlState := next })

/-! ## The bulk protocol -/

/-- 43_bulk R192: VALIDATE_CMD tests length, then CRC, then id; a wrong length leaves `cmd_buf` alone; the session is
not touched. It leaves the code in `result` (log 23). -/
def Obligations.ValidateCommand : Prop :=
  ∀ (s : State) (want : Byte), s.runnable →
    let u : State := { s with hw := s.hw.slot s.cfg }
    ((u.hw.rxCount.get .data).toNat ≠ 8 → exec (.validateCmd want) s = .next { u with result := 1 }) ∧
    ((u.hw.rxCount.get .data).toNat = 8 →
      ∃ w, exec (.read .data .cmdBuf 8) u = .next w ∧
        let good := crc16 s.cfg (w.cmdBuf.take 6) = le16 (byteAt w.cmdBuf 6) (byteAt w.cmdBuf 7)
        (¬good → exec (.validateCmd want) s = .next { w with result := 2 }) ∧
        (good → byteAt w.cmdBuf 0 ≠ want → exec (.validateCmd want) s = .next { w with result := 3 }) ∧
        (good → byteAt w.cmdBuf 0 = want → exec (.validateCmd want) s = .next { w with result := 0 }) ∧
        w.sess = s.sess)

/-- 43_bulk R193: a size header sets the total page count, is echoed, and goes to DONE or WAIT_DATA_HEADER. -/
def Obligations.SizeHeader : Prop :=
  ∀ (s : State) (pad : Byte) (page len crc : Word16), s.runnable → s.cmdBuf = recordOf 0x20 pad page len crc →
    ∃ t, exec (.cmdSizeHeader pad page len crc) s = .next t ∧
      t = { s with
        hw := t.hw
        sess.lastCmd := { id := 0x20, page := page, dataLen := len, crc := crc }
        sess.totalPages := page
        sess.blState := if s.sess.curPage = page then .done else .waitDataHeader } ∧
      (s.quiet → Hw.queues .data s.cmdBuf s.hw t.hw)

/-- 43_bulk R194, R203, 45_collaborators R250: a page header sets the expected length, erases the page at
`page_base(cur_page)` and no other byte, and is answered as `ACK_DATA_HEADER` says. That an erase which passes the top
of the address space goes on at 0 is the model's inference (log 17). -/
def Obligations.PageHeader : Prop :=
  ∀ (s : State) (pad : Byte) (page len crc : Word16), s.runnable → s.cmdBuf = recordOf 0x21 pad page len crc →
    let base : Addr32 := BitVec.ofNat 32 (s.cfg.flashBase.toNat + s.sess.curPage.toNat * s.cfg.pageSize)
    ∃ t, exec (.cmdPageHeader pad page len crc) s = .next t ∧
      t = { s with
        hw := t.hw
        flash := t.flash
        sess.lastCmd := { id := 0x21, page := page, dataLen := len, crc := crc }
        sess.expectedLen := len
        sess.pageOffset := 0
        sess.headerAccepted := true
        sess.blState := .receivingPage } ∧
      (∀ x : Addr32, t.flash.read? x.toNat =
        if (x - base).toNat < s.cfg.pageSize then some 0xFF else s.flash.read? x.toNat) ∧
      (s.cfg.ackDataHeader = .none → t.hw = s.hw) ∧
      (s.cfg.ackDataHeader = .echo → s.quiet → Hw.queues .data s.cmdBuf s.hw t.hw) ∧
      (s.cfg.ackDataHeader = .noError → s.quiet → Hw.queues .data [0] s.hw t.hw)

/-- 43_bulk R195, R196, 60_exceptions R272, the bus side still: page data fills `scratch`, is written in whole units at
`page_base(cur_page) + page_offset`, advances the offset and completes the page when the expected length is reached; an
odd address is fatal and leaves the session and program memory alone. That a write which passes the top of the address
space goes on at 0 is the model's inference (log 17). -/
def Obligations.PageData : Prop :=
  ∀ s : State, s.runnable → s.quiet → s.scratch.length = scratchSize s.cfg →
    let n := min (s.hw.rxCount.get .data).toNat (s.cfg.cap.get .data)
    let a : Addr32 := BitVec.ofNat 32
      (s.cfg.flashBase.toNat + s.sess.curPage.toNat * s.cfg.pageSize + s.sess.pageOffset.toNat)
    let offset : BitVec 32 := s.sess.pageOffset + BitVec.ofNat 32 n
    ∃ t, exec .pageData s = .next t ∧
      (∀ i, i < n → t.scratch[i]? = some (s.hw.pmaByte (s.hw.rxBase .data + i))) ∧
      (∀ i, n ≤ i → t.scratch[i]? = s.scratch[i]?) ∧
      (a.toNat % 2 = 1 → t = { s with scratch := t.scratch, fatal := some a }) ∧
      (a.toNat % 2 = 0 →
        (∀ x : Addr32, t.flash.read? x.toNat =
          if (x - a).toNat < 2 * ceil2 n then t.scratch[(x - a).toNat]? else s.flash.read? x.toNat) ∧
        (offset.toNat < s.sess.expectedLen.toNat →
          t = { s with scratch := t.scratch, flash := t.flash, sess.pageOffset := offset }) ∧
        (s.sess.expectedLen.toNat ≤ offset.toNat →
          t = { s with
            scratch := t.scratch
            flash := t.flash
            sess.curPage := s.sess.curPage + 1
            sess.pageOffset := 0
            sess.expectedLen := 0
            sess.headerAccepted := false
            sess.blState := if s.sess.curPage + 1 = s.sess.totalPages then .done else .waitDataHeader }))

/-- 43_bulk R191, R200: a bulk OUT packet is handled in the phase it arrives in, once, and reception is re-armed last
on every path but that of a FlashFatal. -/
def Obligations.BulkOut : Prop :=
  ∀ s : State, s.runnable → s.cmdBuf.length = 8 →
    (∀ want : Byte, (s.sess.blState = .waitSizeHeader ∧ want = 0x20 ∨ s.sess.blState = .waitDataHeader ∧ want = 0x21) →
      ∃ u, exec (.validateCmd want) s = .next u ∧
        (u.result = 0 → ∃ i v, decode s.sess.blState (.bulk u.cmdBuf) = .instr i ∧
          exec i { u with result := s.result } = .next v ∧ exec .bulkOut s = exec (.markRxDone .data) v) ∧
        (∀ code : ErrCode, code ≠ .noError → u.result = (errByte code).toNat →
          ∃ v, exec (.reportError code) { u with result := s.result } = .next v ∧
            exec .bulkOut s = exec (.markRxDone .data) v)) ∧
    (s.sess.blState = .receivingPage → ∃ v, exec .pageData s = .next v ∧
      exec .bulkOut s = if v.fatal = none then exec (.markRxDone .data) v else .next v) ∧
    (s.sess.blState = .done → exec .bulkOut s = exec (.markRxDone .data) s)

/-- 43_bulk R198, R199, 60_exceptions R271: REPORT_ERROR queues the one byte of its code and ECHO the eight bytes of
`cmd_buf` on bulk IN; neither changes the session or `bl_state`. -/
def Obligations.ReportAndEcho : Prop :=
  ∀ s : State, s.runnable → s.cmdBuf.length = 8 →
    (∀ code : ErrCode, ∃ t, exec (.reportError code) s = .next t ∧ t = { s with hw := t.hw } ∧
      (s.quiet → Hw.queues .data
        [match code with
          | .noError => 0
          | .cmdWrongLength => 1
          | .cmdWrongCrc => 2
          | .cmdWrongId => 3] s.hw t.hw)) ∧
    (∃ t, exec .echo s = .next t ∧ t = { s with hw := t.hw } ∧ (s.quiet → Hw.queues .data s.cmdBuf s.hw t.hw))

/-- 43_bulk R202, R204 (b), (e), 60_exceptions R271, the bus side still: a bad packet in a header phase draws one byte
on bulk IN, re-arms reception, and changes nothing of the session. -/
def Obligations.BadHeaderKeepsSession : Prop :=
  ∀ (s : State) (want : Byte), s.runnable → s.quiet → s.cmdBuf.length = 8 →
    (s.sess.blState = .waitSizeHeader ∧ want = 0x20 ∨ s.sess.blState = .waitDataHeader ∧ want = 0x21) →
    let rec8 := s.hw.received .data 8
    let good := crc16 s.cfg (rec8.take 6) = le16 (byteAt rec8 6) (byteAt rec8 7)
    let len := (s.hw.rxCount.get .data).toNat
    ∀ code : Byte, (code = 1 ∧ len ≠ 8 ∨ code = 2 ∧ len = 8 ∧ ¬good ∨ code = 3 ∧ len = 8 ∧ good ∧ byteAt rec8 0 ≠ want) →
      ∃ t, exec .bulkOut s = .next t ∧ t.sess = s.sess ∧ t.flash = s.flash ∧ t.ctl = s.ctl ∧ t.dev = s.dev ∧
        t.hw.outgoing .data = [code] ∧ eprStat (t.hw.epr.get .data) .tx = .valid ∧
        eprStat (t.hw.epr.get .data) .rx = .valid ∧ t.hw.epr.get .ctrl = s.hw.epr.get .ctrl ∧
        t.hw.epr.get .comm = s.hw.epr.get .comm

/-- 43_bulk R197, R201, 44_dispatcher R230, R231: the events that change nothing. -/
def Obligations.EventsWithoutEffect : Prop :=
  ∀ s : State, s.runnable →
    exec .doneDiscard s = .next s ∧ exec .bulkIn s = .next s ∧ exec .commOut s = .next s ∧ exec .commIn s = .next s

/-! ## The dispatcher -/

/-- 44_dispatcher R222 to R224: RESUME and SUSPEND write `suspended` and the two CNTR bits and no other, and with the
bus side still change nothing else; IRQ_OTHER clears the seven stored causes, as they stand at the instant of its one
register write. -/
def Obligations.CauseRules : Prop :=
  ∀ s : State, s.runnable →
    (∀ on : Bool, ∃ t, exec (if on then .irqSuspend else .irqResume) s = .next t ∧
      t = { s with hw := t.hw, dev.suspended := on } ∧
      cntrFsusp t.hw.cntr = on ∧ cntrLpMode t.hw.cntr = on ∧
      (∀ i, i ≠ 2 → i ≠ 3 → t.hw.cntr.getLsbD i = s.hw.cntr.getLsbD i) ∧
      (s.quiet → t.hw = { s.hw with cntr := t.hw.cntr })) ∧
    exec .irqOther s = .next { s with hw := { s.hw.slot s.cfg with causes := 0 } }

/-- 44_dispatcher R225, R233: the bus-reset handler, the bus side still. Packet memory, line coding, DTR, RTS, suspend
state, CNTR, interrupt enable, `scratch`, `cmd_buf` and program memory stay. -/
def Obligations.ResetHandler : Prop :=
  ∀ s : State, s.runnable →
    ∃ t, exec .irqReset s = .next t ∧
      t = { s with
        hw := t.hw
        ctl := { setup := [0, 0, 0, 0, 0, 0, 0, 0], configValue := 0, xferSrc := .none, xferOff := 0, xferRem := 0,
                 remoteWakeup := false, selfPowered := s.cfg.selfPoweredInit, statusBuf := [0, 0], ctlState := .idle }
        dev := { suspended := s.dev.suspended, configured := false, addrPending := false, pendingAddr := 0 }
        sess := { totalPages := 0, curPage := 0, pageOffset := 0, expectedLen := 0, headerAccepted := false,
                  lastCmd := { id := 0, page := 0, dataLen := 0, crc := 0 }, blState := .waitSizeHeader } } ∧
      (s.quiet → t.hw = { s.hw with
        txOffset := s.cfg.txOff
        rxOffset := s.cfg.rxOff
        txCount := ⟨0, 0, 0⟩
        rxCount := ⟨0, 0, 0⟩
        epr := ⟨0x3220 ||| (s.hw.epr.ctrl &&& 0x0800), 0x3021 ||| (s.hw.epr.data &&& 0x0800),
          0x0622 ||| (s.hw.epr.comm &&& 0x0800)⟩
        daddr := 0x80 })

/-- 70_reset R302, 10_state R32, column "after bus reset": from any state in which the interrupt is enabled, the bus
side still, BUS_RESET followed by the entry leaves that column; in between the registers are cleared and the device
answers nothing, afterwards it answers at address 0. A RESUME or SUSPEND also pending is acted on first. What R303
names stays. -/
def Obligations.BusReset : Prop :=
  ∀ (s : State) (rest : List Line), s.runnable → s.quiet → s.irqEnable = true →
    s.lines = .op (.name .busReset) :: .irq :: rest →
    ∃ u t, step s = .next u ∧ u.hw.causes.getLsbD 2 = true ∧ u.hw.epr = ⟨0, 0, 0⟩ ∧ u.hw.daddr = 0 ∧
      (∀ a, u.hw.answers a = false) ∧ step u = .next t ∧
      t.hw.epr = ⟨0x3220, 0x3021, 0x0622⟩ ∧ t.hw.causes = 0 ∧ t.hw.daddr = 0x80 ∧
      t.hw.txOffset = s.cfg.txOff ∧ t.hw.rxOffset = s.cfg.rxOff ∧
      t.hw.txCount = ⟨0, 0, 0⟩ ∧ t.hw.rxCount = ⟨0, 0, 0⟩ ∧ t.hw.answers (some 0) = true ∧
      t.ctl = ControlCtx.initial s.cfg ∧ t.sess = FlashSession.zero ∧
      t.dev.configured = false ∧ t.dev.addrPending = false ∧ t.dev.pendingAddr = 0 ∧
      t.dev.suspended = (if s.hw.istr.getLsbD 11 then true else if s.hw.istr.getLsbD 12 then false
        else s.dev.suspended) ∧
      (s.hw.istr &&& 0x1800 = 0 → t.hw.cntr = s.hw.cntr) ∧
      t.cls = s.cls ∧ t.irqEnable = true ∧ t.hw.pma = s.hw.pma ∧ t.scratch = s.scratch ∧ t.cmdBuf = s.cmdBuf ∧
      t.flash = s.flash ∧ t.log = s.log

/-- 44_dispatcher R220, R221, 60_exceptions R276: no entry runs where the interrupt is disabled or nothing is pending.
Otherwise, the bus side still, an entry runs RESUME and SUSPEND where the snapshot shows them, in that order, clears
the causes, and then either handles RESET or drains the completions, never both. -/
def Obligations.EntrySequence : Prop :=
  ∀ (s : State) (rest : List Line), s.runnable → s.lines = .irq :: rest →
    let s0 : State := { s with lines := rest }
    (s.irqEnable = false ∨ s.hw.istr &&& 0xFF00 = 0 → step s = .next s0) ∧
    (s.quiet → s.irqEnable = true → s.hw.istr &&& 0xFF00 ≠ 0 →
      ∃ s1 s2 s3,
        (if s.hw.istr.getLsbD 12 then exec .irqResume s0 else .next s0) = .next s1 ∧
        (if s.hw.istr.getLsbD 11 then exec .irqSuspend s1 else .next s1) = .next s2 ∧
        exec .irqOther s2 = .next s3 ∧
        step s = if s.hw.istr.getLsbD 10 then exec .irqReset s3 else exec .irqCtr s3)

/-- 44_dispatcher R226 to R228, 30_encoding R92, the bus side still: the drain loop serves the least endpoint with a
flag, receive before transmit; it samples SETUP, clears the flag, applies a pending address before a device-to-host
handler, runs the handler the triple selects, and goes on; with no flag set it ends. -/
def Obligations.DrainServesInOrder : Prop :=
  ∀ s : State, s.runnable → s.quiet →
    (s.hw.istr.getLsbD 15 = false → exec .irqCtr s = .next s) ∧
    (∀ (e : Ep) (d : Dir), eprFlag (s.hw.epr.get e) d = true →
      (∀ f : Ep, f.num < e.num → ∀ d', eprFlag (s.hw.epr.get f) d' = false) →
      (d = .tx → eprFlag (s.hw.epr.get e) .rx = false) →
      ∃ u v i w,
        exec (.clearCtr e d) s = .next u ∧
        (if d = .tx ∧ u.dev.addrPending = true then exec .applyAddress u else .next u) = .next v ∧
        decode v.sess.blState (.event (eventOf (BitVec.ofNat 4 e.num) (d == .rx) (eprSetup (s.hw.epr.get e)))) =
          .instr i ∧
        exec i v = .next w ∧
        exec .irqCtr s = if w.fatal = none then exec .irqCtr w else .next w)

/-- 44_dispatcher R226, R232: under any schedule of the bus side the drain loop ends, and unless a FlashFatal ended it
no completion flag is left. -/
def Obligations.DrainLeavesNoFlag : Prop :=
  ∀ s : State, s.runnable →
    ∃ t, exec .irqCtr s = .next t ∧ (t.fatal = none → ∀ e d, eprFlag (t.hw.epr.get e) d = false)

/-- 44_dispatcher R228, R229, 70_reset R307, R308: APPLY_ADDRESS writes DADDR and withdraws the pending flag, and
`pending_addr` keeps its value. With the bus side still, the entry that serves a device-to-host completion, on any
endpoint, applies a pending address; one that serves a host-to-device completion of the bulk endpoint does not. -/
def Obligations.AddressAppliedAtIn : Prop :=
  ∀ s : State, s.runnable →
    exec .applyAddress s = .next { s with
      hw := { s.hw.slot s.cfg with daddr := 0x80 ||| s.dev.pendingAddr.setWidth 8 }
      dev.addrPending := false } ∧
    (∀ (e : Ep) (d : Dir) (rest : List Line), s.quiet → s.irqEnable = true →
      s.lines = .irq :: rest → s.hw.causes = 0 → s.dev.addrPending = true →
      (∀ f d', eprFlag (s.hw.epr.get f) d' = true ↔ f = e ∧ d' = d) →
      ∃ t, step s = .next t ∧
        (d = .tx → t.hw.daddr = 0x80 ||| s.dev.pendingAddr.setWidth 8 ∧ t.dev.addrPending = false) ∧
        (d = .rx → e = .data → t.hw.daddr = s.hw.daddr ∧ t.dev.addrPending = true))

/-! ## Collaborators -/

/-- 45_collaborators R241: a SETUP transaction, whether the receive status is VALID, NAK or STALL. Every byte of
packet memory outside the eight reads as before. -/
def Obligations.SetupTransaction : Prop :=
  ∀ (s : State) (a : DevAddr) (b : List Byte) (dr dt : Bool), s.ready → s.hw.answers a = true → b.length = 8 →
    eprType (s.hw.epr.get .ctrl) = 1 → eprStat (s.hw.epr.get .ctrl) .rx ≠ .disabled →
    eprFlag (s.hw.epr.get .ctrl) .rx = false →
    ∃ t r, exec (.busSetup a b dr dt) s = .next t ∧
      t = { s with hw := { s.hw with
        pma := t.hw.pma
        rxCount := s.hw.rxCount.set .ctrl 8
        epr := s.hw.epr.set .ctrl r
        replies := s.hw.replies ++ [.accepted (daddrAdd s.hw.daddr)] } } ∧
      (∀ i x, b[i]? = some x → t.hw.pmaByte (s.hw.rxBase .ctrl + i) = x) ∧
      (∀ j, j < s.hw.rxBase .ctrl ∨ s.hw.rxBase .ctrl + 8 ≤ j → t.hw.pmaByte j = s.hw.pmaByte j) ∧
      eprStat r .rx = .nak ∧ eprStat r .tx = .nak ∧ eprSetup r = true ∧ eprFlag r .rx = true ∧
      eprToggle r .rx = dr ∧ eprToggle r .tx = dt ∧
      eprFlag r .tx = eprFlag (s.hw.epr.get .ctrl) .tx ∧ eprType r = 1 ∧
      eprKind r = eprKind (s.hw.epr.get .ctrl) ∧ eprAddr r = eprAddr (s.hw.epr.get .ctrl)

/-- 45_collaborators R242: an OUT transaction on a direction that is VALID. The high half of the last unit of an odd
packet is the draw `tail`; every byte outside the units reads as before. -/
def Obligations.OutTransaction : Prop :=
  ∀ (s : State) (a : DevAddr) (e : Ep) (b : List Byte) (tail : Byte) (dr : Bool), s.ready → s.hw.answers a = true →
    b.length ≤ s.cfg.cap.get e → eprStat (s.hw.epr.get e) .rx = .valid →
    ∃ t r, exec (.busOut a e b tail dr) s = .next t ∧
      t = { s with hw := { s.hw with
        pma := t.hw.pma
        rxCount := s.hw.rxCount.set e (BitVec.ofNat 10 b.length)
        epr := s.hw.epr.set e r
        replies := s.hw.replies ++ [.accepted (daddrAdd s.hw.daddr)] } } ∧
      (∀ i x, b[i]? = some x → t.hw.pmaByte (s.hw.rxBase e + i) = x) ∧
      (b.length % 2 = 1 → t.hw.pmaByte (s.hw.rxBase e + b.length) = tail) ∧
      (∀ j, j < s.hw.rxBase e ∨ s.hw.rxBase e + 2 * ceil2 b.length ≤ j → t.hw.pmaByte j = s.hw.pmaByte j) ∧
      eprStat r .rx = .nak ∧ eprStat r .tx = eprStat (s.hw.epr.get e) .tx ∧ eprSetup r = false ∧
      eprFlag r .rx = true ∧ eprFlag r .tx = eprFlag (s.hw.epr.get e) .tx ∧
      eprToggle r .rx = dr ∧ eprToggle r .tx = eprToggle (s.hw.epr.get e) .tx ∧
      eprType r = eprType (s.hw.epr.get e) ∧ eprKind r = eprKind (s.hw.epr.get e) ∧
      eprAddr r = eprAddr (s.hw.epr.get e)

/-- 45_collaborators R243: an IN transaction on a direction that is VALID brings the host `tx_count` bytes of the
transmit area. -/
def Obligations.InTransaction : Prop :=
  ∀ (s : State) (a : DevAddr) (e : Ep) (dt : Bool), s.ready → s.hw.answers a = true →
    eprStat (s.hw.epr.get e) .tx = .valid →
    ∃ b r, exec (.busIn a e dt) s = .next { s with hw := { s.hw with
        epr := s.hw.epr.set e r
        replies := s.hw.replies ++ [.bytes (daddrAdd s.hw.daddr) b] } } ∧
      b.length = (s.hw.txCount.get e).toNat ∧
      (∀ i, i < b.length → b[i]? = some (s.hw.pmaByte (s.hw.txBase e + i))) ∧
      eprStat r .tx = .nak ∧ eprStat r .rx = eprStat (s.hw.epr.get e) .rx ∧ eprFlag r .tx = true ∧
      eprFlag r .rx = eprFlag (s.hw.epr.get e) .rx ∧ eprToggle r .tx = dt ∧
      eprToggle r .rx = eprToggle (s.hw.epr.get e) .rx ∧ eprSetup r = eprSetup (s.hw.epr.get e) ∧
      eprType r = eprType (s.hw.epr.get e) ∧ eprKind r = eprKind (s.hw.epr.get e) ∧
      eprAddr r = eprAddr (s.hw.epr.get e)

/-- 45_collaborators R240, R244, 93 section 3: a transaction at another address, or with the function disabled, draws
no answer; an OUT or an IN on a direction that is not VALID is answered by its status, whichever line brings it. A
SETUP whose precondition does not hold, and a BUS_REFUSE on a VALID direction, are not made, and the record of what the
host sees says so (log 13, the model's choice). Nothing of the block changes. -/
def Obligations.UnansweredTransactions : Prop :=
  ∀ (s : State) (a : DevAddr), s.ready →
    let replied (r : Reply) : State := { s with hw := { s.hw with replies := s.hw.replies ++ [r] } }
    (s.hw.answers a = false →
      (∀ b dr dt, b.length = 8 → exec (.busSetup a b dr dt) s = .next (replied .silent)) ∧
      (∀ e b tail dr, b.length ≤ s.cfg.cap.get e → exec (.busOut a e b tail dr) s = .next (replied .silent)) ∧
      (∀ e dt, exec (.busIn a e dt) s = .next (replied .silent)) ∧
      (∀ e d, exec (.busRefuse a e d) s = .next (replied .silent))) ∧
    (s.hw.answers a = true →
      (∀ (e : Ep) (d : Dir), eprStat (s.hw.epr.get e) d ≠ .valid →
        let handshake : Reply := match eprStat (s.hw.epr.get e) d with
          | .nak => .nak
          | .stall => .stall
          | _ => .silent
        exec (.busRefuse a e d) s = .next (replied handshake) ∧
        (d = .rx → ∀ b tail dr, b.length ≤ s.cfg.cap.get e →
          exec (.busOut a e b tail dr) s = .next (replied handshake)) ∧
        (d = .tx → ∀ dt, exec (.busIn a e dt) s = .next (replied handshake))) ∧
      (∀ b dr dt, b.length = 8 →
        (eprType (s.hw.epr.get .ctrl) ≠ 1 ∨ eprStat (s.hw.epr.get .ctrl) .rx = .disabled ∨
          eprFlag (s.hw.epr.get .ctrl) .rx = true) →
        exec (.busSetup a b dr dt) s = .next (replied .notMade)) ∧
      (∀ (e : Ep) (d : Dir), eprStat (s.hw.epr.get e) d = .valid →
        exec (.busRefuse a e d) s = .next (replied .notMade)))

/-- 45_collaborators R245, R246, R256: a bus reset, the other causes, and the session owner's interrupt enable; each
changes what the rule names and nothing else. -/
def Obligations.ResetCausesAndEnable : Prop :=
  ∀ s : State, s.ready →
    (∃ k, exec .busReset s = .next { s with hw := { s.hw with causes := k, epr := ⟨0, 0, 0⟩, daddr := 0 } } ∧
      ∀ i, k.getLsbD i = (s.hw.causes.getLsbD i || i == 2)) ∧
    (∀ c : Cause, ∃ k, exec (.busCause c) s = .next { s with hw := { s.hw with causes := k } } ∧
      let bit : Nat := match c with
        | .pmaovr => 14
        | .err => 13
        | .wkup => 12
        | .susp => 11
        | .sof => 9
        | .esof => 8
      ∀ i, i < 7 → k.getLsbD i = (s.hw.causes.getLsbD i || i + 8 == bit)) ∧
    (∀ v : Bool, exec (.irqSetEnable v) s = .next { s with irqEnable := v })

/-- 45_collaborators R248: what no move of the bus side does. It writes no transmit area and no byte outside the
receive area of the endpoint it delivers to, nothing at all where it delivers no packet; it completes no transaction on
a direction that is not VALID, SETUP excepted. -/
def Obligations.BusSideNever : Prop :=
  ∀ (s t : State) (i : Instr), i.environment = true → exec i s = .next t →
    t = { s with hw := t.hw, irqEnable := t.irqEnable } ∧
    t.hw.txCount = s.hw.txCount ∧ t.hw.txOffset = s.hw.txOffset ∧ t.hw.rxOffset = s.hw.rxOffset ∧
    t.hw.cntr = s.hw.cntr ∧ t.hw.causes &&& s.hw.causes = s.hw.causes ∧
    (i ≠ .busReset → ∀ e,
      eprType (t.hw.epr.get e) = eprType (s.hw.epr.get e) ∧ eprKind (t.hw.epr.get e) = eprKind (s.hw.epr.get e) ∧
      eprAddr (t.hw.epr.get e) = eprAddr (s.hw.epr.get e) ∧
      (∀ d, eprFlag (s.hw.epr.get e) d = true → eprFlag (t.hw.epr.get e) d = true) ∧
      t.hw.daddr = s.hw.daddr) ∧
    (∀ e, ((∃ a b dr dt, i = .busSetup a b dr dt ∧ e = .ctrl) ∨ ∃ a b tail dr, i = .busOut a e b tail dr) →
      ∀ j, (j < s.hw.rxBase e ∨ s.hw.rxBase e + 2 * ceil2 (s.cfg.cap.get e) ≤ j) → t.hw.pmaByte j = s.hw.pmaByte j) ∧
    ((∀ a b dr dt, i ≠ .busSetup a b dr dt) → (∀ a e b tail dr, i ≠ .busOut a e b tail dr) → t.hw.pma = s.hw.pma) ∧
    (Inv s → ∀ e j, s.hw.txBase e ≤ j → j < s.hw.txBase e + 2 * ceil2 (s.cfg.cap.get e) →
      t.hw.pmaByte j = s.hw.pmaByte j) ∧
    (∀ e d, eprFlag (s.hw.epr.get e) d = false → eprFlag (t.hw.epr.get e) d = true →
      eprStat (s.hw.epr.get e) d = .valid ∨ d = .rx ∧ e = .ctrl ∧ ∃ a b dr dt, i = .busSetup a b dr dt) ∧
    ((∀ a b dr dt, i ≠ .busSetup a b dr dt) → ∀ e, eprStat (s.hw.epr.get e) .rx ≠ .valid →
      t.hw.rxCount.get e = s.hw.rxCount.get e ∧ ∀ j, s.hw.rxBase e ≤ j →
        j < s.hw.rxBase e + 2 * ceil2 (s.cfg.cap.get e) → Inv s → t.hw.pmaByte j = s.hw.pmaByte j)

/-- 45_collaborators R250, R251, R253: the flash calls change program memory in the units they name and nothing else;
an odd address changes no memory and is fatal. That a call which passes the top of the address space goes on at 0, so
that of more than 2^32 bytes the last 2^32 are left, is the model's inference (log 17); a byte the caller's buffer does
not hold is a free value (log 18). -/
def Obligations.FlashCalls : Prop :=
  ∀ (s : State) (a : Addr32) (buf : List Byte) (k : Nat), s.runnable →
    (a.toNat % 2 = 1 →
      exec (.flashErase a) s = .next { s with fatal := some a } ∧
      exec (.flashWrite a buf k) s = .next { s with fatal := some a }) ∧
    (a.toNat % 2 = 0 →
      (∃ t, exec (.flashErase a) s = .next t ∧ t = { s with flash := t.flash } ∧
        ∀ x : Addr32, t.flash.read? x.toNat =
          if (x - a).toNat < s.cfg.pageSize then some 0xFF else s.flash.read? x.toNat) ∧
      (∃ t, exec (.flashWrite a buf k) s = .next t ∧ t = { s with flash := t.flash } ∧
        (∀ i, i < 2 * k → 2 * k ≤ i + 2 ^ 32 → ∃ b, t.flash.read? (a + BitVec.ofNat 32 i).toNat = some b ∧
          ∀ y, buf[i]? = some y → b = y) ∧
        ∀ x : Addr32, 2 * k ≤ (x - a).toNat → t.flash.read? x.toNat = s.flash.read? x.toNat))
end

