-- ==== Sys2Proof/Laws/State.lean ====
section
/-! SUPPORT. One small lemma for each field under each update of the state, so that later proofs do not unfold a
record update. -/

namespace Sys2Proof

variable {α : Type}

@[simp] theorem PerEp.get_set_self (p : PerEp α) (e : Ep) (v : α) : (p.set e v).get e = v := by cases e <;> rfl

@[simp] theorem PerEp.get_set_ne (p : PerEp α) {e f : Ep} (v : α) (h : f ≠ e) : (p.set e v).get f = p.get f := by
  cases e <;> cases f <;> first | rfl | exact absurd rfl h

theorem PerEp.get_set (p : PerEp α) (e f : Ep) (v : α) : (p.set e v).get f = if f = e then v else p.get f := by
  split
  · subst_vars; exact p.get_set_self _ v
  · exact p.get_set_ne v ‹_›

@[simp] theorem PerEp.set_set (p : PerEp α) (e : Ep) (v w : α) : (p.set e v).set e w = p.set e w := by
  cases e <;> rfl

@[simp] theorem PerEp.set_get (p : PerEp α) (e : Ep) : p.set e (p.get e) = p := by cases e <;> rfl

theorem PerEp.ext_get {p q : PerEp α} (h : ∀ e, p.get e = q.get e) : p = q := by
  cases p; cases q
  have hc := h .ctrl; have hd := h .data; have hm := h .comm
  simp only [PerEp.get] at hc hd hm
  subst hc hd hm; rfl

namespace Machine

/-! ## `Hw.setTo` -/

section
variable (h : Hw) (e : Ep) (d : Dir) (t : Stat)

@[simp] theorem Hw.setTo_txOffset : (h.setTo e d t).txOffset = h.txOffset := rfl
@[simp] theorem Hw.setTo_rxOffset : (h.setTo e d t).rxOffset = h.rxOffset := rfl
@[simp] theorem Hw.setTo_txCount : (h.setTo e d t).txCount = h.txCount := rfl
@[simp] theorem Hw.setTo_rxCount : (h.setTo e d t).rxCount = h.rxCount := rfl
@[simp] theorem Hw.setTo_epr : (h.setTo e d t).epr = h.epr.set e (withStatus (h.epr.get e) d t) := rfl
@[simp] theorem Hw.setTo_causes : (h.setTo e d t).causes = h.causes := rfl
@[simp] theorem Hw.setTo_cntr : (h.setTo e d t).cntr = h.cntr := rfl
@[simp] theorem Hw.setTo_daddr : (h.setTo e d t).daddr = h.daddr := rfl
@[simp] theorem Hw.setTo_pma : (h.setTo e d t).pma = h.pma := rfl
@[simp] theorem Hw.setTo_powerOns : (h.setTo e d t).powerOns = h.powerOns := rfl
@[simp] theorem Hw.setTo_between : (h.setTo e d t).between = h.between := rfl
@[simp] theorem Hw.setTo_replies : (h.setTo e d t).replies = h.replies := rfl
@[simp] theorem Hw.setTo_pmaByte (a : Nat) : (h.setTo e d t).pmaByte a = h.pmaByte a := rfl
end

/-! ## `State.onHw` -/

section
variable (s : State) (f : Config → Hw → Hw)

@[simp] theorem State.onHw_cfg : (s.onHw f).cfg = s.cfg := rfl
@[simp] theorem State.onHw_hw : (s.onHw f).hw = f s.cfg s.hw := rfl
@[simp] theorem State.onHw_ctl : (s.onHw f).ctl = s.ctl := rfl
@[simp] theorem State.onHw_cls : (s.onHw f).cls = s.cls := rfl
@[simp] theorem State.onHw_dev : (s.onHw f).dev = s.dev := rfl
@[simp] theorem State.onHw_sess : (s.onHw f).sess = s.sess := rfl
@[simp] theorem State.onHw_scratch : (s.onHw f).scratch = s.scratch := rfl
@[simp] theorem State.onHw_cmdBuf : (s.onHw f).cmdBuf = s.cmdBuf := rfl
@[simp] theorem State.onHw_irqEnable : (s.onHw f).irqEnable = s.irqEnable := rfl
@[simp] theorem State.onHw_flash : (s.onHw f).flash = s.flash := rfl
@[simp] theorem State.onHw_fatal : (s.onHw f).fatal = s.fatal := rfl
@[simp] theorem State.onHw_log : (s.onHw f).log = s.log := rfl
@[simp] theorem State.onHw_result : (s.onHw f).result = s.result := rfl
@[simp] theorem State.onHw_lines : (s.onHw f).lines = s.lines := rfl
end

/-! ## `State.enter`, `State.logEvent`, `State.capture` -/

section
variable (s : State) (x : CtlState) (ev : LogEvent) (p : List Byte)

@[simp] theorem State.enter_cfg : (s.enter x).cfg = s.cfg := rfl
@[simp] theorem State.enter_hw : (s.enter x).hw = s.hw := rfl
@[simp] theorem State.enter_ctl : (s.enter x).ctl = { s.ctl with ctlState := x } := rfl
@[simp] theorem State.enter_cls : (s.enter x).cls = s.cls := rfl
@[simp] theorem State.enter_dev : (s.enter x).dev = s.dev := rfl
@[simp] theorem State.enter_sess : (s.enter x).sess = s.sess := rfl
@[simp] theorem State.enter_scratch : (s.enter x).scratch = s.scratch := rfl
@[simp] theorem State.enter_cmdBuf : (s.enter x).cmdBuf = s.cmdBuf := rfl
@[simp] theorem State.enter_flash : (s.enter x).flash = s.flash := rfl
@[simp] theorem State.enter_fatal : (s.enter x).fatal = s.fatal := rfl
@[simp] theorem State.enter_log : (s.enter x).log = s.log := rfl
@[simp] theorem State.enter_lines : (s.enter x).lines = s.lines := rfl
@[simp] theorem State.logEvent_hw : (s.logEvent ev).hw = s.hw := rfl
@[simp] theorem State.logEvent_ctl : (s.logEvent ev).ctl = s.ctl := rfl
@[simp] theorem State.logEvent_cfg : (s.logEvent ev).cfg = s.cfg := rfl
@[simp] theorem State.logEvent_log : (s.logEvent ev).log = s.log ++ [ev] := rfl
@[simp] theorem State.capture_hw : (s.capture p).hw = s.hw := rfl
@[simp] theorem State.capture_cfg : (s.capture p).cfg = s.cfg := rfl
@[simp] theorem State.capture_setup : (s.capture p).ctl.setup = p := rfl
@[simp] theorem State.capture_fatal : (s.capture p).fatal = s.fatal := rfl
end

/-! ## Buffers -/

@[simp] theorem State.buffer_withBuffer (s : State) (d : Buffer) (b : List Byte) :
    (s.withBuffer d b).buffer d = b := by cases d <;> rfl

@[simp] theorem State.withBuffer_cfg (s : State) (d : Buffer) (b : List Byte) :
    (s.withBuffer d b).cfg = s.cfg := by cases d <;> rfl

@[simp] theorem State.withBuffer_hw (s : State) (d : Buffer) (b : List Byte) :
    (s.withBuffer d b).hw = s.hw := by cases d <;> rfl

@[simp] theorem State.withBuffer_sess (s : State) (d : Buffer) (b : List Byte) :
    (s.withBuffer d b).sess = s.sess := by cases d <;> rfl

@[simp] theorem State.withBuffer_flash (s : State) (d : Buffer) (b : List Byte) :
    (s.withBuffer d b).flash = s.flash := by cases d <;> rfl

@[simp] theorem State.withBuffer_fatal (s : State) (d : Buffer) (b : List Byte) :
    (s.withBuffer d b).fatal = s.fatal := by cases d <;> rfl

/-- Filling a buffer is replacing it by its overwritten contents. -/
theorem State.fill_eq_withBuffer (s : State) (d : Buffer) (b : List Byte) :
    s.fill d b = s.withBuffer d (overlay (s.buffer d) b) := by cases d <;> rfl

/-- A buffer that is at least as long as what is laid over it keeps its length. -/
theorem overlay_length {buf b : List Byte} (h : b.length ≤ buf.length) : (overlay buf b).length = buf.length := by
  simp only [overlay, List.length_append, List.length_drop]; omega

end Machine

end Sys2Proof
end

