-- ==== Sys2Proof/Laws/Memory.lean ====
section
/-! SUPPORT. What a memory reads after a store, and that every store keeps the canonical form. -/

namespace Sys2Proof.Machine

@[simp] theorem Memory.read?_nil (a : Nat) : Memory.read? [] a = none := rfl

theorem Memory.read?_cons (c : Host.Cell) (m : Memory) (a : Nat) :
    Memory.read? (c :: m) a = if c.1 = a then some c.2 else Memory.read? m a := by
  simp only [Memory.read?, List.find?_cons]
  by_cases h : c.1 = a
  · simp [h]
  · rw [if_neg h, beq_eq_false_iff_ne.mpr h]

theorem Memory.read?_append (m n : Memory) (a : Nat) :
    Memory.read? (m ++ n) a = (Memory.read? m a).or (Memory.read? n a) := by
  induction m with
  | nil => simp
  | cons c m ih => rw [List.cons_append, read?_cons, read?_cons, ih]; split <;> simp

/-- A read of a filtered memory whose filter looks at addresses alone. -/
theorem Memory.read?_filter (m : Memory) (p : Nat → Bool) (a : Nat) :
    Memory.read? (m.filter (fun c => p c.1)) a = if p a then Memory.read? m a else none := by
  induction m with
  | nil => simp
  | cons c m ih =>
    rw [List.filter_cons, read?_cons]
    by_cases hc : c.1 = a
    · subst hc
      cases hp : p c.1 <;> simp [hp, read?_cons, ih]
    · cases hp : p c.1 <;> simp [read?_cons, hc, ih]

theorem Memory.read?_cells (bs : List Byte) (a x : Nat) :
    Memory.read? (Memory.cells a bs) x = if a ≤ x then bs[x - a]? else none := by
  induction bs generalizing a with
  | nil => simp [Memory.cells]
  | cons b bs ih =>
    rw [Memory.cells, read?_cons, ih]
    by_cases h : a = x
    · subst h; simp
    · by_cases h1 : a + 1 ≤ x
      · have h2 : x - a = x - (a + 1) + 1 := by omega
        rw [if_neg h, if_pos h1, if_pos (by omega), h2, List.getElem?_cons_succ]
      · simp only [if_neg h, if_neg h1]; rw [if_neg (by omega)]

/-- What a memory reads after a store. -/
theorem Memory.read?_store (m : Memory) (a : Nat) (bs : List Byte) (x : Nat) :
    (m.store a bs).read? x = if a ≤ x ∧ x < a + bs.length then bs[x - a]? else m.read? x := by
  have hlow := read?_filter m (fun y => decide (y < a)) x
  have hhigh := read?_filter m (fun y => decide (a + bs.length ≤ y)) x
  rw [Memory.store, read?_append, read?_append, hlow, hhigh, read?_cells]
  by_cases h1 : a ≤ x
  · by_cases h2 : x < a + bs.length
    · have h3 : x - a < bs.length := by omega
      simp [h1, h2, h3, Nat.not_lt.mpr h1]
    · have h3 : bs.length ≤ x - a := by omega
      have h4 : bs[x - a]? = none := List.getElem?_eq_none h3
      simp [h1, h2, h4, Nat.not_lt.mpr h1, Nat.not_lt.mp h2]
  · have h2 : ¬a + bs.length ≤ x := by omega
    simp [h1, h2, Nat.not_le.mp h1]

/-- A stored byte reads back. -/
theorem Memory.read?_store_at (m : Memory) (a : Nat) (bs : List Byte) {i : Nat} (h : i < bs.length) :
    (m.store a bs).read? (a + i) = some bs[i] := by
  rw [read?_store, if_pos (by omega), Nat.add_sub_cancel_left, List.getElem?_eq_getElem h]

/-- Every address outside the stored bytes reads as before. -/
theorem Memory.read?_store_outside (m : Memory) (a : Nat) (bs : List Byte) {x : Nat}
    (h : x < a ∨ a + bs.length ≤ x) : (m.store a bs).read? x = m.read? x := by
  rw [read?_store, if_neg (by omega)]

/-- Storing nothing changes no read. -/
@[simp] theorem Memory.read?_store_nil (m : Memory) (a x : Nat) : (m.store a []).read? x = m.read? x :=
  read?_store_outside m a [] (by simp; omega)

theorem Memory.mem_cells {bs : List Byte} {a : Nat} {c : Host.Cell} (h : c ∈ Memory.cells a bs) :
    a ≤ c.1 ∧ c.1 < a + bs.length := by
  induction bs generalizing a with
  | nil => simp [Memory.cells] at h
  | cons b bs ih =>
    rw [Memory.cells, List.mem_cons] at h
    rw [List.length_cons]
    rcases h with rfl | h
    · exact ⟨Nat.le_refl _, by simp⟩
    · have := ih h; omega

theorem Memory.cells_wf (bs : List Byte) (a : Nat) : Memory.wf (Memory.cells a bs) := by
  induction bs generalizing a with
  | nil => exact .nil
  | cons b bs ih => exact .cons (fun c hc => (mem_cells hc).1) (ih (a + 1))

/-- A store keeps the canonical form. -/
theorem Memory.store_wf {m : Memory} (h : m.wf) (a : Nat) (bs : List Byte) : (m.store a bs).wf := by
  rw [Memory.store, Memory.wf, List.append_assoc, List.pairwise_append, List.pairwise_append]
  refine ⟨h.filter _, ⟨cells_wf bs a, h.filter _, ?_⟩, ?_⟩
  · intro x hx y hy
    have h1 := (mem_cells hx).2
    have h2 := of_decide_eq_true (List.mem_filter.mp hy).2
    omega
  · intro x hx y hy
    have h1 := of_decide_eq_true (List.mem_filter.mp hx).2
    rcases List.mem_append.mp hy with hy | hy
    · have := (mem_cells hy).1; omega
    · have := of_decide_eq_true (List.mem_filter.mp hy).2; omega

/-- A store lists no address but those it had and those it stores to. -/
theorem Memory.mem_store {m : Memory} {a : Nat} {bs : List Byte} {c : Host.Cell} (h : c ∈ m.store a bs) :
    c ∈ m ∨ (a ≤ c.1 ∧ c.1 < a + bs.length) := by
  rw [Memory.store, List.append_assoc, List.mem_append, List.mem_append] at h
  rcases h with h | h | h
  · exact .inl (List.mem_filter.mp h).1
  · exact .inr (mem_cells h)
  · exact .inl (List.mem_filter.mp h).1

/-! ## Program memory -/

theorem storeWrapped_wf {m : Memory} (h : m.wf) (a : Addr32) (bs : List Byte) : (storeWrapped m a bs).wf := by
  simp only [storeWrapped]
  split
  · exact Memory.store_wf h _ _
  · exact Memory.store_wf (Memory.store_wf h _ _) _ _

theorem storeWrapped_inside {m : Memory} (h : ∀ x ∈ m, x.1 < 2 ^ 32) (a : Addr32) {bs : List Byte}
    (hl : bs.length ≤ 2 ^ 32) : ∀ x ∈ storeWrapped m a bs, x.1 < 2 ^ 32 := by
  have ha := a.isLt
  intro x hx
  simp only [storeWrapped] at hx
  split at hx
  · rcases Memory.mem_store hx with hx | hx
    · exact h x hx
    · omega
  · rcases Memory.mem_store hx with hx | hx
    · rcases Memory.mem_store hx with hx | hx
      · exact h x hx
      · rw [List.length_take] at hx; omega
    · rw [List.length_drop] at hx; omega

/-- Byte `i` of what was stored stands at `a + i` modulo 2^32. -/
theorem read?_storeWrapped (m : Memory) (a : Addr32) {bs : List Byte} (hl : bs.length ≤ 2 ^ 32) (x : Addr32) :
    (storeWrapped m a bs).read? x.toNat =
      if (x - a).toNat < bs.length then bs[(x - a).toNat]? else m.read? x.toNat := by
  have ha := a.isLt
  have hx := x.isLt
  have hs : (x - a).toNat = if a.toNat ≤ x.toNat then x.toNat - a.toNat else 2 ^ 32 - a.toNat + x.toNat := by
    rw [BitVec.toNat_sub]; split <;> omega
  simp only [storeWrapped]
  split
  · rw [Memory.read?_store, hs]
    split <;> split <;> split <;> first | rfl | omega
  · rw [Memory.read?_store, Memory.read?_store, List.length_take, List.length_drop, hs]
    by_cases h1 : a.toNat ≤ x.toNat
    · rw [if_neg (by omega), if_pos (by omega), if_pos h1, if_pos (by omega), List.getElem?_take, if_pos (by omega)]
    · rw [if_neg h1]
      by_cases h2 : x.toNat < bs.length - (2 ^ 32 - a.toNat)
      · rw [if_pos (by omega), if_pos (by omega), List.getElem?_drop, Nat.sub_zero]
      · rw [if_neg (by omega), if_neg (by omega), if_neg (by omega)]

theorem storeFlash_of_le (m : Memory) (a : Addr32) {bs : List Byte} (hl : bs.length ≤ 2 ^ 32) :
    storeFlash m a bs = storeWrapped m a bs := by
  rw [storeFlash, if_pos hl]

theorem storeFlash_wf {m : Memory} (h : m.wf) (a : Addr32) (bs : List Byte) : (storeFlash m a bs).wf := by
  rw [storeFlash]
  split <;> exact storeWrapped_wf h _ _

theorem storeFlash_inside {m : Memory} (h : ∀ x ∈ m, x.1 < 2 ^ 32) (a : Addr32) (bs : List Byte) :
    ∀ x ∈ storeFlash m a bs, x.1 < 2 ^ 32 := by
  rw [storeFlash]
  split
  · exact storeWrapped_inside h _ ‹_›
  · exact storeWrapped_inside h _ (by rw [List.length_drop]; omega)

theorem storeFlash_legal {m : Memory} (L : FlashLegal m) (a : Addr32) (bs : List Byte) : FlashLegal (storeFlash m a bs) :=
  ⟨storeFlash_wf L.canonical a bs, storeFlash_inside L.inside a bs⟩

/-- What program memory reads after a store of no more than 2^32 bytes. -/
theorem read?_storeFlash (m : Memory) (a : Addr32) {bs : List Byte} (hl : bs.length ≤ 2 ^ 32) (x : Addr32) :
    (storeFlash m a bs).read? x.toNat =
      if (x - a).toNat < bs.length then bs[(x - a).toNat]? else m.read? x.toNat := by
  rw [storeFlash_of_le m a hl, read?_storeWrapped m a hl]

/-- Byte `i` of what was stored, if it is one of the last 2^32, stands at `a + i` modulo 2^32. -/
theorem read?_storeFlash_at (m : Memory) (a : Addr32) {bs : List Byte} {i : Nat} (hi : i < bs.length)
    (hl : bs.length ≤ i + 2 ^ 32) : (storeFlash m a bs).read? (a + BitVec.ofNat 32 i).toNat = bs[i]? := by
  have ha := a.isLt
  rw [storeFlash]
  split
  · have : (a + BitVec.ofNat 32 i - a).toNat = i := by
      simp only [BitVec.toNat_sub, BitVec.toNat_add, BitVec.toNat_ofNat]; omega
    rw [read?_storeWrapped m a ‹_›, this, if_pos hi]
  · obtain ⟨n, hn⟩ : ∃ n, bs.length = 2 ^ 32 + n := ⟨bs.length - 2 ^ 32, by omega⟩
    rw [show bs.length - 2 ^ 32 = n by rw [hn, Nat.add_sub_cancel_left]]
    have hd : (bs.drop n).length = bs.length - n := List.length_drop
    have : (a + BitVec.ofNat 32 i - (a + BitVec.ofNat 32 n)).toNat = i - n := by
      simp only [BitVec.toNat_sub, BitVec.toNat_add, BitVec.toNat_ofNat]; omega
    have hni : n + (i - n) = i := by omega
    rw [read?_storeWrapped _ _ (by omega), this, if_pos (by omega), List.getElem?_drop, hni]

/-- What a store does not reach reads as before. -/
theorem read?_storeFlash_outside (m : Memory) (a : Addr32) {bs : List Byte} {x : Addr32}
    (hx : bs.length ≤ (x - a).toNat) : (storeFlash m a bs).read? x.toNat = m.read? x.toNat := by
  have := (x - a).isLt
  rw [read?_storeFlash m a (by omega), if_neg (by omega)]

/-- What program memory reads after `n` equal bytes are stored, however many: an erase (45_collaborators R250). -/
theorem read?_storeFlash_replicate (m : Memory) (a : Addr32) (n : Nat) (v : Byte) (x : Addr32) :
    (storeFlash m a (List.replicate n v)).read? x.toNat =
      if (x - a).toNat < n then some v else m.read? x.toNat := by
  by_cases hn : n ≤ 2 ^ 32
  · rw [read?_storeFlash m a (by rwa [List.length_replicate]), List.length_replicate]
    split
    · rw [List.getElem?_replicate, if_pos ‹_›]
    · rfl
  · have hx := (x - a).isLt
    have hy := (x - (a + BitVec.ofNat 32 (n - 2 ^ 32))).isLt
    rw [storeFlash, if_neg (by rwa [List.length_replicate]), List.drop_replicate, List.length_replicate,
      read?_storeWrapped _ _ (by rw [List.length_replicate]; omega), List.length_replicate,
      if_pos (by omega), if_pos (by omega), List.getElem?_replicate, if_pos (by omega)]

end Sys2Proof.Machine
end

