-- ==== Sys2Proof/Laws/Config.lean ====
section
/-! SUPPORT. What valid parameters (spec/00_scope.md R5) give, one fact for each lemma. -/

namespace Sys2Proof.Machine

section
variable {c : Config} (h : configValid c = true)
include h

theorem configValid_capacities : capacitiesValid c = true := by
  simp only [configValid, Bool.and_eq_true] at h; exact h.1.1.1

theorem configValid_areas : areasValid c = true := by
  simp only [configValid, Bool.and_eq_true] at h; exact h.1.1.2

theorem configValid_pages : pagesValid c = true := by
  simp only [configValid, Bool.and_eq_true] at h; exact h.1.2

theorem configValid_tables : tablesValid c = true := by
  simp only [configValid, Bool.and_eq_true] at h; exact h.2

theorem cap_le (e : Ep) : c.cap.get e ≤ 1023 := by
  have := configValid_capacities h
  simp only [capacitiesValid, Bool.and_eq_true, decide_eq_true_eq] at this
  cases e <;> simp only [PerEp.get] <;> omega

theorem cap_pos (e : Ep) : 1 ≤ c.cap.get e := by
  have := configValid_capacities h
  simp only [capacitiesValid, Bool.and_eq_true, decide_eq_true_eq] at this
  cases e <;> simp only [PerEp.get] <;> omega

theorem capCtrl_ge : 8 ≤ c.cap.get .ctrl := by
  have := configValid_capacities h
  simp only [capacitiesValid, Bool.and_eq_true, decide_eq_true_eq] at this
  exact this.1.1.1.1.1

theorem capData_ge : 8 ≤ c.cap.get .data := by
  have := configValid_capacities h
  simp only [capacitiesValid, Bool.and_eq_true, decide_eq_true_eq] at this
  exact this.1.1.1.1.2

theorem areasInside_params : areasInside c c.rxOff c.txOff = true := by
  have := configValid_areas h
  simp only [areasValid, Bool.and_eq_true] at this
  exact this.1.2

theorem pageSize_even : c.pageSize % 2 = 0 := by
  have := configValid_pages h
  simp only [pagesValid, Bool.and_eq_true, beq_iff_eq] at this
  exact this.1.1

theorem flashBase_even : c.flashBase.toNat % 2 = 0 := by
  have := configValid_pages h
  simp only [pagesValid, Bool.and_eq_true, beq_iff_eq] at this
  exact this.2

theorem lcDefault_length : c.lcDefault.length = 7 := by
  have := configValid_tables h
  simp only [tablesValid, Bool.and_eq_true, beq_iff_eq] at this
  exact this.1.1.1.1.1

/-- A page starts at an even address (43_bulk R203, 60_exceptions R272). -/
theorem pageBase_even (p : Word16) : oddAddress (pageBase c p) = false := by
  have h1 := flashBase_even h
  have h2 := pageSize_even h
  rw [oddAddress, pageBase, BitVec.getLsbD_ofNat, Nat.testBit_zero]
  have h3 : (c.flashBase.toNat + p.toNat * c.pageSize) % 2 = 0 := by
    rw [Nat.add_mod, h1, Nat.mul_mod, h2]; simp
  simp [h3]

end

/-- Every receive area that lies inside packet memory ends inside it (20_memory R52). -/
theorem rxArea_le {c : Config} {rx tx : PerEp Word16} (h : areasInside c rx tx = true) (e : Ep) :
    unitAddr (rx.get e) 0 + 2 * ceil2 (c.cap.get e) ≤ 2 * c.pmaUnits := by
  simp only [areasInside, bufferAreas, List.all_eq_true, decide_eq_true_eq] at h
  exact h (unitAddr (rx.get e) 0, 2 * ceil2 (c.cap.get e)) (by cases e <;> simp)

/-- Every transmit area that lies inside packet memory ends inside it (20_memory R52). -/
theorem txArea_le {c : Config} {rx tx : PerEp Word16} (h : areasInside c rx tx = true) (e : Ep) :
    unitAddr (tx.get e) 0 + 2 * ceil2 (c.cap.get e) ≤ 2 * c.pmaUnits := by
  simp only [areasInside, bufferAreas, List.all_eq_true, decide_eq_true_eq] at h
  exact h (unitAddr (tx.get e) 0, 2 * ceil2 (c.cap.get e)) (by cases e <;> simp)

theorem ceil2_mono {m n : Nat} (h : m ≤ n) : ceil2 m ≤ ceil2 n := by simp only [ceil2]; omega

end Sys2Proof.Machine
end

