-- ==== Sys2Proof/Laws/Flags.lean ====
section
/-! SUPPORT. The register algebra (spec/40_endpoint_register.md): what the words the operations write do to a
register. -/

namespace Sys2Proof.Machine

/-- Two registers that agree on all sixteen bits are equal. -/
theorem word16_ext {x y : Word16} (h : ∀ i : Fin 16, x.getLsbD i = y.getLsbD i) : x = y :=
  BitVec.eq_of_getLsbD_eq (fun i hi => h ⟨i, hi⟩)

/-- A write of the word of `set_status`, over the value it was computed from, changes one status field and nothing
else (R113). -/
theorem regWriteValue_setStatusWord (r : Word16) (d : Dir) (t : Stat) :
    regWriteValue r (setStatusWord d t r) = withStatus r d t := by
  apply word16_ext
  intro i
  simp only [regWriteValue, setStatusWord, withStatus, withBits, statusMask, transitionBits, preserveMask]
  generalize statCode t = k
  cases d <;> fin_cases i <;> simp

/-- A write of the word of `clear_ctr` clears one flag, or both (R118). -/
theorem regWriteValue_clearCtrWord (both : Bool) (r : Word16) (d : Dir) :
    regWriteValue r (clearCtrWord both d r) = r &&& ~~~(if both then 0x8080#16 else flagBit d) := by
  apply word16_ext
  intro i
  cases both <;> cases d <;> fin_cases i <;> simp [regWriteValue, clearCtrWord, flagBit]

/-- A write of the word of `ep_configure` leaves `SETUP` alone and fixes every other bit (R120). -/
theorem regWriteValue_epConfigureWord (r : Word16) (type : EpType) (addr : BitVec 4) (rx tx : Stat) :
    regWriteValue r (epConfigureWord type addr rx tx r) =
      (r &&& 0x0800#16) ||| ((epTypeCode type).setWidth 16 <<< 9) ||| addr.setWidth 16 ||| transitionBits .rx rx |||
        transitionBits .tx tx := by
  apply word16_ext
  intro i
  generalize hw : epTypeCode type = k
  simp only [regWriteValue, epConfigureWord, hw, transitionBits]
  generalize statCode rx = a
  generalize statCode tx = b
  fin_cases i <;> simp

/-- The field `withStatus` sets. -/
@[simp] theorem eprStat_withStatus_self (r : Word16) (d : Dir) (t : Stat) : eprStat (withStatus r d t) d = t := by
  have h : (withStatus r d t).extractLsb' (match d with | .rx => 12 | .tx => 4) 2 = statCode t := by
    apply BitVec.eq_of_getLsbD_eq
    intro i hi
    have : i = 0 ∨ i = 1 := by omega
    cases d <;> cases t <;> rcases this with rfl | rfl <;>
      simp [withStatus, withBits, statusMask, transitionBits, statCode]
  cases d <;> simp only [eprStat] <;> simp only at h <;> rw [h] <;> cases t <;> rfl

/-- The other direction's field. -/
theorem eprStat_withStatus_other (r : Word16) {d d' : Dir} (t : Stat) (h : d' ≠ d) :
    eprStat (withStatus r d t) d' = eprStat r d' := by
  have e : (withStatus r d t).extractLsb' (match d' with | .rx => 12 | .tx => 4) 2
      = r.extractLsb' (match d' with | .rx => 12 | .tx => 4) 2 := by
    apply BitVec.eq_of_getLsbD_eq
    intro i hi
    have : i = 0 ∨ i = 1 := by omega
    simp only [withStatus, withBits, statusMask, transitionBits]
    generalize statCode t = k
    cases d <;> cases d' <;> first | exact absurd rfl h | (rcases this with rfl | rfl <;> simp)
  cases d' <;> simp only [eprStat] <;> simp only at e <;> rw [e]

/-- Setting a status twice is setting it once (R119b). -/
@[simp] theorem withStatus_withStatus (r : Word16) (d : Dir) (t u : Stat) :
    withStatus (withStatus r d t) d u = withStatus r d u := by
  apply word16_ext
  intro i
  simp only [withStatus, withBits, statusMask, transitionBits]
  generalize statCode t = k
  generalize statCode u = l
  cases d <;> fin_cases i <;> simp

/-- The completion flags are no part of a status field. -/
@[simp] theorem eprFlag_withStatus (r : Word16) (d d' : Dir) (t : Stat) :
    eprFlag (withStatus r d t) d' = eprFlag r d' := by
  simp only [eprFlag, withStatus, withBits, statusMask, transitionBits]
  generalize statCode t = k
  cases d <;> cases d' <;> simp

end Sys2Proof.Machine
end

