-- ==== Sys2Proof/Laws/Quiet.lean ====
section
/-! SUPPORT. What each shared operation does when the bus side makes no move between its accesses
(`between = []`): one equation for each, which later proofs cite instead of unfolding the operation. -/

namespace Sys2Proof.Machine

variable {c : Config} {h : Hw}

/-- With nothing scheduled a slot does nothing. -/
theorem Hw.slot_quiet (q : h.between = []) : h.slot c = h := by rw [Hw.slot, q]

theorem Hw.regWrite_quiet (q : h.between = []) (e : Ep) (v : Word16) :
    Hw.regWrite c e v h = { h with epr := h.epr.set e (regWriteValue (h.epr.get e) v) } := by
  simp only [Hw.regWrite, Hw.slot_quiet q]

theorem Hw.setStatus_quiet (q : h.between = []) (e : Ep) (d : Dir) (t : Stat) :
    Hw.setStatus c e d t h = h.setTo e d t := by
  simp only [Hw.setStatus, Hw.slot_quiet q, Hw.regWrite_quiet q, regWriteValue_setStatusWord, Hw.setTo]

theorem Hw.stall_quiet (q : h.between = []) (e : Ep) :
    Hw.stall c e h = (h.setTo e .rx .stall).setTo e .tx .stall := by
  rw [Hw.stall, Hw.setStatus_quiet q, Hw.setStatus_quiet (by exact q)]

theorem Hw.unstall_quiet (q : h.between = []) (e : Ep) :
    Hw.unstall c e h = (h.setTo e .rx .valid).setTo e .tx .nak := by
  rw [Hw.unstall, Hw.setStatus_quiet q, Hw.setStatus_quiet (by exact q)]

theorem Hw.markRxDone_quiet (q : h.between = []) (e : Ep) : Hw.markRxDone c e h = h.setTo e .rx .valid :=
  Hw.setStatus_quiet q e .rx .valid

theorem Hw.markTxReady_quiet (q : h.between = []) (e : Ep) : Hw.markTxReady c e h = h.setTo e .tx .valid :=
  Hw.setStatus_quiet q e .tx .valid

theorem Hw.clearCtr_quiet (q : h.between = []) (e : Ep) (d : Dir) :
    Hw.clearCtr c e d h =
      { h with epr := h.epr.set e (h.epr.get e &&& ~~~(if c.ctrClearBoth then 0x8080#16 else flagBit d)) } := by
  simp only [Hw.clearCtr, Hw.slot_quiet q, Hw.regWrite_quiet q, regWriteValue_clearCtrWord]

/-! ## read -/

/-- A bit of an assembled unit. -/
theorem getLsbD_le16 (lo hi : Byte) (i : Nat) :
    (le16 lo hi).getLsbD i = if i < 8 then lo.getLsbD i else hi.getLsbD (i - 8) :=
  BitVec.getLsbD_append

theorem bytesOf16_le16 (lo hi : Byte) : bytesOf16 (le16 lo hi) = [lo, hi] := by
  have hlo : (le16 lo hi).extractLsb' 0 8 = lo :=
    BitVec.eq_of_getLsbD_eq (fun i hi' => by
      rw [BitVec.getLsbD_extractLsb', getLsbD_le16, if_pos (by omega)]; simp [hi'])
  have hhi : (le16 lo hi).extractLsb' 8 8 = hi :=
    BitVec.eq_of_getLsbD_eq (fun i hi' => by
      rw [BitVec.getLsbD_extractLsb', getLsbD_le16, if_neg (by omega)]; simp [hi'])
  rw [bytesOf16, hlo, hhi]

@[simp] theorem Hw.pmaBytes_length (a n : Nat) : (h.pmaBytes a n).length = n := by simp [Hw.pmaBytes]

theorem Hw.pmaBytes_succ (a n : Nat) : h.pmaBytes a (n + 1) = h.pmaByte a :: h.pmaBytes (a + 1) n := by
  simp only [Hw.pmaBytes, List.range_succ_eq_map, List.map_cons, List.map_map, Nat.add_zero]
  congr 1
  exact List.map_congr_left (fun i _ => by simp only [Function.comp, Nat.succ_eq_add_one]; congr 1; omega)

theorem Hw.take_pmaBytes (a : Nat) {m n : Nat} (hmn : m ≤ n) : (h.pmaBytes a n).take m = h.pmaBytes a m := by
  simp only [Hw.pmaBytes, ← List.map_take, List.take_range, Nat.min_eq_left hmn]

theorem Hw.readUnits_quiet (q : h.between = []) (k a : Nat) :
    Hw.readUnits c k a h = (h.pmaBytes a (2 * k), h) := by
  induction k generalizing a with
  | zero => rfl
  | succ k ih =>
    simp only [Hw.readUnits, Hw.slot_quiet q, ih, Hw.pmaUnit, bytesOf16_le16]
    rw [show 2 * (k + 1) = 2 * k + 1 + 1 by omega, Hw.pmaBytes_succ, Hw.pmaBytes_succ]
    rfl

/-- A `read` brings the received bytes, and on the control endpoint arms reception (41_buffer R130). -/
theorem Hw.read_quiet (q : h.between = []) (e : Ep) (m : Nat) :
    Hw.read c e m h =
      (h.received e (h.readable c e m), if e = .ctrl then h.setTo .ctrl .rx .valid else h) := by
  simp only [Hw.read, Hw.slot_quiet q, Hw.readUnits_quiet q, Hw.markRxDone_quiet q]
  rw [Hw.take_pmaBytes _ (by simp only [ceil2]; omega)]
  cases e <;> rfl

/-! ## write -/

/-- Bytes as whole units, an odd last byte with a high half of 0. -/
def padded (b : List Byte) : List Byte := if b.length % 2 = 1 then b ++ [0] else b

theorem padded_length (b : List Byte) : (padded b).length = 2 * ceil2 b.length := by
  rw [padded, ceil2]
  split
  · rw [List.length_append, List.length_singleton]; omega
  · omega

theorem padded_cons_cons (lo hi : Byte) (b : List Byte) : padded (lo :: hi :: b) = lo :: hi :: padded b := by
  have h : (b.length + 1 + 1) % 2 = b.length % 2 := by omega
  simp only [padded, List.length_cons, h]
  split <;> rfl

/-- Two stores, one after the other, are one store. -/
theorem Memory.store_store (m : Memory) (a : Nat) (x y : List Byte) :
    (m.store a x).store (a + x.length) y = m.store a (x ++ y) := by
  have cells_append : ∀ (x y : List Byte) (a : Nat),
      Memory.cells a (x ++ y) = Memory.cells a x ++ Memory.cells (a + x.length) y := by
    intro x y
    induction x with
    | nil => simp [Memory.cells]
    | cons b x ih => intro a; simp [Memory.cells, ih, Nat.add_assoc, Nat.add_comm 1]
  have lowCells : (Memory.cells a x).filter (fun c => decide (c.1 < a + x.length)) = Memory.cells a x :=
    List.filter_eq_self.mpr (fun c hc => decide_eq_true (Memory.mem_cells hc).2)
  have highCells : (Memory.cells a x).filter (fun c => decide (a + x.length + y.length ≤ c.1)) = [] :=
    List.filter_eq_nil_iff.mpr (fun c hc => by have := (Memory.mem_cells hc).2; simpa using by omega)
  have e1 : (m.filter (fun c => decide (c.1 < a))).filter (fun c => decide (c.1 < a + x.length))
      = m.filter (fun c => decide (c.1 < a)) := by
    rw [List.filter_filter]; congr 1; funext c; rw [← Bool.decide_and]; exact decide_eq_decide.mpr (by omega)
  have e2 : (m.filter (fun c => decide (a + x.length ≤ c.1))).filter (fun c => decide (c.1 < a + x.length)) = [] := by
    rw [List.filter_filter]; exact List.filter_eq_nil_iff.mpr (fun c _ => by simp; try omega)
  have e3 : (m.filter (fun c => decide (c.1 < a))).filter (fun c => decide (a + x.length + y.length ≤ c.1)) = [] := by
    rw [List.filter_filter]; exact List.filter_eq_nil_iff.mpr (fun c _ => by simp; try omega)
  have e4 : (m.filter (fun c => decide (a + x.length ≤ c.1))).filter
      (fun c => decide (a + x.length + y.length ≤ c.1)) = m.filter (fun c => decide (a + (x ++ y).length ≤ c.1)) := by
    rw [List.filter_filter]; congr 1; funext c; rw [List.length_append, ← Bool.decide_and]; exact decide_eq_decide.mpr (by omega)
  simp only [Memory.store, List.filter_append, lowCells, highCells, e1, e2, e3, e4, cells_append,
    List.append_nil, List.nil_append, List.append_assoc]

theorem Hw.writeUnits_quiet (q : h.between = []) (a : Nat) (b : List Byte) :
    Hw.writeUnits c a b h = { h with pma := if b = [] then h.pma else h.pma.store a (padded b) } := by
  induction a, b, h using Hw.writeUnits.induct c with
  | case1 a h => rfl
  | case2 a lo h =>
    simp only [Hw.writeUnits, Hw.slot_quiet q, Hw.putUnit, bytesOf16_le16]
    rfl
  | case3 a lo hi rest h ih =>
    rw [Hw.slot_quiet q] at ih
    rw [Hw.writeUnits, Hw.slot_quiet q, ih q]
    simp only [Hw.putUnit, bytesOf16_le16]
    congr 1
    match rest with
    | [] => simp [padded]
    | r :: rest =>
      rw [if_neg (List.cons_ne_nil _ _), if_neg (List.cons_ne_nil _ _), padded_cons_cons]
      exact Memory.store_store h.pma a [lo, hi] (padded (r :: rest))

/-- The registers and packet memory after `b` is queued on endpoint `e` (41_buffer R131). -/
def Hw.afterWrite (h : Hw) (e : Ep) (b : List Byte) : Hw :=
  { h with
    pma := if b = [] then h.pma else h.pma.store (h.txBase e) (padded b)
    txCount := h.txCount.set e (BitVec.ofNat 10 b.length)
    epr := h.epr.set e (withStatus (h.epr.get e) .tx .valid) }

@[simp] theorem queuedBytes_length (n : Nat) (e : Ep) (src : List Byte) (count : Nat) :
    (queuedBytes c n e src count).length = min count (c.cap.get e) := by simp [queuedBytes, sliceOf]

theorem Hw.write_quiet (q : h.between = []) (e : Ep) (src : List Byte) (count : Nat) :
    Hw.write c e src count h =
      (min count (c.cap.get e), h.afterWrite e (queuedBytes c h.powerOns e src count)) := by
  simp only [Hw.write, Hw.writeUnits_quiet q, queuedBytes_length]
  rw [Hw.slot_quiet (by exact q), Hw.markTxReady_quiet (by exact q)]
  simp [Hw.afterWrite, Hw.setTo, Hw.txBase]

/-- Bytes that a caller's buffer holds are what `write` queues. -/
theorem queuedBytes_of_le (n : Nat) (e : Ep) {src : List Byte} {count : Nat} (hl : count ≤ src.length) :
    queuedBytes c n e src count = src.take (min count (c.cap.get e)) := by
  apply List.ext_getElem
  · simp; omega
  · intro i h1 h2
    simp only [queuedBytes_length] at h1
    simp [queuedBytes, sliceOf, List.getD_eq_getElem?_getD, List.getElem?_eq_getElem (show i < src.length by omega)]

/-- `afterWrite` is what `queues` describes. -/
theorem Hw.afterWrite_queues (e : Ep) (b : List Byte) : Hw.queues e b h (h.afterWrite e b) := by
  have hp : ∀ a, (h.afterWrite e b).pmaByte a =
      ((if b = [] then h.pma else h.pma.store (h.txBase e) (padded b)).read? a).getD
        (Config.unspecifiedByte .pma h.powerOns a) := fun _ => rfl
  refine ⟨?_, ?_, ?_, rfl⟩
  · intro i x hx
    have hi : i < b.length := (List.getElem?_eq_some_iff.mp hx).1
    have hb : b ≠ [] := by rintro rfl; simp at hi
    rw [hp, if_neg hb, Memory.read?_store_at _ _ _ (by rw [padded_length]; simp only [ceil2]; omega)]
    have : (padded b)[i]? = some x := by
      rw [padded]; split
      · rw [List.getElem?_append_left hi, hx]
      · exact hx
    rw [Option.getD_some]
    exact (List.getElem?_eq_some_iff.mp this).2
  · intro hodd
    have hb : b ≠ [] := by rintro rfl; simp at hodd
    rw [hp, if_neg hb, Memory.read?_store_at _ _ _ (by rw [padded_length]; simp only [ceil2]; omega)]
    simp [padded, hodd]
  · intro a ha
    rw [hp]
    split
    · rfl
    · rw [Memory.read?_store_outside _ _ _ (by rw [padded_length]; exact ha)]; rfl

end Sys2Proof.Machine
end

