-- ==== Sys2Proof/Laws/Legal.lean ====
section
/-! SUPPORT. Every operation on the shared registers keeps `Hw.Legal`, whatever the bus side does between its
accesses. -/

namespace Sys2Proof.Machine

variable {c : Config} {h : Hw}

/-- `Hw.Legal` speaks of packet memory, offsets, counts and CNTR alone. -/
theorem Hw.Legal.of_same {h' : Hw} (L : h.Legal c) (e1 : h'.pma = h.pma) (e2 : h'.txOffset = h.txOffset)
    (e3 : h'.rxOffset = h.rxOffset) (e4 : h'.txCount = h.txCount) (e5 : h'.rxCount = h.rxCount)
    (e6 : h'.cntr = h.cntr) : h'.Legal c where
  canonical := e1 ▸ L.canonical
  inside := e1 ▸ L.inside
  txOffsets := e2 ▸ L.txOffsets
  rxOffsets := e3 ▸ L.rxOffsets
  rxCounts := e5 ▸ L.rxCounts
  txCounts := e4 ▸ L.txCounts
  lowPower := e6 ▸ L.lowPower

/-- A store of whole units inside packet memory keeps it legal. -/
theorem Hw.Legal.store (L : h.Legal c) {a : Nat} {b : List Byte} (hb : a + b.length ≤ 2 * c.pmaUnits) :
    ({ h with pma := h.pma.store a b } : Hw).Legal c :=
  { L with
    canonical := Memory.store_wf L.canonical a b
    inside := fun x hx => by
      rcases Memory.mem_store hx with hx | hx
      · exact L.inside x hx
      · omega }

theorem Hw.Legal.areasInside (v : configValid c = true) (L : h.Legal c) :
    Machine.areasInside c h.rxOffset h.txOffset = true := by
  rw [L.rxOffsets, L.txOffsets]; exact areasInside_params v

theorem count_le {n cap : Nat} (hn : n ≤ cap) : (BitVec.ofNat 10 n).toNat ≤ cap := by
  rw [BitVec.toNat_ofNat]; exact Nat.le_trans (Nat.mod_le _ _) hn

/-! ## The bus side -/

theorem Hw.Legal.receive (v : configValid c = true) (L : h.Legal c) {e : Ep} {b : List Byte} (tail : Byte)
    (hb : b.length ≤ c.cap.get e) : (h.receive e b tail).Legal c := by
  have ha := rxArea_le (L.areasInside v) e
  have hc := ceil2_mono hb
  have hs := L.store (a := unitAddr (h.rxOffset.get e) 0) (b := if b.length % 2 = 1 then b ++ [tail] else b) (by
    simp only [ceil2] at ha hc
    split
    · rw [List.length_append, List.length_singleton]; omega
    · omega)
  refine { hs with rxCounts := fun f => ?_ }
  change ((h.rxCount.set e (BitVec.ofNat 10 b.length)).get f).toNat ≤ _
  rw [PerEp.get_set]
  split
  · subst_vars; exact count_le hb
  · exact L.rxCounts f

theorem Hw.Legal.move (v : configValid c = true) (L : h.Legal c) (m : BusMove) : (Hw.move c h m).Legal c := by
  cases m with
  | setup a b dr dt =>
    simp only [Hw.move, Hw.busSetup]
    split
    · exact L.of_same rfl rfl rfl rfl rfl rfl
    · split
      · exact L.of_same rfl rfl rfl rfl rfl rfl
      · rename_i hn
        have hl : b.length = 8 := by
          simp only [Bool.or_eq_true, not_or] at hn; simpa using hn.2
        exact (L.receive v 0 (e := .ctrl) (b := b) (by rw [hl]; exact capCtrl_ge v)).of_same rfl rfl rfl rfl rfl rfl
  | out a e b tail dr =>
    simp only [Hw.move, Hw.busOut]
    split
    · exact L.of_same rfl rfl rfl rfl rfl rfl
    · split
      · exact L.of_same rfl rfl rfl rfl rfl rfl
      · split
        · exact L.of_same rfl rfl rfl rfl rfl rfl
        · exact (L.receive v tail (e := e) (b := b) (by omega)).of_same rfl rfl rfl rfl rfl rfl
  | take a e dt =>
    simp only [Hw.move, Hw.busIn]
    split
    · exact L.of_same rfl rfl rfl rfl rfl rfl
    · split <;> exact L.of_same rfl rfl rfl rfl rfl rfl
  | refuse a e d =>
    simp only [Hw.move, Hw.busRefuse]
    split <;> exact L.of_same rfl rfl rfl rfl rfl rfl
  | reset => exact L.of_same rfl rfl rfl rfl rfl rfl
  | cause k => exact L.of_same rfl rfl rfl rfl rfl rfl

theorem Hw.Legal.moves (v : configValid c = true) (L : h.Legal c) (ms : List BusMove) :
    (ms.foldl (Hw.move c) h).Legal c := by
  induction ms generalizing h with
  | nil => exact L
  | cons m ms ih => exact ih (L.move v m)

theorem Hw.Legal.slot (v : configValid c = true) (L : h.Legal c) : (h.slot c).Legal c := by
  rw [Hw.slot]
  split
  · exact L
  · rename_i moves rest _
    exact Hw.Legal.moves (h := { h with between := rest }) v (L.of_same rfl rfl rfl rfl rfl rfl) moves

/-! ## The block's operations -/

section
variable (v : configValid c = true) (L : h.Legal c)
include v L

theorem Hw.Legal.regWrite (e : Ep) (w : Word16) : (Hw.regWrite c e w h).Legal c :=
  (L.slot v).of_same rfl rfl rfl rfl rfl rfl

theorem Hw.Legal.setStatus (e : Ep) (d : Dir) (t : Stat) : (Hw.setStatus c e d t h).Legal c :=
  (L.slot v).regWrite v e _

theorem Hw.Legal.stall (e : Ep) : (Hw.stall c e h).Legal c := (L.setStatus v e _ _).setStatus v e _ _

theorem Hw.Legal.unstall (e : Ep) : (Hw.unstall c e h).Legal c := (L.setStatus v e _ _).setStatus v e _ _

theorem Hw.Legal.markRxDone (e : Ep) : (Hw.markRxDone c e h).Legal c := L.setStatus v e _ _

theorem Hw.Legal.markTxReady (e : Ep) : (Hw.markTxReady c e h).Legal c := L.setStatus v e _ _

theorem Hw.Legal.clearCtr (e : Ep) (d : Dir) : (Hw.clearCtr c e d h).Legal c := (L.slot v).regWrite v e _

theorem Hw.Legal.epConfigure (e : Ep) (type : EpType) (addr : BitVec 4) (rx tx : Stat) :
    (Hw.epConfigure c e type addr rx tx h).Legal c := (L.slot v).regWrite v e _

end

theorem Hw.Legal.readUnits (v : configValid c = true) (L : h.Legal c) (k a : Nat) :
    (Hw.readUnits c k a h).2.Legal c := by
  induction k generalizing a h with
  | zero => exact L
  | succ k ih => exact ih (L.slot v) (a + 2)

theorem Hw.readUnits_length (k a : Nat) : (Hw.readUnits c k a h).1.length = 2 * k := by
  induction k generalizing a h with
  | zero => rfl
  | succ k ih =>
    rw [Hw.readUnits]
    simp only [List.length_append, ih]
    simp only [bytesOf16, List.length_cons, List.length_nil]; omega

theorem Hw.Legal.read (v : configValid c = true) (L : h.Legal c) (e : Ep) (m : Nat) :
    (Hw.read c e m h).2.Legal c := by
  have L1 := L.slot v
  cases e with
  | ctrl => exact (L1.readUnits v _ _).markRxDone v .ctrl
  | data => exact L1.readUnits v _ _
  | comm => exact L1.readUnits v _ _

/-- A `read` brings at most as many bytes as were asked for, and no more than the capacity (41_buffer R130). -/
theorem Hw.read_length (e : Ep) (m : Nat) :
    (Hw.read c e m h).1.length = min m (min (((h.slot c).rxCount.get e).toNat) (c.cap.get e)) := by
  simp only [Hw.read, List.length_take, Hw.readUnits_length, ceil2]
  omega

theorem Hw.Legal.writeUnits (v : configValid c = true) (L : h.Legal c) {a : Nat} {b : List Byte}
    (hb : a + 2 * ceil2 b.length ≤ 2 * c.pmaUnits) : (Hw.writeUnits c a b h).Legal c := by
  induction a, b, h using Hw.writeUnits.induct c with
  | case1 a h => exact L
  | case2 a lo h =>
    simp only [Hw.writeUnits, Hw.putUnit, bytesOf16_le16]
    refine (L.slot v).store ?_
    simp only [ceil2, List.length_cons, List.length_nil] at hb ⊢; omega
  | case3 a lo hi rest h ih =>
    rw [Hw.writeUnits]
    simp only [ceil2, List.length_cons] at hb
    refine ih ?_ (by simp only [ceil2]; omega)
    simp only [Hw.putUnit, bytesOf16_le16]
    refine (L.slot v).store ?_
    simp only [List.length_cons, List.length_nil]; omega

theorem Hw.Legal.putTxCount (L : h.Legal c) {e : Ep} {n : Nat} (hn : n ≤ c.cap.get e) :
    ({ h with txCount := h.txCount.set e (BitVec.ofNat 10 n) } : Hw).Legal c := by
  refine { L with txCounts := fun f => ?_ }
  change ((h.txCount.set e (BitVec.ofNat 10 n)).get f).toNat ≤ _
  rw [PerEp.get_set]
  split
  · subst_vars; exact count_le hn
  · exact L.txCounts f

theorem Hw.Legal.write (v : configValid c = true) (L : h.Legal c) (e : Ep) (src : List Byte) (count : Nat) :
    (Hw.write c e src count h).2.Legal c := by
  have hq : (queuedBytes c h.powerOns e src count).length ≤ c.cap.get e := by simp
  have ha := txArea_le (L.areasInside v) e
  have hc := ceil2_mono hq
  have L1 : (Hw.writeUnits c (unitAddr (h.txOffset.get e) 0) (queuedBytes c h.powerOns e src count) h).Legal c :=
    L.writeUnits v (by omega)
  exact ((L1.slot v).putTxCount hq).markTxReady v e

theorem Hw.write_count_le (e : Ep) (src : List Byte) (count : Nat) :
    (Hw.write c e src count h).1 = min count (c.cap.get e) := by simp [Hw.write]

theorem Hw.Legal.putLowPower (v : configValid c = true) (L : h.Legal c) (on : Bool) :
    (Hw.putLowPower c on h).Legal c := by
  have bitsOk : ∀ (r : Word16), r &&& 0xFFF3#16 = 0 → ∀ m : Word16, m &&& 0xFFF3#16 = 0 → ∀ b : Bool,
      withBits r m (bits b) &&& 0xFFF3#16 = 0 := by
    intro r hr m hm b
    apply word16_ext
    intro i
    have h1 := congrArg (fun x : Word16 => x.getLsbD i) hr
    have h2 := congrArg (fun x : Word16 => x.getLsbD i) hm
    simp only [BitVec.getLsbD_and] at h1 h2 ⊢
    simp only [withBits, BitVec.getLsbD_or, BitVec.getLsbD_and, BitVec.getLsbD_not] at *
    cases hx : (0xFFF3#16).getLsbD i <;> simp_all
  have L1 := L.slot v
  have L2 : ({ h.slot c with cntr := withBits (h.slot c).cntr 0x0008#16 (bits on) } : Hw).Legal c :=
    { L1 with lowPower := bitsOk _ L1.lowPower _ (by decide) on }
  have L3 := L2.slot v
  exact { L3 with lowPower := bitsOk _ L3.lowPower _ (by decide) on }

theorem Hw.Legal.resetConfigure (v : configValid c = true) (L : h.Legal c) (e : Ep) :
    (Machine.resetConfigure c e h).Legal c := by cases e <;> exact L.epConfigure v _ _ _ _ _

theorem Hw.Legal.resetEndpoint (v : configValid c = true) (L : h.Legal c) (e : Ep) :
    (Machine.resetEndpoint c h e).Legal c := by
  have setSame : ∀ p q : PerEp Word16, p = q → p.set e (q.get e) = q := fun p q h => by subst h; simp
  have zeroCount : ∀ p : PerEp (BitVec 10), (∀ f, (p.get f).toNat ≤ c.cap.get f) →
      ∀ f, ((p.set e 0).get f).toNat ≤ c.cap.get f := by
    intro p hp f
    rw [PerEp.get_set]; split
    · exact Nat.zero_le _
    · exact hp f
  have L1 := L.slot v
  have L2 : ({ h.slot c with txOffset := (h.slot c).txOffset.set e (c.txOff.get e) } : Hw).Legal c :=
    { L1 with txOffsets := setSame _ _ L1.txOffsets }
  have L3 := L2.slot v
  have L4 := Hw.Legal.slot v (h := { Hw.slot c _ with rxOffset := (Hw.slot c _).rxOffset.set e (c.rxOff.get e) })
    { L3 with rxOffsets := setSame _ _ L3.rxOffsets }
  have L5 := Hw.Legal.slot v (h := { Hw.slot c _ with txCount := (Hw.slot c _).txCount.set e 0 })
    { L4 with txCounts := zeroCount _ L4.txCounts }
  exact Hw.Legal.resetConfigure v (h := { Hw.slot c _ with rxCount := (Hw.slot c _).rxCount.set e 0 })
    { L5 with rxCounts := zeroCount _ L5.rxCounts } e

theorem Hw.Legal.putDaddr (v : configValid c = true) (L : h.Legal c) (a : BitVec 8) :
    (Hw.putDaddr c a h).Legal c := (L.slot v).of_same rfl rfl rfl rfl rfl rfl

end Sys2Proof.Machine
end

