-- ==== Sys2Proof/Laws/Run.lean ====
section
/-! SUPPORT. When an operation answers a next state, and which; and the whole-state operations with the bus side
still. -/

namespace Sys2Proof.Machine

/-! ## `env` and `run` -/

theorem State.env_of_ready {s : State} (r : s.ready) (k : State → State) : s.env k = .next (k s) := by
  simp [State.env, r.1, r.2]

theorem State.run_of_runnable {s : State} (r : s.runnable) (k : State → State) : s.run k = .next (k s) := by
  simp only [State.run, r.2]
  exact State.env_of_ready r.1 k

/-- What an environment's move can answer with. -/
theorem State.env_next {s t : State} {k : State → State} (h : s.env k = .next t) : s.ready ∧ t = k s := by
  rw [State.env] at h
  split at h
  · cases h
  · split at h
    · cases h
    · rename_i h1 h2
      simp only [Bool.not_eq_true', Bool.not_eq_false] at h1 h2
      cases h
      exact ⟨⟨h1, h2⟩, rfl⟩

/-- What an operation of the block can answer with. -/
theorem State.run_next {s t : State} {k : State → State} (h : s.run k = .next t) : s.runnable ∧ t = k s := by
  rw [State.run] at h
  split at h
  · cases h
  · rename_i hf
    obtain ⟨r, e⟩ := State.env_next h
    exact ⟨⟨r, hf⟩, e⟩

/-- FlashFatal has stopped the block (60_exceptions R272). -/
theorem State.run_of_fatal {s : State} {a : Addr32} (h : s.fatal = some a) (k : State → State) :
    s.run k = .fault (.flashFatal a) := by rw [State.run, h]

theorem runSetup_of_runnable {s : State} (r : s.runnable) (p : List Byte) (rule : State → State) :
    runSetup p rule s = .next (rule (s.capture p)) := State.run_of_runnable r _

/-! ## Whole-state operations, the bus side still -/

section
variable {s : State} (q : s.quiet)
include q

theorem State.slot_quiet : s.slot = s := by
  rw [State.slot, State.onHw, Hw.slot_quiet q]

theorem State.send_quiet (e : Ep) (src : List Byte) (count : Nat) :
    s.send e src count = { s with hw := s.hw.afterWrite e (queuedBytes s.cfg s.hw.powerOns e src count) } := by
  rw [State.send, State.onHw, Hw.write_quiet q]

theorem State.readInto_quiet (e : Ep) (d : Buffer) (m : Nat) :
    s.readInto e d m =
      ({ s with hw := if e = .ctrl then s.hw.setTo .ctrl .rx .valid else s.hw } : State).withBuffer d
        (overlay (s.buffer d) (s.hw.received e (s.hw.readable s.cfg e m))) := by
  simp only [State.readInto, Hw.read_quiet q, State.fill_eq_withBuffer]
  cases d <;> rfl

theorem State.raiseCtrlStall_quiet :
    s.raiseCtrlStall = { s with hw := s.hw.setTo .ctrl .rx .stall, ctl.ctlState := .idle } := by
  rw [State.raiseCtrlStall, State.onHw, Hw.setStatus_quiet q]

end

end Sys2Proof.Machine
end

