-- ==== Sys2Proof/Laws/Areas.lean ====
section
/-! SUPPORT. No operation moves a buffer area (spec/10_state.md R11: the offsets change at a bus reset alone), nor
FlashFatal but a flash call: so where one operation runs, the next one runs. -/

namespace Sys2Proof.Machine

variable {c : Config} {h : Hw}

/-- The offsets of `h'` are those of `h`. -/
def Hw.SameAreas (h h' : Hw) : Prop := h'.txOffset = h.txOffset ∧ h'.rxOffset = h.rxOffset

theorem Hw.SameAreas.refl (h : Hw) : h.SameAreas h := ⟨rfl, rfl⟩

theorem Hw.SameAreas.trans {h g k : Hw} (a : h.SameAreas g) (b : g.SameAreas k) : h.SameAreas k :=
  ⟨b.1.trans a.1, b.2.trans a.2⟩

theorem Hw.move_areas (m : BusMove) : h.SameAreas (Hw.move c h m) := by
  cases m <;>
    simp only [Hw.move, Hw.busSetup, Hw.busOut, Hw.busIn, Hw.busRefuse, Hw.busReset, Hw.busCause, Hw.reply,
      Hw.receive] <;>
    (repeat' split) <;> exact ⟨rfl, rfl⟩

theorem Hw.moves_areas (ms : List BusMove) : h.SameAreas (ms.foldl (Hw.move c) h) := by
  induction ms generalizing h with
  | nil => exact .refl _
  | cons m ms ih => exact (Hw.move_areas m).trans ih

theorem Hw.slot_areas : h.SameAreas (h.slot c) := by
  rw [Hw.slot]
  split
  · exact .refl _
  · rename_i moves rest _
    exact (show h.SameAreas { h with between := rest } from ⟨rfl, rfl⟩).trans (Hw.moves_areas moves)

theorem Hw.regWrite_areas (e : Ep) (w : Word16) : h.SameAreas (Hw.regWrite c e w h) := Hw.slot_areas (h := h)

theorem Hw.setStatus_areas (e : Ep) (d : Dir) (t : Stat) : h.SameAreas (Hw.setStatus c e d t h) :=
  Hw.slot_areas.trans (Hw.regWrite_areas e _)

theorem Hw.clearCtr_areas (e : Ep) (d : Dir) : h.SameAreas (Hw.clearCtr c e d h) :=
  Hw.slot_areas.trans (Hw.regWrite_areas e _)

theorem Hw.readUnits_areas (k a : Nat) : h.SameAreas (Hw.readUnits c k a h).2 := by
  induction k generalizing a h with
  | zero => exact .refl _
  | succ k ih => exact Hw.slot_areas.trans (ih (a + 2))

theorem Hw.read_areas (e : Ep) (m : Nat) : h.SameAreas (Hw.read c e m h).2 := by
  cases e with
  | ctrl => exact (Hw.slot_areas.trans (Hw.readUnits_areas _ _)).trans (Hw.setStatus_areas _ _ _)
  | data => exact Hw.slot_areas.trans (Hw.readUnits_areas _ _)
  | comm => exact Hw.slot_areas.trans (Hw.readUnits_areas _ _)

theorem Hw.writeUnits_areas (a : Nat) (b : List Byte) : h.SameAreas (Hw.writeUnits c a b h) := by
  induction a, b, h using Hw.writeUnits.induct c with
  | case1 a h => exact .refl _
  | case2 a lo h => exact Hw.slot_areas (h := h)
  | case3 a lo hi rest h ih =>
    exact (show h.SameAreas ((h.slot c).putUnit a (le16 lo hi)) from Hw.slot_areas (h := h)).trans ih

theorem Hw.write_areas (e : Ep) (src : List Byte) (count : Nat) : h.SameAreas (Hw.write c e src count h).2 :=
  ((Hw.writeUnits_areas _ _).trans (Hw.slot_areas)).trans
    (Hw.setStatus_areas (h := { Hw.slot c _ with txCount := _ }) e .tx .valid)

/-- Where one operation runs, one runs on a state with the same parameters, areas and FlashFatal. -/
theorem State.runnable.keep {s t : State} (r : s.runnable) (hc : t.cfg = s.cfg) (ha : s.hw.SameAreas t.hw)
    (hf : t.fatal = s.fatal) : t.runnable := by
  obtain ⟨⟨v, a⟩, f⟩ := r
  refine ⟨⟨hc ▸ v, ?_⟩, hf.trans f⟩
  rw [State.areasInside, hc, ha.1, ha.2]
  exact a

theorem State.runnable.onHw {s : State} (r : s.runnable) {f : Config → Hw → Hw} (ha : s.hw.SameAreas (f s.cfg s.hw)) :
    (s.onHw f).runnable := r.keep rfl ha rfl

end Sys2Proof.Machine
end

