-- ==== Sys2Proof/Laws/Decode.lean ====
section
/-! SUPPORT. The decoder on fields: which row a SETUP key selects as a function of type, request code and descriptor
type, and the fields of an encoded packet. -/

namespace Sys2Proof

/-! ## Fields of a packet -/

theorem le16_bytes (v : Word16) : le16 (v.extractLsb' 0 8) (v.extractLsb' 8 8) = v := by
  apply BitVec.eq_of_getLsbD_eq
  intro i hi
  rw [Machine.getLsbD_le16]
  split
  · simp [*]
  · have h : i - 8 < 8 := by omega
    have h' : 8 + (i - 8) = i := by omega
    simp [h, h']

theorem requestType_dir (d : Bool) (t : BitVec 2) (p : BitVec 5) : (requestType d t p).getLsbD 7 = d := by
  have : (requestType d t p).getLsbD 7 = (BitVec.ofBool d ++ t ++ p : BitVec (1 + 2 + 5)).getLsbD 7 := rfl
  rw [this, BitVec.getLsbD_append, BitVec.getLsbD_append]
  simp

theorem requestType_rcp (d : Bool) (t : BitVec 2) (p : BitVec 5) : (requestType d t p).extractLsb' 0 5 = p := by
  apply BitVec.eq_of_getLsbD_eq
  intro i hi
  have : (requestType d t p).getLsbD i = (BitVec.ofBool d ++ t ++ p : BitVec (1 + 2 + 5)).getLsbD i := rfl
  rw [BitVec.getLsbD_extractLsb', Nat.zero_add, this, BitVec.getLsbD_append]
  simp [hi]

theorem requestType_type (d : Bool) (t : BitVec 2) (p : BitVec 5) : (requestType d t p).extractLsb' 5 2 = t := by
  apply BitVec.eq_of_getLsbD_eq
  intro i hi
  have : (requestType d t p).getLsbD (5 + i) = (BitVec.ofBool d ++ t ++ p : BitVec (1 + 2 + 5)).getLsbD (5 + i) := rfl
  rw [BitVec.getLsbD_extractLsb', this, BitVec.getLsbD_append, BitVec.getLsbD_append]
  simp [hi]

theorem setupArgs_packetOf (a : SetupArgs) (t : BitVec 2) (r l h : Byte) : setupArgs (packetOf a t r l h) = a := by
  have e : setupArgs (packetOf a t r l h) =
      { dir := (requestType a.dir t a.rcp).getLsbD 7, rcp := (requestType a.dir t a.rcp).extractLsb' 0 5
        wIndex := le16 (a.wIndex.extractLsb' 0 8) (a.wIndex.extractLsb' 8 8)
        wLength := le16 (a.wLength.extractLsb' 0 8) (a.wLength.extractLsb' 8 8) } := rfl
  rw [e, requestType_dir, requestType_rcp, le16_bytes, le16_bytes]

theorem packetValue_packetOfValue (a : SetupArgs) (t : BitVec 2) (r : Byte) (v : Word16) :
    packetValue (packetOfValue a t r v) = v := le16_bytes v

/-! ## The SETUP table on fields -/

/-- The row the first matching line of a list selects. -/
def pick (ls : List (TableLine 32 SetupRow)) (key : BitVec 32) : SetupRow :=
  match ls.find? (·.hits key) with
  | some l => l.row
  | none => .typeReserved

theorem decodeKey_eq_pick (key : BitVec 32) : decodeKey key = pick setupTable key := rfl

theorem pick_cons (l : TableLine 32 SetupRow) (ls : List (TableLine 32 SetupRow)) (key : BitVec 32) :
    pick (l :: ls) key = if l.hits key = true then l.row else pick ls key := by
  simp only [pick, List.find?_cons]
  cases l.hits key <;> rfl

/-- Two equal words agree on every bit. -/
theorem getLsbD_congr {w : Nat} {x y : BitVec w} (h : x = y) (i : Nat) : x.getLsbD i = y.getLsbD i := h ▸ rfl

section
variable {key : BitVec 32} {t : BitVec 2} {r v : Byte}

theorem keyType_of {m p : BitVec 32} (h : key &&& m = p) (hm : ∀ i, i < 2 → m.getLsbD (5 + i) = true)
    (hp : ∀ i, i < 2 → p.getLsbD (5 + i) = t.getLsbD i) : key.extractLsb' 5 2 = t := by
  apply BitVec.eq_of_getLsbD_eq
  intro i hi
  have hb := getLsbD_congr h (5 + i)
  rw [BitVec.getLsbD_and, hm i hi, hp i hi, Bool.and_true] at hb
  rw [BitVec.getLsbD_extractLsb', hb]; simp [hi]

theorem keyByte_of {m p : BitVec 32} {n : Nat} {x : Byte} (h : key &&& m = p)
    (hm : ∀ i, i < 8 → m.getLsbD (n + i) = true) (hp : ∀ i, i < 8 → p.getLsbD (n + i) = x.getLsbD i) :
    key.extractLsb' n 8 = x := by
  apply BitVec.eq_of_getLsbD_eq
  intro i hi
  have hb := getLsbD_congr h (n + i)
  rw [BitVec.getLsbD_and, hm i hi, hp i hi, Bool.and_true] at hb
  rw [BitVec.getLsbD_extractLsb', hb]; simp [hi]

/-- A line that looks at the type alone. -/
theorem hits_type (row : SetupRow) :
    (TableLine.hits ⟨row, 0x00000060, t.setWidth 32 <<< 5⟩ key) = true ↔ key.extractLsb' 5 2 = t := by
  simp only [TableLine.hits, beq_iff_eq]
  constructor
  · intro h
    exact keyType_of h (by decide) (fun i hi => by interval_cases i <;> simp)
  · rintro rfl
    apply BitVec.eq_of_getLsbD_eq
    intro i hi
    interval_cases i <;> simp

/-- A line that looks at type and request code. -/
theorem hits_request (row : SetupRow) :
    (TableLine.hits ⟨row, 0x0000FF60, r.setWidth 32 <<< 8 ||| t.setWidth 32 <<< 5⟩ key) = true ↔
      key.extractLsb' 5 2 = t ∧ key.extractLsb' 8 8 = r := by
  simp only [TableLine.hits, beq_iff_eq]
  constructor
  · intro h
    exact ⟨keyType_of h (by decide) (fun i hi => by interval_cases i <;> simp),
      keyByte_of h (by decide) (fun i hi => by interval_cases i <;> simp)⟩
  · rintro ⟨rfl, rfl⟩
    apply BitVec.eq_of_getLsbD_eq
    intro i hi
    interval_cases i <;> simp

/-- A line that looks at type, request code and descriptor type. -/
theorem hits_descriptor (row : SetupRow) :
    (TableLine.hits ⟨row, 0xFF00FF60, v.setWidth 32 <<< 24 ||| r.setWidth 32 <<< 8 ||| t.setWidth 32 <<< 5⟩ key) =
      true ↔ key.extractLsb' 5 2 = t ∧ key.extractLsb' 8 8 = r ∧ key.extractLsb' 24 8 = v := by
  simp only [TableLine.hits, beq_iff_eq]
  constructor
  · intro h
    exact ⟨keyType_of h (by decide) (fun i hi => by interval_cases i <;> simp),
      keyByte_of h (by decide) (fun i hi => by interval_cases i <;> simp),
      keyByte_of h (by decide) (fun i hi => by interval_cases i <;> simp)⟩
  · rintro ⟨rfl, rfl, rfl⟩
    apply BitVec.eq_of_getLsbD_eq
    intro i hi
    interval_cases i <;> simp

end

/-- The row a key selects, as a function of the packet's type, request code and descriptor type (30_encoding R84 to
R87). -/
def rowOf (t : BitVec 2) (r v : Byte) : SetupRow :=
  if t = 0 ∧ r = 0 then .getStatus
  else if t = 0 ∧ r = 1 then .clearFeature
  else if t = 0 ∧ r = 2 then .stdReserved2
  else if t = 0 ∧ r = 3 then .setFeature
  else if t = 0 ∧ r = 4 then .stdReserved4
  else if t = 0 ∧ r = 5 then .setAddress
  else if t = 0 ∧ r = 6 ∧ v = 1 then .getDescriptorDevice
  else if t = 0 ∧ r = 6 ∧ v = 2 then .getDescriptorConfiguration
  else if t = 0 ∧ r = 6 ∧ v = 3 then .getDescriptorString
  else if t = 0 ∧ r = 6 ∧ v = 6 then .getDescriptorDeviceQualifier
  else if t = 0 ∧ r = 6 then .getDescriptorOther
  else if t = 0 ∧ r = 7 then .setDescriptor
  else if t = 0 ∧ r = 8 then .getConfiguration
  else if t = 0 ∧ r = 9 then .setConfiguration
  else if t = 0 ∧ r = 10 then .getInterface
  else if t = 0 ∧ r = 11 then .setInterface
  else if t = 0 ∧ r = 12 then .synchFrame
  else if t = 0 then .stdUnmapped
  else if t = 1 ∧ r = 0x20 then .setLineCoding
  else if t = 1 ∧ r = 0x21 then .getLineCoding
  else if t = 1 ∧ r = 0x22 then .setControlLineState
  else if t = 1 ∧ r = 0x23 then .sendBreak
  else if t = 1 then .classOther
  else if t = 2 then .vendor
  else .typeReserved

theorem decodeKey_eq_rowOf (key : BitVec 32) :
    decodeKey key = rowOf (key.extractLsb' 5 2) (key.extractLsb' 8 8) (key.extractLsb' 24 8) := by
  have ht : ∀ (row : SetupRow) (p : BitVec 32) (t : BitVec 2), p = t.setWidth 32 <<< 5 →
      (TableLine.hits ⟨row, 0x00000060, p⟩ key = true ↔ key.extractLsb' 5 2 = t) := by
    rintro row _ t rfl; exact hits_type row
  have hr : ∀ (row : SetupRow) (p : BitVec 32) (t : BitVec 2) (r : Byte),
      p = r.setWidth 32 <<< 8 ||| t.setWidth 32 <<< 5 →
      (TableLine.hits ⟨row, 0x0000FF60, p⟩ key = true ↔ key.extractLsb' 5 2 = t ∧ key.extractLsb' 8 8 = r) := by
    rintro row _ t r rfl; exact hits_request row
  have hd : ∀ (row : SetupRow) (p : BitVec 32) (t : BitVec 2) (r v : Byte),
      p = v.setWidth 32 <<< 24 ||| r.setWidth 32 <<< 8 ||| t.setWidth 32 <<< 5 →
      (TableLine.hits ⟨row, 0xFF00FF60, p⟩ key = true ↔
        key.extractLsb' 5 2 = t ∧ key.extractLsb' 8 8 = r ∧ key.extractLsb' 24 8 = v) := by
    rintro row _ t r v rfl; exact hits_descriptor row
  simp only [decodeKey_eq_pick, setupTable, setupTableLow, setupTableDescriptor, setupTableHigh, setupTableClass,
    List.cons_append, List.nil_append, pick_cons,
    hr _ 0x0 0 0 rfl, hr _ 0x100 0 1 rfl, hr _ 0x200 0 2 rfl, hr _ 0x300 0 3 rfl, hr _ 0x400 0 4 rfl,
    hr _ 0x500 0 5 rfl, hd _ 0x1000600 0 6 1 rfl, hd _ 0x2000600 0 6 2 rfl, hd _ 0x3000600 0 6 3 rfl,
    hd _ 0x6000600 0 6 6 rfl, hr _ 0x600 0 6 rfl, hr _ 0x700 0 7 rfl, hr _ 0x800 0 8 rfl, hr _ 0x900 0 9 rfl,
    hr _ 0xa00 0 10 rfl, hr _ 0xb00 0 11 rfl, hr _ 0xc00 0 12 rfl, ht _ 0x0 0 rfl, hr _ 0x2020 1 0x20 rfl,
    hr _ 0x2120 1 0x21 rfl, hr _ 0x2220 1 0x22 rfl, hr _ 0x2320 1 0x23 rfl, ht _ 0x20 1 rfl, ht _ 0x40 2 rfl,
    ht _ 0x60 3 rfl]
  rw [rowOf]
  have last : (if key.extractLsb' 5 2 = 3 then SetupRow.typeReserved else pick [] key) = .typeReserved := by
    split <;> rfl
  rw [last]

end Sys2Proof
end

