-- ==== Sys2Proof/Laws/Inv.lean ====
section
/-! SUPPORT. The rules of the block keep the invariant, one lemma for each rule, whatever the bus side does
between accesses. -/

namespace Sys2Proof.Machine

variable {s : State}

/-! ## One part of the state at a time -/

theorem Inv.onHw (I : Inv s) {f : Config → Hw → Hw} (L : (f s.cfg s.hw).Legal s.cfg) : Inv (s.onHw f) :=
  { I with hw := L }

theorem Inv.withCtl (I : Inv s) {x : ControlCtx} (L : x.Legal) : Inv { s with ctl := x } := { I with ctl := L }

theorem Inv.enter (I : Inv s) {x : CtlState} (h : x ≠ .setupReceived) : Inv (s.enter x) :=
  I.withCtl { I.ctl with phase := h }

theorem Inv.logEvent (I : Inv s) (e : LogEvent) : Inv (s.logEvent e) := { I with }

theorem Inv.capture (I : Inv s) {p : List Byte} (h : p.length = 8) : Inv (s.capture p) :=
  I.withCtl { I.ctl with setupLength := h }

theorem Inv.ready (I : Inv s) : s.ready := ⟨I.config, I.hw.areasInside I.config⟩

theorem Inv.bufferLength (I : Inv s) (d : Buffer) : (s.buffer d).length = bufferSize s.cfg d := by
  cases d
  · exact I.ctl.setupLength
  · exact I.cmdBuf
  · exact I.scratch
  · exact I.lineCoding
  · exact I.ctl.statusLength

/-! ## Shared operations -/

theorem Inv.slot (I : Inv s) : Inv s.slot := I.onHw (I.hw.slot I.config)

theorem Inv.setStatus (I : Inv s) (e : Ep) (d : Dir) (t : Stat) :
    Inv (s.onHw (fun c h => Hw.setStatus c e d t h)) := I.onHw (I.hw.setStatus I.config e d t)

theorem Inv.send (I : Inv s) (e : Ep) (src : List Byte) (count : Nat) : Inv (s.send e src count) :=
  I.onHw (I.hw.write I.config e src count)

theorem Inv.withBuffer (I : Inv s) (d : Buffer) {b : List Byte} (h : b.length = bufferSize s.cfg d) :
    Inv (s.withBuffer d b) := by
  cases d
  · exact I.withCtl { I.ctl with setupLength := h }
  · exact { I with cmdBuf := h }
  · exact { I with scratch := h }
  · exact { I with lineCoding := h }
  · exact I.withCtl { I.ctl with statusLength := h }

theorem Inv.readInto_fits (I : Inv s) (e : Ep) (d : Buffer) {m : Nat}
    (hl : (Hw.read s.cfg e m s.hw).1.length ≤ bufferSize s.cfg d) : Inv (s.readInto e d m) := by
  have I1 : Inv { s with hw := (Hw.read s.cfg e m s.hw).2 } := { I with hw := I.hw.read I.config e m }
  have hb := I1.bufferLength d
  rw [State.readInto, State.fill_eq_withBuffer]
  exact I1.withBuffer d ((overlay_length (hb ▸ hl)).trans hb)

theorem Inv.readInto (I : Inv s) (e : Ep) (d : Buffer) {m : Nat} (hm : m ≤ bufferSize s.cfg d) :
    Inv (s.readInto e d m) :=
  I.readInto_fits e d (by rw [Hw.read_length]; omega)

theorem Inv.raiseCtrlStall (I : Inv s) : Inv s.raiseCtrlStall :=
  (I.setStatus .ctrl .rx .stall).withCtl { I.ctl with phase := nofun }

theorem Inv.raiseFlashFatal (I : Inv s) {a : Addr32} (h : oddAddress a = true) : Inv (s.raiseFlashFatal a) :=
  { I with fatalOdd := fun b hb => by cases hb; exact h }

theorem Inv.setFlash (I : Inv s) {m : Memory} (L : FlashLegal m) : Inv { s with flash := m } := { I with flash := L }

theorem Inv.withFlash (I : Inv s) (a : Addr32) (bs : List Byte) : Inv { s with flash := storeFlash s.flash a bs } :=
  I.setFlash (storeFlash_legal I.flash a bs)

theorem Inv.flashErase (I : Inv s) (a : Addr32) : Inv (s.flashErase a) := by
  rw [State.flashErase]
  split
  · exact I.raiseFlashFatal ‹_›
  · exact I.withFlash a _

theorem Inv.flashWrite (I : Inv s) (a : Addr32) (buf : List Byte) (k : Nat) : Inv (s.flashWrite a buf k) := by
  rw [State.flashWrite]
  split
  · exact I.raiseFlashFatal ‹_›
  · exact I.withFlash a _

/-! ## Control transfers -/

theorem Inv.ackRule (I : Inv s) : Inv (ackRule s) := I.send .ctrl [] 0

theorem Inv.ackInto (I : Inv s) {x : CtlState} (h : x ≠ .setupReceived) : Inv (ackInto x s) := I.ackRule.enter h

theorem Inv.transmitRule (I : Inv s) : Inv (transmitRule s).2 := by
  rw [Machine.transmitRule]
  split
  · have hq := Hw.write_count_le (c := s.cfg) (h := s.hw) .ctrl (nextChunk s) (nextChunk s).length
    have hn : (nextChunk s).length = min s.ctl.xferRem.toNat (packetSize s.cfg) := by simp [nextChunk, sliceOf]
    have h1 := I.ctl.noWrap
    have hle : (Hw.write s.cfg .ctrl (nextChunk s) (nextChunk s).length s.hw).1 ≤ s.ctl.xferRem.toNat := by omega
    have I1 : Inv { s with hw := (Hw.write s.cfg .ctrl (nextChunk s) (nextChunk s).length s.hw).2 } :=
      { I with hw := I.hw.write I.config _ _ _ }
    refine I1.withCtl { I.ctl with noWrap := ?_ }
    change (s.ctl.xferOff + BitVec.ofNat 16 _).toNat + (s.ctl.xferRem - BitVec.ofNat 16 _).toNat < _
    rw [BitVec.toNat_add, BitVec.toNat_sub, BitVec.toNat_ofNat]
    have := s.ctl.xferRem.isLt
    omega
  · exact I.logEvent _

theorem Inv.startInRule (I : Inv s) (src : XferSrc) (n : Word16) : Inv (startInRule src n s) := by
  have I1 : Inv { s with ctl.xferSrc := src, ctl.xferOff := 0, ctl.xferRem := min16 n s.ctl.wLength } :=
    I.withCtl { I.ctl with noWrap := by simpa using (min16 n s.ctl.wLength).isLt }
  exact I1.transmitRule.enter (by split <;> decide)

theorem Inv.rejectRule (I : Inv s) : Inv (rejectRule s) := I.raiseCtrlStall

theorem Inv.replyStatus (I : Inv s) (b : Byte) : Inv (replyStatus b s) := by
  have I1 : Inv { s with ctl.statusBuf := [b, 0] } := I.withCtl { I.ctl with statusLength := rfl }
  rw [Machine.replyStatus]
  exact I1.startInRule .status 2

theorem Inv.getStatusRule (I : Inv s) : Inv (getStatusRule s) := by
  rw [Machine.getStatusRule]
  split
  · exact I.replyStatus _
  · split
    · exact I.replyStatus _
    · split
      · split
        · exact I.slot.replyStatus _
        · exact I.rejectRule
      · exact I.rejectRule

theorem Inv.clearFeatureRule (I : Inv s) : Inv (clearFeatureRule s) := by
  rw [Machine.clearFeatureRule]
  split
  · have I1 : Inv { s with ctl.remoteWakeup := false } := I.withCtl { I.ctl with }
    exact I1.ackInto nofun
  · exact (I.onHw (I.hw.unstall I.config _)).ackInto nofun
  · exact I.rejectRule

theorem Inv.setFeatureRule (I : Inv s) : Inv (setFeatureRule s) := by
  rw [Machine.setFeatureRule]
  split
  · have I1 : Inv { s with ctl.remoteWakeup := true } := I.withCtl { I.ctl with }
    exact I1.ackInto nofun
  · exact (I.onHw (I.hw.stall I.config _)).ackInto nofun
  · exact I.rejectRule

theorem Inv.setAddressRule (I : Inv s) : Inv (setAddressRule s) := by
  have I1 : Inv { s with dev.pendingAddr := s.ctl.wValue.extractLsb' 0 7, dev.addrPending := true } := { I with }
  exact I1.ackInto nofun

theorem Inv.getDescriptorStringRule (I : Inv s) : Inv (getDescriptorStringRule s) := by
  simp only [Machine.getDescriptorStringRule]
  split
  · exact I.startInRule _ _
  · exact I.rejectRule

theorem Inv.getDescriptorRule (I : Inv s) : Inv (getDescriptorRule s) := by
  rw [Machine.getDescriptorRule]
  split
  · exact I.startInRule _ _
  · split
    · exact I.startInRule _ _
    · split
      · exact I.getDescriptorStringRule
      · exact I.rejectRule

theorem setConfigurationRule_zero (h : s.ctl.wValueL = 0) :
    setConfigurationRule s = Machine.ackInto .status { s with
      ctl.configValue := s.ctl.wValueL
      dev.configured := false } := congrArg (Machine.ackInto .status) (if_pos h)

theorem setConfigurationRule_nonzero (h : s.ctl.wValueL ≠ 0) :
    setConfigurationRule s = Machine.ackInto .status { s with
      ctl.configValue := s.ctl.wValueL
      cls := { lc := s.cfg.lcDefault, dtr := false, rts := false }
      dev.addrPending := false
      dev.configured := true } := congrArg (Machine.ackInto .status) (if_neg h)

theorem Inv.setConfigurationRule (I : Inv s) : Inv (setConfigurationRule s) := by
  have I1 : Inv { s with ctl.configValue := s.ctl.wValueL } := I.withCtl { I.ctl with }
  by_cases h : s.ctl.wValueL = 0
  · have I2 : Inv { s with ctl.configValue := s.ctl.wValueL, dev.configured := false } := { I1 with }
    rw [setConfigurationRule_zero h]
    exact I2.ackInto nofun
  · have I2 : Inv { s with
        ctl.configValue := s.ctl.wValueL
        cls := { lc := s.cfg.lcDefault, dtr := false, rts := false }
        dev.addrPending := false
        dev.configured := true } := { I1 with lineCoding := lcDefault_length I.config }
    rw [setConfigurationRule_nonzero h]
    exact I2.ackInto nofun

theorem Inv.ackBeforeData (I : Inv s) : Inv (ackBeforeData s) := I.ackInto (by split <;> decide)

theorem Inv.setupRow (I : Inv s) (row : SetupRow) : Inv (SetupRow.rule row s) := by
  cases row
  case getStatus => exact I.getStatusRule
  case clearFeature => exact I.clearFeatureRule
  case setFeature => exact I.setFeatureRule
  case setAddress => exact I.setAddressRule
  case getDescriptorDevice => exact I.startInRule _ _
  case getDescriptorConfiguration => exact I.startInRule _ _
  case getDescriptorString => exact I.getDescriptorStringRule
  case getConfiguration => exact I.startInRule _ _
  case setConfiguration => exact I.setConfigurationRule
  case getInterface => exact I.startInRule _ _
  case setInterface => exact I.ackInto nofun
  case setLineCoding => exact I.ackBeforeData
  case getLineCoding => exact I.startInRule _ _
  case setControlLineState => exact I.ackBeforeData
  case sendBreak => exact I.ackBeforeData
  case classOther => exact (I.logEvent _).ackInto nofun
  all_goals exact I.rejectRule

theorem transmitRule_enter (s : State) (x : CtlState) :
    transmitRule (s.enter x) = ((transmitRule s).1, (transmitRule s).2.enter x) := by
  by_cases h : s.ctl.dirIn = true
  · have h' : (s.enter x).ctl.dirIn = true := h
    simp only [transmitRule, h, h', if_true]; rfl
  · have h' : ¬(s.enter x).ctl.dirIn = true := h
    simp only [transmitRule, if_neg h, if_neg h']; rfl

theorem startInRule_enter (src : XferSrc) (n : Word16) (s : State) (x : CtlState) :
    startInRule src n (s.enter x) = startInRule src n s := by
  let T : State := { s with ctl.xferSrc := src, ctl.xferOff := 0, ctl.xferRem := min16 n s.ctl.wLength }
  have e : startInRule src n (s.enter x) =
      (transmitRule (T.enter x)).2.enter (if (transmitRule (T.enter x)).1 then .dataIn else .idle) := rfl
  rw [e, transmitRule_enter]
  rfl

theorem replyStatus_enter (b : Byte) (s : State) (x : CtlState) : replyStatus b (s.enter x) = replyStatus b s := by
  have e : replyStatus b (s.enter x) = startInRule .status 2 (State.enter { s with ctl.statusBuf := [b, 0] } x) := rfl
  rw [e, startInRule_enter]
  rfl

/-- No rule of a SETUP row looks at `ctl_state` (10_state R19). -/
theorem SetupRow.rule_enter (row : SetupRow) (s : State) (x : CtlState) :
    SetupRow.rule row (s.enter x) = SetupRow.rule row s := by
  cases row
  case getStatus =>
    have h1 : (s.enter x).ctl.recipient = s.ctl.recipient := rfl
    have h2 : (s.enter x).ctl.addressedEp = s.ctl.addressedEp := rfl
    have h3 : deviceStatusByte (s.enter x).ctl = deviceStatusByte s.ctl := rfl
    have h4 : (s.enter x).slot = s.slot.enter x := rfl
    have h5 : (s.enter x).ctl.addressedDir = s.ctl.addressedDir := rfl
    have h6 : rejectRule (s.enter x) = rejectRule s := rfl
    simp only [SetupRow.rule, getStatusRule, h1, h2, h3, h4, h6, replyStatus_enter]
    rfl
  case getDescriptorDevice => exact startInRule_enter _ _ s x
  case getDescriptorConfiguration => exact startInRule_enter _ _ s x
  case getDescriptorString =>
    have h1 : (s.enter x).ctl.wValueL = s.ctl.wValueL := rfl
    have h2 : rejectRule (s.enter x) = rejectRule s := rfl
    simp only [SetupRow.rule, getDescriptorStringRule, State.enter_cfg, h1, h2, startInRule_enter]
  case getConfiguration => exact startInRule_enter _ _ s x
  case setConfiguration =>
    by_cases h : s.ctl.wValueL = 0
    · rw [SetupRow.rule, setConfigurationRule_zero h, setConfigurationRule_zero (s := s.enter x) h]; rfl
    · rw [SetupRow.rule, setConfigurationRule_nonzero h, setConfigurationRule_nonzero (s := s.enter x) h]; rfl
  case getInterface => exact startInRule_enter _ _ s x
  case getLineCoding => exact startInRule_enter _ _ s x
  all_goals rfl

theorem ctrlSetupRule_eq (s : State) :
    ctrlSetupRule s = SetupRow.rule (decodeKey (setupKey (s.readInto .ctrl .setup 8).ctl.setup))
      (s.readInto .ctrl .setup 8) :=
  SetupRow.rule_enter _ (s.readInto .ctrl .setup 8) .setupReceived

theorem Inv.ctrlSetupRule (I : Inv s) : Inv (ctrlSetupRule s) := by
  rw [ctrlSetupRule_eq]
  exact (I.readInto .ctrl .setup (by decide : 8 ≤ 8)).setupRow _

theorem Inv.ctrlInRule (I : Inv s) : Inv (ctrlInRule s) := by
  have hp : ∀ b, afterCtrlIn b s.ctl.ctlState ≠ .setupReceived := by
    have := I.ctl.phase
    intro b
    cases b <;> cases hs : s.ctl.ctlState <;> simp_all [afterCtrlIn]
  rw [Machine.ctrlInRule]
  split
  · exact I.enter (hp _)
  · exact I.transmitRule.enter (hp _)

theorem Inv.ctrlOutRule (I : Inv s) : Inv (ctrlOutRule s) := by
  have hp : afterCtrlOut s.ctl.ctlState ≠ .setupReceived := by rw [afterCtrlOut]; split <;> decide
  simp only [Machine.ctrlOutRule]
  split
  · exact (I.readInto .ctrl .lc (by decide : 7 ≤ 7)).enter hp
  · split
    · have I1 : Inv { s with
          cls.dtr := s.ctl.wValueH.getLsbD 0
          cls.rts := s.ctl.wValueH.getLsbD 1 } := { I with }
      exact (I1.setStatus .ctrl .rx .valid).enter hp
    · exact (I.setStatus .ctrl .rx .valid).enter hp

/-! ## The bulk protocol -/

theorem Inv.withSession (I : Inv s) {x : FlashSession} (L : x.Legal) : Inv { s with sess := x } :=
  { I with session := L }

theorem Inv.validateRule (I : Inv s) (want : Byte) : Inv (validateRule want s).2 := by
  simp only [Machine.validateRule]
  split
  · exact I.slot
  · have I1 := I.slot.readInto .data .cmdBuf (by decide : 8 ≤ 8)
    split
    · exact I1
    · split <;> exact I1

/-- Validation touches no session (43_bulk R192). -/
theorem validateRule_sess (want : Byte) : (validateRule want s).2.sess = s.sess := by
  simp only [Machine.validateRule]
  split
  · rfl
  · split
    · rfl
    · split <;> rfl

theorem Inv.echoRule (I : Inv s) : Inv (echoRule s) := I.send .data s.cmdBuf 8

theorem Inv.reportRule (I : Inv s) (code : ErrCode) : Inv (reportRule code s) := I.send .data [errByte code] 1

theorem nextPhase_legal {x : FlashSession} (hi : x.idlePage) (hle : x.curPage ≤ x.totalPages)
    (hp : x.blState = nextPhase x.curPage x.totalPages) : x.Legal := by
  rw [FlashSession.Legal, hp, nextPhase]
  split <;> rename_i hb
  · split at hb <;> cases hb
  · split at hb
    · cases hb
    · exact ⟨hi, BitVec.lt_of_le_ne hle ‹_›⟩
  · split at hb <;> cases hb
  · split at hb
    · exact ⟨hi, ‹_›⟩
    · cases hb

/-- A size header in WAIT_SIZE_HEADER (43_bulk R193). -/
theorem Inv.sizeHeaderRule (I : Inv s) (hb : s.sess.blState = .waitSizeHeader) : Inv (sizeHeaderRule s) := by
  have hz : s.sess = FlashSession.zero := by
    have := I.session; rw [FlashSession.Legal, hb] at this; exact this
  refine (I.send .data s.cmdBuf 8).withSession (nextPhase_legal (x := { s.sess with
    lastCmd := cmdRecordOf s.cmdBuf, totalPages := (cmdRecordOf s.cmdBuf).page,
    blState := nextPhase s.sess.curPage (cmdRecordOf s.cmdBuf).page }) ?_ ?_ rfl)
  · rw [hz]; exact ⟨rfl, rfl, rfl⟩
  · rw [hz]; exact Nat.zero_le _

theorem flashErase_sess (a : Addr32) : (s.flashErase a).sess = s.sess := by rw [State.flashErase]; split <;> rfl

theorem flashWrite_sess (a : Addr32) (b : List Byte) (k : Nat) : (s.flashWrite a b k).sess = s.sess := by
  rw [State.flashWrite]; split <;> rfl

/-- A page header in WAIT_DATA_HEADER (43_bulk R194). -/
theorem Inv.pageHeaderRule (I : Inv s) (hf : s.fatal = none) (hb : s.sess.blState = .waitDataHeader) :
    Inv (pageHeaderRule s) := by
  have hs : s.sess.idlePage ∧ s.sess.curPage < s.sess.totalPages := by
    have := I.session; rw [FlashSession.Legal, hb] at this; exact this
  have he : oddAddress (pageBase s.cfg s.sess.curPage) = false := pageBase_even I.config _
  have I1 : Inv { s with
      sess.lastCmd := cmdRecordOf s.cmdBuf
      sess.expectedLen := (cmdRecordOf s.cmdBuf).dataLen
      sess.pageOffset := 0
      flash := storeFlash s.flash (pageBase s.cfg s.sess.curPage) (List.replicate s.cfg.pageSize 0xFF)
      sess.headerAccepted := true
      sess.blState := .receivingPage } := by
    refine (I.withFlash _ _).withSession ⟨rfl, hs.2, ?_⟩
    by_cases h0 : (cmdRecordOf s.cmdBuf).dataLen = 0
    · exact .inr ⟨rfl, h0⟩
    · refine .inl ?_
      have : (cmdRecordOf s.cmdBuf).dataLen.toNat ≠ 0 := fun h => h0 (BitVec.eq_of_toNat_eq h)
      exact Nat.pos_of_ne_zero this
  have acked : ∀ t : State, Inv t → Inv (ackPageHeader t) := by
    intro t It
    rw [ackPageHeader]
    split
    · exact It
    · exact It.echoRule
    · exact It.reportRule _
  have e : Machine.pageHeaderRule s = ackPageHeader { s with
      sess.lastCmd := cmdRecordOf s.cmdBuf
      sess.expectedLen := (cmdRecordOf s.cmdBuf).dataLen
      sess.pageOffset := 0
      flash := storeFlash s.flash (pageBase s.cfg s.sess.curPage) (List.replicate s.cfg.pageSize 0xFF)
      sess.headerAccepted := true
      sess.blState := .receivingPage } := by
    simp [Machine.pageHeaderRule, State.flashErase, he, hf]
  rw [e]
  exact acked _ I1

/-- The session after page data (43_bulk R195, R196). -/
theorem pageAdvance_legal {x : FlashSession} (L : x.Legal) (hb : x.blState = .receivingPage) (n : Nat) :
    (pageAdvance n x).Legal := by
  have hs : x.headerAccepted = true ∧ x.curPage < x.totalPages ∧
      (x.pageOffset.toNat < x.expectedLen.toNat ∨ x.pageOffset = 0 ∧ x.expectedLen = 0) := by
    have := L; rw [FlashSession.Legal, hb] at this; exact this
  simp only [pageAdvance]
  split
  · refine nextPhase_legal (x := pageComplete _) ⟨rfl, rfl, rfl⟩ ?_ rfl
    change x.curPage + 1 ≤ x.totalPages
    have h1 := hs.2.1
    have h2 := x.totalPages.isLt
    rw [BitVec.lt_def] at h1
    rw [BitVec.le_def, BitVec.toNat_add]
    change (x.curPage.toNat + 1) % 2 ^ 16 ≤ _
    omega
  · rename_i hlt
    rw [FlashSession.Legal]
    simp only [hb]
    exact ⟨hs.1, hs.2.1, .inl (Nat.lt_of_not_le hlt)⟩

/-- Page data in RECEIVING_PAGE (43_bulk R195). -/
theorem Inv.pageDataRule (I : Inv s) (hb : s.sess.blState = .receivingPage) : Inv (pageDataRule s) := by
  have I1 := I.readInto .data .scratch (Nat.le_refl (scratchSize s.cfg))
  have I2 := I1.flashWrite (pageBase s.cfg s.sess.curPage + s.sess.pageOffset)
    (s.readInto .data .scratch (scratchSize s.cfg)).scratch
    (ceil2 (Hw.read s.cfg .data (scratchSize s.cfg) s.hw).1.length)
  simp only [Machine.pageDataRule]
  split
  · exact I2
  · refine I2.withSession (pageAdvance_legal ?_ ?_ _)
    · exact I2.session
    · rw [flashWrite_sess]; exact hb

theorem Inv.headerPacket (I : Inv s) (want : Byte) {accept : State → State}
    (h : ∀ t, Inv t → t.sess = s.sess → t.fatal = s.fatal → Inv (accept t)) : Inv (headerPacket want accept s) := by
  have hf : (Machine.validateRule want s).2.fatal = s.fatal := by
    simp only [Machine.validateRule]
    split
    · rfl
    · split
      · rfl
      · split <;> rfl
  simp only [Machine.headerPacket]
  split
  · exact h _ (I.validateRule want) (validateRule_sess want) hf
  · exact (I.validateRule want).reportRule _

theorem Inv.bulkOutRule (I : Inv s) (hf : s.fatal = none) : Inv (bulkOutRule s) := by
  have I1 : Inv (bulkCase s) := by
    rw [bulkCase]
    split <;> rename_i hb
    · exact I.headerPacket _ (fun t It e _ => It.sizeHeaderRule (by rw [e]; exact hb))
    · exact I.headerPacket _ (fun t It e ef => It.pageHeaderRule (ef.trans hf) (by rw [e]; exact hb))
    · exact I.pageDataRule hb
    · exact I
  simp only [Machine.bulkOutRule]
  split
  · exact I1
  · exact I1.setStatus .data .rx .valid

/-! ## The dispatcher -/

theorem Inv.resumeRule (I : Inv s) : Inv (resumeRule s) := by
  have I1 : Inv { s with dev.suspended := false } := { I with }
  exact I1.onHw (I1.hw.putLowPower I.config false)

theorem Inv.suspendRule (I : Inv s) : Inv (suspendRule s) := by
  have I1 : Inv { s with dev.suspended := true } := { I with }
  exact I1.onHw (I1.hw.putLowPower I.config true)

theorem Inv.clearCausesRule (I : Inv s) : Inv (clearCausesRule s) :=
  I.onHw ((I.hw.slot I.config).of_same rfl rfl rfl rfl rfl rfl)

theorem Inv.resetRule (I : Inv s) : Inv (resetRule s) := by
  have L : (Hw.putDaddr s.cfg 0x80 ([Ep.ctrl, Ep.data, Ep.comm].foldl (resetEndpoint s.cfg) s.hw)).Legal s.cfg :=
    (((I.hw.resetEndpoint I.config .ctrl).resetEndpoint I.config .data).resetEndpoint I.config .comm).putDaddr
      I.config _
  have C : (resetControl s.cfg).Legal := ⟨rfl, rfl, (by decide : (0 : Nat) < 2 ^ 16), nofun⟩
  exact { I with hw := L, ctl := C, session := rfl }

theorem Inv.applyAddressRule (I : Inv s) : Inv (applyAddressRule s) :=
  { I with hw := I.hw.putDaddr I.config _ }

theorem Inv.eventRow (I : Inv s) (hf : s.fatal = none) (row : EventRow) : Inv (EventRow.rule row s) := by
  cases row
  · exact I.ctrlSetupRule
  · exact I.ctrlOutRule
  · exact I.ctrlInRule
  · exact I.bulkOutRule hf
  · exact I
  · exact I
  · exact I

theorem Inv.drainTurn (I : Inv s) (hf : s.fatal = none) (v : Word16) : Inv (drainTurn v s) := by
  have route : ∀ e d b, ∀ t : State, Inv t → t.fatal = none → Inv (routeCompletion e d b t) := by
    intro e d b t It h
    rw [routeCompletion]
    split
    · rw [applyIfPending]
      split
      · exact It.applyAddressRule.eventRow h _
      · exact It.eventRow h _
    · exact It
  rw [Machine.drainTurn]
  split
  · rename_i e _
    exact route _ _ _ _ (I.slot.onHw (I.slot.hw.clearCtr I.config e _)) hf
  · exact I

theorem Inv.drainLoop (fuel : Nat) {s : State} (I : Inv s) (hf : s.fatal = none) : Inv (drainLoop fuel s) := by
  induction fuel generalizing s with
  | zero => exact I
  | succ n ih =>
    have I1 := I.slot
    simp only [Machine.drainLoop]
    split
    · have I2 := I1.drainTurn hf s.slot.hw.istr
      split
      · exact I2
      · rename_i h
        exact ih I2 (by simpa using h)
    · exact I1

theorem Inv.drainRule (I : Inv s) (hf : s.fatal = none) : Inv (drainRule s) := Inv.drainLoop _ I hf

theorem Inv.entryRule (I : Inv s) (hf : s.fatal = none) : Inv (entryRule s) := by
  have step1 : ∀ t : State, Inv t → t.fatal = none → ∀ b : Bool,
      Inv (if b then Machine.resumeRule t else t) ∧ (if b then Machine.resumeRule t else t).fatal = none := by
    intro t It h b; cases b
    · exact ⟨It, h⟩
    · exact ⟨It.resumeRule, h⟩
  have step2 : ∀ t : State, Inv t → t.fatal = none → ∀ b : Bool,
      Inv (if b then Machine.suspendRule t else t) ∧ (if b then Machine.suspendRule t else t).fatal = none := by
    intro t It h b; cases b
    · exact ⟨It, h⟩
    · exact ⟨It.suspendRule, h⟩
  have h1 := step1 _ I.slot hf (s.slot.hw.istr.getLsbD 12)
  have h2 := step2 _ h1.1 h1.2 (s.slot.hw.istr.getLsbD 11)
  simp only [Machine.entryRule]
  split
  · exact h2.1.clearCausesRule.resetRule
  · exact h2.1.clearCausesRule.drainRule h2.2

end Sys2Proof.Machine
end

