-- ==== Sys2Proof/Laws/PerInstr.lean ====
section
/-! SUPPORT. The statements made for every instruction, one lemma for each constructor. -/

namespace Sys2Proof.Laws

/-! ## Decoding an encoded instruction -/

/-- A well-formed instruction that a decoder can give decodes from its own encoding, in its own phase. -/
def RoundTrip.Statement (i : Instr) : Prop :=
  i.wf = true → i.handlerRow = false → decode i.phase (encode i) = .instr i

namespace RoundTrip

/-- A row without a bit pattern is presented by name. -/
theorem byName_of_named {i : Instr} (h : i.named = true) : i.byName = true := by
  cases i <;> first | rfl | cases h

/-- Rows selected by name. -/
theorem of_named {i : Instr} (hn : i.named = true) (he : encode i = .name i) : Statement i := by
  intro _ _
  simp [he, decode, decodeName, byName_of_named hn]

/-- Rows selected by a SETUP packet. -/
theorem of_packet {i : Instr} {a : SetupArgs} {t : BitVec 2} {r l h : Byte}
    (he : encode i = .setup (packetOf a t r l h))
    (hi : i.wf = true → i.handlerRow = false → (rowOf t r h).instr (packetOf a t r l h) = i) : Statement i := by
  intro hw hh
  have hk : setupKey (packetOf a t r l h) = h ++ l ++ r ++ requestType a.dir t a.rcp := rfl
  have ht : (setupKey (packetOf a t r l h)).extractLsb' 5 2 = t := by
    rw [hk]
    refine Eq.trans ?_ (requestType_type a.dir t a.rcp)
    exact BitVec.eq_of_getLsbD_eq (fun i hi => by
      rw [BitVec.getLsbD_extractLsb', BitVec.getLsbD_extractLsb', BitVec.getLsbD_append, if_pos (by omega)])
  have hr : (setupKey (packetOf a t r l h)).extractLsb' 8 8 = r := by
    rw [hk]
    exact BitVec.eq_of_getLsbD_eq (fun i hi => by
      rw [BitVec.getLsbD_extractLsb', BitVec.getLsbD_append, BitVec.getLsbD_append, if_neg (by omega),
        if_pos (by omega)]; simp [hi])
  have hv : (setupKey (packetOf a t r l h)).extractLsb' 24 8 = h := by
    rw [hk]
    exact BitVec.eq_of_getLsbD_eq (fun i hi => by
      rw [BitVec.getLsbD_extractLsb', BitVec.getLsbD_append, BitVec.getLsbD_append, BitVec.getLsbD_append,
        if_neg (by omega), if_neg (by omega), if_neg (by omega), show 24 + i - 8 - 8 - 8 = i by omega]; simp [hi])
  rw [he, decode, decodeSetup, if_pos (by rfl), decodeKey_eq_rowOf, ht, hr, hv, hi hw hh]

theorem eprWrite (e : Ep) (v : Word16) : Statement (.eprWrite e v) := of_named rfl rfl

theorem setStatus (e : Ep) (d : Dir) (target : Stat) : Statement (.setStatus e d target) := of_named rfl rfl

theorem stall (e : Ep) : Statement (.stall e) := of_named rfl rfl

theorem unstall (e : Ep) : Statement (.unstall e) := of_named rfl rfl

theorem markRxDone (e : Ep) : Statement (.markRxDone e) := of_named rfl rfl

theorem markTxReady (e : Ep) : Statement (.markTxReady e) := of_named rfl rfl

theorem clearCtr (e : Ep) (d : Dir) : Statement (.clearCtr e d) := of_named rfl rfl

theorem epConfigure (e : Ep) (type : EpType) (addr : BitVec 4) (rx tx : Stat) : Statement (.epConfigure e type addr rx tx) := of_named rfl rfl

theorem read (e : Ep) (dest : Buffer) (maxCount : Nat) : Statement (.read e dest maxCount) := of_named rfl rfl

theorem write (e : Ep) (src : List Byte) (count : Nat) : Statement (.write e src count) := of_named rfl rfl

theorem ack : Statement (.ack) := of_named rfl rfl

theorem reject : Statement (.reject) := of_named rfl rfl

theorem startIn (src : XferSrc) (naturalLen : Word16) : Statement (.startIn src naturalLen) := of_named rfl rfl

theorem transmitSetupPacket : Statement (.transmitSetupPacket) := of_named rfl rfl

theorem ctrlSetup : Statement (.ctrlSetup) := fun _ _ => rfl

theorem ctrlOut : Statement (.ctrlOut) := fun _ _ => rfl

theorem ctrlIn : Statement (.ctrlIn) := fun _ _ => rfl

theorem getStatus (a : SetupArgs) (wValue : Word16) : Statement (.getStatus a wValue) :=
  of_packet rfl (fun _ _ => by
    simp only [rowOf, SetupRow.instr, setupArgs_packetOf]; exact congrArg _ (le16_bytes _))

theorem clearFeature (a : SetupArgs) (wValue : Word16) : Statement (.clearFeature a wValue) :=
  of_packet rfl (fun _ _ => by
    simp only [rowOf, SetupRow.instr, setupArgs_packetOf]; exact congrArg _ (le16_bytes _))

theorem stdReserved2 (a : SetupArgs) (wValue : Word16) : Statement (.stdReserved2 a wValue) :=
  of_packet rfl (fun _ _ => by
    simp only [rowOf, SetupRow.instr, setupArgs_packetOf]; exact congrArg _ (le16_bytes _))

theorem setFeature (a : SetupArgs) (wValue : Word16) : Statement (.setFeature a wValue) :=
  of_packet rfl (fun _ _ => by
    simp only [rowOf, SetupRow.instr, setupArgs_packetOf]; exact congrArg _ (le16_bytes _))

theorem stdReserved4 (a : SetupArgs) (wValue : Word16) : Statement (.stdReserved4 a wValue) :=
  of_packet rfl (fun _ _ => by
    simp only [rowOf, SetupRow.instr, setupArgs_packetOf]; exact congrArg _ (le16_bytes _))

theorem setAddress (a : SetupArgs) (wValue : Word16) : Statement (.setAddress a wValue) :=
  of_packet rfl (fun _ _ => by
    simp only [rowOf, SetupRow.instr, setupArgs_packetOf]; exact congrArg _ (le16_bytes _))

theorem getDescriptor (a : SetupArgs) (type index : Byte) : Statement (.getDescriptor a type index) :=
  fun _ h => absurd h (by simp [Instr.handlerRow])

theorem getDescriptorDevice (a : SetupArgs) (index : Byte) : Statement (.getDescriptorDevice a index) :=
  of_packet rfl (fun _ _ => by
    exact congrArg (fun a => Instr.getDescriptorDevice a _) (setupArgs_packetOf ..))

theorem getDescriptorConfiguration (a : SetupArgs) (index : Byte) : Statement (.getDescriptorConfiguration a index) :=
  of_packet rfl (fun _ _ => by
    exact congrArg (fun a => Instr.getDescriptorConfiguration a _) (setupArgs_packetOf ..))

theorem getDescriptorString (a : SetupArgs) (index : Byte) : Statement (.getDescriptorString a index) :=
  of_packet rfl (fun _ _ => by
    exact congrArg (fun a => Instr.getDescriptorString a _) (setupArgs_packetOf ..))

theorem getDescriptorDeviceQualifier (a : SetupArgs) (index : Byte) : Statement (.getDescriptorDeviceQualifier a index) :=
  of_packet rfl (fun _ _ => by
    exact congrArg (fun a => Instr.getDescriptorDeviceQualifier a _) (setupArgs_packetOf ..))

theorem getDescriptorOther (a : SetupArgs) (type index : Byte) : Statement (.getDescriptorOther a type index) :=
  of_packet rfl (fun hw _ => by
    simp only [Instr.wf, otherDescriptorType, Bool.and_eq_true, bne_iff_ne] at hw
    obtain ⟨⟨⟨h1, h2⟩, h3⟩, h6⟩ := hw
    simp only [rowOf, h1, h2, h3, h6, and_false, if_false]
    exact congrArg (fun a => Instr.getDescriptorOther a _ _) (setupArgs_packetOf ..))

theorem setDescriptor (a : SetupArgs) (wValue : Word16) : Statement (.setDescriptor a wValue) :=
  of_packet rfl (fun _ _ => by
    simp only [rowOf, SetupRow.instr, setupArgs_packetOf]; exact congrArg _ (le16_bytes _))

theorem getConfiguration (a : SetupArgs) (wValue : Word16) : Statement (.getConfiguration a wValue) :=
  of_packet rfl (fun _ _ => by
    simp only [rowOf, SetupRow.instr, setupArgs_packetOf]; exact congrArg _ (le16_bytes _))

theorem setConfiguration (a : SetupArgs) (wValue : Word16) : Statement (.setConfiguration a wValue) :=
  of_packet rfl (fun _ _ => by
    simp only [rowOf, SetupRow.instr, setupArgs_packetOf]; exact congrArg _ (le16_bytes _))

theorem getInterface (a : SetupArgs) (wValue : Word16) : Statement (.getInterface a wValue) :=
  of_packet rfl (fun _ _ => by
    simp only [rowOf, SetupRow.instr, setupArgs_packetOf]; exact congrArg _ (le16_bytes _))

theorem setInterface (a : SetupArgs) (wValue : Word16) : Statement (.setInterface a wValue) :=
  of_packet rfl (fun _ _ => by
    simp only [rowOf, SetupRow.instr, setupArgs_packetOf]; exact congrArg _ (le16_bytes _))

theorem synchFrame (a : SetupArgs) (wValue : Word16) : Statement (.synchFrame a wValue) :=
  of_packet rfl (fun _ _ => by
    simp only [rowOf, SetupRow.instr, setupArgs_packetOf]; exact congrArg _ (le16_bytes _))

theorem stdUnmapped (a : SetupArgs) (request : Byte) (wValue : Word16) : Statement (.stdUnmapped a request wValue) :=
  of_packet rfl (fun hw _ => by
    have hr : ∀ k : Byte, k < 13#8 → request ≠ k := by
      rintro k hk rfl
      exact absurd hk (BitVec.not_lt.mpr (of_decide_eq_true hw))
    simp only [rowOf, hr 0 (by decide), hr 1 (by decide), hr 2 (by decide), hr 3 (by decide), hr 4 (by decide),
      hr 5 (by decide), hr 6 (by decide), hr 7 (by decide), hr 8 (by decide), hr 9 (by decide), hr 10 (by decide),
      hr 11 (by decide), hr 12 (by decide), and_false, false_and, if_false, if_true, SetupRow.instr,
      setupArgs_packetOf]
    exact congrArg _ (le16_bytes _))

theorem setLineCoding (a : SetupArgs) (wValue : Word16) : Statement (.setLineCoding a wValue) :=
  of_packet rfl (fun _ _ => by
    simp only [rowOf, SetupRow.instr, setupArgs_packetOf]; exact congrArg _ (le16_bytes _))

theorem getLineCoding (a : SetupArgs) (wValue : Word16) : Statement (.getLineCoding a wValue) :=
  of_packet rfl (fun _ _ => by
    simp only [rowOf, SetupRow.instr, setupArgs_packetOf]; exact congrArg _ (le16_bytes _))

theorem setControlLineState (a : SetupArgs) (wValue : Word16) : Statement (.setControlLineState a wValue) :=
  of_packet rfl (fun _ _ => by
    simp only [rowOf, SetupRow.instr, setupArgs_packetOf]; exact congrArg _ (le16_bytes _))

theorem sendBreak (a : SetupArgs) (wValue : Word16) : Statement (.sendBreak a wValue) :=
  of_packet rfl (fun _ _ => by
    simp only [rowOf, SetupRow.instr, setupArgs_packetOf]; exact congrArg _ (le16_bytes _))

theorem classOther (a : SetupArgs) (request : Byte) (wValue : Word16) : Statement (.classOther a request wValue) :=
  of_packet rfl (fun hw _ => by
    have hr : ∀ k : Byte, otherClassRequest k = false → request ≠ k := by
      rintro k hk rfl
      exact absurd (hk.symm.trans hw) (by decide)
    simp only [rowOf, hr 0x20 (by decide), hr 0x21 (by decide), hr 0x22 (by decide), hr 0x23 (by decide)]
    exact congrArg₂ (fun a v => Instr.classOther a _ v) (setupArgs_packetOf ..) (le16_bytes _))

theorem vendor (a : SetupArgs) (request : Byte) (wValue : Word16) : Statement (.vendor a request wValue) :=
  of_packet rfl (fun _ _ => by
    simp only [rowOf, SetupRow.instr, setupArgs_packetOf]; exact congrArg _ (le16_bytes _))

theorem typeReserved (a : SetupArgs) (request : Byte) (wValue : Word16) : Statement (.typeReserved a request wValue) :=
  of_packet rfl (fun _ _ => by
    simp only [rowOf, SetupRow.instr, setupArgs_packetOf]; exact congrArg _ (le16_bytes _))

theorem bulkOut : Statement (.bulkOut) := fun _ _ => rfl

theorem bulkIn : Statement (.bulkIn) := fun _ _ => rfl

theorem cmdSizeHeader (pad : Byte) (page dataLen crc : Word16) : Statement (.cmdSizeHeader pad page dataLen crc) := by
  intro _ _
  exact congr (congr (congrArg (fun a b c => Decoded.instr (.cmdSizeHeader pad a b c)) (le16_bytes page))
    (le16_bytes dataLen)) (le16_bytes crc)

theorem cmdPageHeader (pad : Byte) (page dataLen crc : Word16) : Statement (.cmdPageHeader pad page dataLen crc) := by
  intro _ _
  exact congr (congr (congrArg (fun a b c => Decoded.instr (.cmdPageHeader pad a b c)) (le16_bytes page))
    (le16_bytes dataLen)) (le16_bytes crc)

theorem pageData : Statement (.pageData) := fun _ _ => rfl

theorem doneDiscard : Statement (.doneDiscard) := fun _ _ => rfl

theorem validateCmd (want : Byte) : Statement (.validateCmd want) := of_named rfl rfl

theorem reportError (code : ErrCode) : Statement (.reportError code) := of_named rfl rfl

theorem echo : Statement (.echo) := of_named rfl rfl

theorem irqResume : Statement (.irqResume) := fun _ _ => rfl

theorem irqSuspend : Statement (.irqSuspend) := fun _ _ => rfl

theorem irqOther : Statement (.irqOther) := fun _ _ => rfl

theorem irqReset : Statement (.irqReset) := fun _ _ => rfl

theorem irqCtr : Statement (.irqCtr) := fun _ _ => rfl

theorem applyAddress : Statement (.applyAddress) := of_named rfl rfl

theorem commOut : Statement (.commOut) := fun _ _ => rfl

theorem commIn : Statement (.commIn) := fun _ _ => rfl

theorem busSetup (a : DevAddr) (b : List Byte) (dtogRx dtogTx : Bool) : Statement (.busSetup a b dtogRx dtogTx) := of_named rfl rfl

theorem busOut (a : DevAddr) (e : Ep) (b : List Byte) (tail : Byte) (dtogRx : Bool) : Statement (.busOut a e b tail dtogRx) := of_named rfl rfl

theorem busIn (a : DevAddr) (e : Ep) (dtogTx : Bool) : Statement (.busIn a e dtogTx) := of_named rfl rfl

theorem busRefuse (a : DevAddr) (e : Ep) (d : Dir) : Statement (.busRefuse a e d) := of_named rfl rfl

theorem busReset : Statement (.busReset) := of_named rfl rfl

theorem busCause (c : Cause) : Statement (.busCause c) := of_named rfl rfl

theorem flashErase (a : Addr32) : Statement (.flashErase a) := of_named rfl rfl

theorem flashWrite (a : Addr32) (buf : List Byte) (k : Nat) : Statement (.flashWrite a buf k) := of_named rfl rfl

theorem irqSetEnable (v : Bool) : Statement (.irqSetEnable v) := of_named rfl rfl

end RoundTrip

end Sys2Proof.Laws
end

