-- ==== Sys2Proof/Laws/Packets.lean ====
section
/-! SUPPORT. What the shared operations of the control dispatcher and the packet helpers do, said once in the words
of `Sys2Proof.Safety`. -/

namespace Sys2Proof.Machine

/-! ## Bytes and buffers -/

/-- Byte `i` of a buffer whose first bytes were overwritten (41_buffer R130). -/
theorem overlay_getElem? (buf b : List Byte) (i : Nat) : (overlay buf b)[i]? =
    if i < b.length then b[i]? else buf[i]? := by
  rw [overlay, List.getElem?_append]
  split
  · rfl
  · rw [List.getElem?_drop]; congr 1; omega

/-- Byte `i` of the receive area (20_memory R54). -/
theorem Hw.received_getElem? (h : Hw) (e : Ep) (n i : Nat) (hi : i < n) : (h.received e n)[i]? =
    some (h.pmaByte (h.rxBase e + i)) := by
  simp [Hw.received, Hw.pmaBytes, hi]

/-- The length of what was received. -/
theorem Hw.received_length (h : Hw) (e : Ep) (n : Nat) : (h.received e n).length = n := by simp [Hw.received]

/-- A unit has one low and one high half (20_memory R54). -/
theorem le16_inj {a b c d : Byte} (h : le16 a b = le16 c d) : a = c ∧ b = d := by
  have := congrArg bytesOf16 h
  rw [bytesOf16_le16, bytesOf16_le16] at this
  simpa using this

/-- A slice is a chunk of its source. -/
theorem sliceOf_chunk (sp : Space) (n : Nat) (src : List Byte) (off k : Nat) :
    Chunk src off k (sliceOf sp n src off k) := by
  refine ⟨by simp [sliceOf], ?_⟩
  intro i x hi hx
  simp [sliceOf, hi, List.getD_eq_getElem?_getD, hx]

/-- A slice that the source holds whole is a prefix of it. -/
theorem sliceOf_eq_take (sp : Space) (n : Nat) (src : List Byte) (k : Nat) (hk : k ≤ src.length) :
    sliceOf sp n src 0 k = src.take k := by
  apply List.ext_getElem?
  intro i
  simp only [sliceOf, List.getElem?_map, List.getElem?_take, Nat.zero_add]
  split <;> rename_i h
  · simp [List.getElem?_range h, List.getD_eq_getElem?_getD, List.getElem?_eq_getElem (show i < src.length by omega)
      ]
  · simp [h]

/-- When an address is odd (45_collaborators R253). -/
theorem oddAddress_iff (a : Addr32) : oddAddress a = true ↔ a.toNat % 2 = 1 := by
  simp [oddAddress, BitVec.getLsbD, Nat.testBit_zero]

/-! ## The captured packet -/

/-- The type, the request code and the descriptor type of a decode key (30_encoding R82 to R84). -/
theorem setupKey_fields (p : List Byte) : (setupKey p).extractLsb' 5 2 = (byteAt p 0).extractLsb' 5 2 ∧
    (setupKey p).extractLsb' 8 8 = byteAt p 1 ∧ (setupKey p).extractLsb' 24 8 = byteAt p 3 := by
  refine ⟨?_, ?_, ?_⟩ <;>
  · apply BitVec.eq_of_getLsbD_eq
    intro i hi
    have : ∀ j, (setupKey p).getLsbD j = (byteAt p 3 ++ byteAt p 2 ++ byteAt p 1 ++ byteAt p 0 :
        BitVec (8+8+8+8)).getLsbD j := fun j => rfl
    rw [BitVec.getLsbD_extractLsb', this]
    interval_cases i <;> (simp only [BitVec.getLsbD_append, BitVec.getLsbD_extractLsb']; simp)

/-- `bmRequestType` is its three fields (30_encoding R83). -/
theorem requestType_fields (x : Byte) : requestType (x.getLsbD 7) (x.extractLsb' 5 2) (x.extractLsb' 0 5) = x := by
  apply BitVec.eq_of_getLsbD_eq
  intro i hi
  have : (requestType (x.getLsbD 7) (x.extractLsb' 5 2) (x.extractLsb' 0 5)).getLsbD i =
      (BitVec.ofBool (x.getLsbD 7) ++ (x.extractLsb' 5 2) ++ (x.extractLsb' 0 5) :
          BitVec (1 + 2 + 5)).getLsbD i := rfl
  rw [this]
  interval_cases i <;> (simp only [BitVec.getLsbD_append, BitVec.getLsbD_extractLsb', BitVec.getLsbD_ofBool]; simp)

/-- A packet is what its own fields assemble (30_encoding R82). -/
theorem packetOf_setupArgs (p : List Byte) (h : p.length = 8) (t : BitVec 2)
    (ht : (byteAt p 0).extractLsb' 5 2 = t) (r l x : Byte) (hr : byteAt p 1 = r) (hl : byteAt p 2 = l)
    (hx : byteAt p 3 = x) : packetOf (setupArgs p) t r l x = p := by
  obtain ⟨a0,a1,a2,a3,a4,a5,a6,a7,rfl⟩ : ∃ a0 a1 a2 a3 a4 a5 a6 a7, p = [a0,a1,a2,a3,a4,a5,a6,a7] := by
    match p, h with | [a0,a1,a2,a3,a4,a5,a6,a7], _ => exact ⟨a0,a1,a2,a3,a4,a5,a6,a7,rfl⟩
  have h0 : requestType (a0.getLsbD 7) (a0.extractLsb' 5 2) (a0.extractLsb' 0 5) = a0 := requestType_fields a0
  subst ht hr hl hx
  show [requestType (a0.getLsbD 7) (a0.extractLsb' 5 2) (a0.extractLsb' 0 5), a1, a2, a3] ++
      bytesOf16 (le16 a4 a5) ++ bytesOf16 (le16 a6 a7) = _
  rw [h0, bytesOf16_le16, bytesOf16_le16]; rfl

/-- As `packetOf_setupArgs`, with `wValue` whole. -/
theorem packetOfValue_setupArgs (p : List Byte) (h : p.length = 8) (t : BitVec 2) (ht :
    (byteAt p 0).extractLsb' 5 2 = t) (r : Byte) (hr : byteAt p 1 = r) :
        packetOfValue (setupArgs p) t r (packetValue p) = p := by
  have := bytesOf16_le16 (byteAt p 2) (byteAt p 3)
  simp only [bytesOf16, List.cons.injEq] at this
  exact packetOf_setupArgs p h t ht r _ _ hr this.1.symm this.2.1.symm

/-- The operands of a captured packet (30_encoding R95). -/
theorem ControlCtx.operands_of_setup (a : SetupArgs) (t : BitVec 2) (r : Byte) (v : Word16) (s : State) (h :
    s.ctl.setup = packetOfValue a t r v) :
  s.ctl.recipient = a.rcp ∧ s.ctl.wValue = v ∧ s.ctl.wIndex = a.wIndex ∧ s.ctl.wLength = a.wLength ∧
      s.ctl.wValueL = v.extractLsb' 0 8 := by
  have := setupArgs_packetOf a t r (v.extractLsb' 0 8) (v.extractLsb' 8 8)
  have h2 := packetValue_packetOfValue a t r v
  refine ⟨?_, ?_, ?_, ?_, ?_⟩
  · exact (congrArg (fun p => (setupArgs p).rcp) h).trans (congrArg SetupArgs.rcp this)
  · exact (congrArg packetValue h).trans h2
  · exact (congrArg (fun p => (setupArgs p).wIndex) h).trans (congrArg SetupArgs.wIndex this)
  · exact (congrArg (fun p => (setupArgs p).wLength) h).trans (congrArg SetupArgs.wLength this)
  · simp [ControlCtx.wValueL, h]; rfl

/-- Capturing the packet that is already there changes nothing. -/
theorem State.capture_of_setup {s : State} {p : List Byte} (h : s.ctl.setup = p) : s.capture p =
    s := by subst h; rfl

/-- The endpoint a number below 3 names. -/
theorem epOfNum_eq_some (n : Nat) (e : Ep) (h : n = e.num) : epOfNum n = some e := by subst h; cases e <;> rfl

/-- A number above 2 names no endpoint. -/
theorem epOfNum_eq_none (n : Nat) (h : 2 < n) : epOfNum n = none := by
  simp only [epOfNum]; rw [if_neg (by omega), if_neg (by omega), if_neg (by omega)]

/-! ## How a request ends -/

/-- ACK (42_control R143). -/
theorem acked_ackInto (s : State) (x : CtlState) : Acked s (ackInto x s) x := by
  refine ⟨rfl, fun q => ?_⟩
  simp only [ackInto, ackRule, State.send_quiet q, State.enter_hw]
  have : queuedBytes s.cfg s.hw.powerOns .ctrl [] 0 = [] := by simp [queuedBytes, sliceOf]
  rw [this]; exact Hw.afterWrite_queues _ _

/-- REJECT (42_control R144). -/
theorem rejected_rejectRule (s : State) : Rejected s (rejectRule s) := by
  refine ⟨rfl, fun q => ?_⟩
  simp only [rejectRule, State.raiseCtrlStall_quiet q]

/-- The clamp of START_IN (42_control R145). -/
theorem min16_eq_ofNat (a b : Word16) : min16 a b = BitVec.ofNat 16 (min a.toNat b.toNat) := by
  apply BitVec.eq_of_toNat_eq
  simp only [min16, BitVec.le_def, BitVec.toNat_ofNat]
  split <;> have := a.isLt <;> have := b.isLt <;> omega

/-- What `write` returns (41_buffer R131). -/
theorem Hw.write_fst (c : Config) (h : Hw) (e : Ep) (src : List Byte) (n : Nat) : (Hw.write c e src n h).1 =
    min n (c.cap.get e) := by
  simp [Hw.write]

/-- The length of the next packet of a data stage (42_control R146). -/
theorem nextChunk_length (s : State) : (nextChunk s).length =
    min s.ctl.xferRem.toNat (packetSize s.cfg) := by simp [nextChunk, sliceOf]

/-- TRANSMIT_SETUP_PACKET under a device-to-host direction bit (42_control R146). -/
theorem transmitRule_of_dirIn (s : State) (hd : s.ctl.dirIn = true) :
   ∃ h', transmitRule s = (true, { s with
      hw := h'
      ctl := { s.ctl with
        xferOff := s.ctl.xferOff + BitVec.ofNat 16 (min s.ctl.xferRem.toNat (packetSize s.cfg))
        xferRem := s.ctl.xferRem - BitVec.ofNat 16 (min s.ctl.xferRem.toNat (packetSize s.cfg)) } }) ∧
      (s.quiet → h' = s.hw.afterWrite .ctrl (nextChunk s)) := by
  refine ⟨(Hw.write s.cfg .ctrl (nextChunk s) (nextChunk s).length s.hw).2, ?_, ?_⟩
  · simp only [transmitRule, hd, if_true, Hw.write_fst, nextChunk_length]
    have : min (min s.ctl.xferRem.toNat (packetSize s.cfg)) (s.cfg.cap.get .ctrl) =
        min s.ctl.xferRem.toNat (packetSize s.cfg) := by
      simp only [packetSize, PerEp.get]; omega
    rw [this]
  · intro q
    rw [Hw.write_quiet q, queuedBytes_of_le _ _ (Nat.le_refl _)]
    have hl : (nextChunk s).length ≤ min (nextChunk s).length (s.cfg.cap.get .ctrl) := by
      rw [nextChunk_length]; simp only [packetSize, PerEp.get]; omega
    show s.hw.afterWrite .ctrl (List.take _ _) = _
    rw [List.take_of_length_le hl]

/-- START_IN, in both directions (42_control R145, R146). -/
theorem sends_startInRule (s : State) (src : XferSrc) (n : Word16) : Sends s (startInRule src n s) src n := by
  unfold Sends
  extract_lets total k
  have htot : (min16 n s.ctl.wLength).toNat = total := by
    rw [min16_eq_ofNat]; simp only [BitVec.toNat_ofNat]; have := n.isLt; omega
  have hlt : total < 65536 := by have := n.isLt; omega
  split
  · rename_i hd
    let u : State := { s with ctl.xferSrc := src, ctl.xferOff := 0, ctl.xferRem := min16 n s.ctl.wLength }
    obtain ⟨h', e, hq⟩ := transmitRule_of_dirIn u hd
    have hk : min u.ctl.xferRem.toNat (packetSize u.cfg) = k := by
      show min (min16 n s.ctl.wLength).toNat _ = _
      rw [htot]
    rw [hk] at e
    have hr : startInRule src n s = (transmitRule u).2.enter (if (transmitRule u).1 then .dataIn else .idle) := rfl
    rw [hr, e]
    have e1 : u.ctl.xferOff + BitVec.ofNat 16 k = BitVec.ofNat 16 k := by show 0#16 + _ = _; simp
    have e2 : u.ctl.xferRem - BitVec.ofNat 16 k = BitVec.ofNat 16 (total - k) := by
      apply BitVec.eq_of_toNat_eq
      show (min16 n s.ctl.wLength - BitVec.ofNat 16 k).toNat = _
      simp only [BitVec.toNat_sub, htot, BitVec.toNat_ofNat]
      omega
    rw [e1, e2]
    refine ⟨rfl, fun q => ⟨nextChunk u, ?_, ?_⟩⟩
    · have : nextChunk u = sliceOf .source s.hw.powerOns (sourceBytes s src) 0 k := by
        rw [nextChunk, hk]
        have : sourceBytes u u.ctl.xferSrc = sourceBytes s src := by cases src <;> rfl
        rw [this]; rfl
      rw [this]; exact sliceOf_chunk _ _ _ _ _
    · simp only [State.enter_hw, hq q]; exact Hw.afterWrite_queues _ _
  · rename_i hd
    have hd : s.ctl.dirIn = false := by simpa using hd
    have : ({ s with ctl.xferSrc := src, ctl.xferOff := 0, ctl.xferRem := min16 n s.ctl.wLength } :
        State).ctl.dirIn = false := hd
    have e :
        transmitRule ({ s with ctl.xferSrc := src, ctl.xferOff := 0, ctl.xferRem := min16 n s.ctl.wLength } :
            State) =
                (false, ({ s with ctl.xferSrc := src, ctl.xferOff := 0, ctl.xferRem := min16 n s.ctl.wLength } : State).logEvent .badDirection) := if_neg (by rw [this]; decide
                    )
    have e2 : startInRule src n s =
        (({ s with ctl.xferSrc := src, ctl.xferOff := 0, ctl.xferRem := min16 n s.ctl.wLength } :
            State).logEvent .badDirection).enter .idle := by
      rw [startInRule]; simp only [e]; rfl
    rw [e2, min16_eq_ofNat]; rfl

end Sys2Proof.Machine
end

