-- ==== Sys2Proof/Laws/Present.lean ====
section
/-! SUPPORT. What presenting an operation by itself does. -/

namespace Sys2Proof.Machine

variable {s : State} {c : Code}

/-- What decodes is no name that stands for a word. -/
theorem resolve_of_decode {bl : BlState} {i : Instr} (h : decode bl c = .instr i) : c.resolve = c := by
  cases c with
  | name j =>
    simp only [decode, decodeName] at h
    split at h
    · simp [Code.resolve, *]
    · cases h
  | _ => rfl

/-- The word of a row is no name that stands for another. -/
theorem resolve_encode (i : Instr) : (encode i).resolve = encode i := by
  cases i <;> rfl

/-- A step that takes an operation presents it. -/
theorem step_op {rest : List Line} (h : s.lines = .op c :: rest) : step s = present c { s with lines := rest } := by
  simp [step, h]

/-- Outside the header phases no CRC is looked at, nor in a form that is no packet. -/
theorem crcFails_eq_false_iff : s.crcFails c = false ↔
    ∀ p, c = .bulk p → (s.sess.blState = .waitSizeHeader ∨ s.sess.blState = .waitDataHeader) → p.length = 8 →
      recordCrcGood s.cfg p := by
  cases c <;> simp [State.crcFails]

/-- A form that decodes, and is no record with a wrong CRC, runs its instruction. -/
theorem present_of_decode {i : Instr} (hd : decode s.sess.blState c = .instr i) (hc : s.crcFails c = false) :
    present c s = exec i s := by
  simp [present, resolve_of_decode hd, hc, hd]

/-- A record of the right length with a wrong CRC draws `CMD_WRONG_CRC`, whatever its id (43_bulk R192). -/
theorem present_of_crcFails {p : List Byte} (hc : s.crcFails (.bulk p) = true) :
    present (.bulk p) s = exec (.reportError .cmdWrongCrc) (s.keepRecord (.bulk p)) := by
  simp [present, Code.resolve, hc]

/-- A form that no row takes. -/
theorem present_of_reject {r : DecodeError} (hn : c.resolve = c) (hd : decode s.sess.blState c = .reject r)
    (hc : s.crcFails c = false) : present c s = undecoded r (s.keepRecord c) := by
  simp [present, hn, hc, hd]

/-- A name that stands for a word is presented as that word. -/
theorem present_name {i : Instr} (h : i.byName = false) : present (.name i) s = present (encode i) s := by
  simp only [present, resolve_encode i, show Code.resolve (.name i) = encode i by simp [Code.resolve, h]]

end Sys2Proof.Machine
end

