-- ==== Sys2Proof/Tests/Slice0.lean ====
section
/-! SUPPORT. Tests. Expected values come from the spec: section numbers such as T3.7, G2.3, K1, I2 and C8 are rows of
spec/95_test_vectors.md; words are written out from spec/30_encoding.md. The last part shows, for each statement for the
provers, a state and operands that meet its hypotheses. -/

namespace Sys2Proof.Tests

open Sys2Proof Sys2Proof.Machine

/-! ## Small states -/

/-- The power-on state of REFCFG with `scratch` and `cmd_buf` filled with zeros. -/
def base : State := { State.reset with scratch := List.replicate 64 0, cmdBuf := List.replicate 8 0 }

/-- `base` with one endpoint register changed. -/
def epr (e : Ep) (v : Word16) : State := { base with hw.epr := base.hw.epr.set e v }

/-- `base` with a captured SETUP packet. -/
def setup (p : List Byte) : State := { base with ctl.setup := p }

/-- `base` with a command record. -/
def record (p : List Byte) : State := { base with cmdBuf := p }

/-- `base` after an OUT packet of these bytes on `e`. -/
def received (e : Ep) (b : List Byte) : State :=
  { base with hw := { (base.hw.receive e b 0) with epr := base.hw.epr.set e (eprAfterOut (base.hw.epr.get e) false) } }

/-- `base` with pages of 4 bytes, so that a page can be looked at whole. -/
def paged : State := { base with cfg.pageSize := 4 }

/-- `paged` in RECEIVING_PAGE, after an OUT packet of these bytes. -/
def receiving (pageOffset : BitVec 32) (expectedLen total : Word16) (b : List Byte) : State :=
  { paged with
    hw := (received .data b).hw
    sess := { FlashSession.zero with
      totalPages := total, pageOffset := pageOffset, expectedLen := expectedLen, headerAccepted := true
      blState := .receivingPage } }

/-- `base` with one line to run. -/
def line (s : State) (l : Line) : State := { s with lines := [l] }

/-- What a field holds after an operation that answers a next state. -/
def after {α : Type} (f : State → α) : Answer → Option α
  | .next t => some (f t)
  | .fault _ | .refused _ => none

/-- The unit of packet memory at a unit index. -/
def unit (s : State) (i : Nat) : Word16 := s.hw.pmaUnit (2 * i)

/-- The state an operation answers. -/
def state (a : Answer) : State :=
  match a with
  | .next t => t
  | .fault _ | .refused _ => base

theorem base_ready : base.ready := ⟨by decide, by decide⟩

theorem base_runnable : base.runnable := ⟨base_ready, rfl⟩

theorem paged_runnable : paged.runnable := ⟨⟨by decide, by decide⟩, rfl⟩

/-! ## Well-formedness: each check refuses an ill-formed term -/

theorem test_wf_getDescriptorOther : ∀ t ∈ [1, 2, 3, 6], (Instr.getDescriptorOther ⟨true, 0, 0, 0⟩ t 0).wf = false := by
  decide

theorem test_wf_stdUnmapped : (Instr.stdUnmapped ⟨true, 0, 0, 0⟩ 12 0).wf = false ∧
    (Instr.stdUnmapped ⟨true, 0, 0, 0⟩ 13 0).wf = true := by decide

theorem test_wf_classOther : (Instr.classOther ⟨true, 0, 0, 0⟩ 0x20 0).wf = false ∧
    (Instr.classOther ⟨true, 0, 0, 0⟩ 0x23 0).wf = false ∧ (Instr.classOther ⟨true, 0, 0, 0⟩ 0x24 0).wf = true := by
  decide

theorem test_wf_busSetup : (Instr.busSetup none [0, 0, 0, 0, 0, 0, 0] false false).wf = false := by decide

theorem test_wf_busOut (b : List Byte) (h : b.length = 1024) : (Instr.busOut none .data b 0 false).wf = false := by
  simp [Instr.wf, h]

/-- A bus move with a packet that is no packet is refused by its own name (93 section 3); a row that bits select,
named, runs as its word: here CTRL_IN after a stage whose bytes are all queued (42_control R176, R178). -/
theorem test_step_named :
    step (line base (.op (.name (.busSetup none [0, 0, 0] false false)))) = .refused .setupNotEightBytes ∧
    after (·.ctl.ctlState) (step (line { base with ctl.ctlState := .dataIn } (.op (.name .ctrlIn)))) =
      some .status := ⟨rfl, rfl⟩

/-- 43_bulk R192, 60_exceptions R277: a record with the other phase's id and a good CRC, one that is too short, one
with a wrong CRC, and one wrong in CRC and id. -/
theorem test_step_bad_record :
    after (fun t => (t.hw.outgoing .data, t.cmdBuf))
      (step (line base (.op (.bulk [0x21, 0, 0, 0, 4, 0, 0x7C, 0xB2])))) =
      some ([3], [0x21, 0, 0, 0, 4, 0, 0x7C, 0xB2]) ∧
    after (fun t => t.hw.outgoing .data) (step (line base (.op (.bulk [0x20])))) = some [1] ∧
    after (fun t => t.hw.outgoing .data) (step (line base (.op (.bulk [0x20, 0, 3, 0, 0, 0, 0xC5, 0xA0])))) = some [2] ∧
    after (fun t => t.hw.outgoing .data) (step (line base (.op (.bulk [0x21, 0, 0, 0, 4, 0, 0x7D, 0xB2])))) = some [2] := by
  decide +kernel

/-- 43_bulk R193: a good record presented by itself is accepted. -/
theorem test_step_good_record :
    after (fun t => (t.sess.blState, t.sess.totalPages))
      (step (line base (.op (.bulk [0x20, 0, 3, 0, 0, 0, 0xC4, 0xA0])))) = some (.waitDataHeader, 3) := by
  decide +kernel

/-- 45_collaborators R251 with a buffer one byte short: the byte it holds is stored, the other is a free value. -/
theorem test_step_flashWrite_short :
    after (fun t => t.flash.read? 0x08002000) (step (line base (.op (.name (.flashWrite 0x08002000 [0x5A] 1))))) =
      some (some 0x5A) := by decide

theorem test_decode_lengths :
    decode .done (.setup [0x80, 6, 0, 1, 0, 0, 0x40]) = .reject .setupLength ∧
    decode .waitSizeHeader (.bulk [0x20, 0, 3, 0, 0, 0, 0xC4]) = .reject .recordLength ∧
    decode .waitSizeHeader (.bulk [0x21, 0, 0, 0, 4, 0, 0x7C, 0xB2]) = .reject .recordId ∧
    decode .waitDataHeader (.bulk [0x20, 0, 3, 0, 0, 0, 0xC4, 0xA0]) = .reject .recordId ∧
    decode .done (.event 0x03) = .reject .eventEndpoint ∧ decode .done (.event 0x3F) = .reject .eventEndpoint := by
  decide

/-! ## Decoding: words written out from 30_encoding R82 to R93 -/

/-- R83, R85: `bmRequestType = 80` is direction 1, type 0, recipient 0; `82` has recipient 2. -/
theorem test_decode_standard_low :
    decode .done (.setup [0x82, 0, 0, 0, 0x81, 0, 2, 0]) = .instr (.getStatus ⟨true, 2, 0x81, 2⟩ 0) ∧
    decode .done (.setup [0x02, 1, 0, 0, 1, 0, 0, 0]) = .instr (.clearFeature ⟨false, 2, 1, 0⟩ 0) ∧
    decode .done (.setup [0x00, 2, 0, 0, 0, 0, 0, 0]) = .instr (.stdReserved2 ⟨false, 0, 0, 0⟩ 0) ∧
    decode .done (.setup [0x00, 3, 1, 0, 0, 0, 0, 0]) = .instr (.setFeature ⟨false, 0, 0, 0⟩ 1) ∧
    decode .done (.setup [0x00, 4, 0, 0, 0, 0, 0, 0]) = .instr (.stdReserved4 ⟨false, 0, 0, 0⟩ 0) ∧
    decode .done (.setup [0x00, 5, 5, 0, 0, 0, 0, 0]) = .instr (.setAddress ⟨false, 0, 0, 0⟩ 5) := by decide

/-- R86: the descriptor type is the high byte of `wValue`. -/
theorem test_decode_descriptor :
    decode .done (.setup [0x80, 6, 0, 1, 0, 0, 0x40, 0]) = .instr (.getDescriptorDevice ⟨true, 0, 0, 64⟩ 0) ∧
    decode .done (.setup [0x80, 6, 0, 2, 0, 0, 9, 0]) = .instr (.getDescriptorConfiguration ⟨true, 0, 0, 9⟩ 0) ∧
    decode .done (.setup [0x80, 6, 1, 3, 9, 4, 0xFF, 0]) = .instr (.getDescriptorString ⟨true, 0, 0x0409, 255⟩ 1) ∧
    decode .done (.setup [0x80, 6, 0, 6, 0, 0, 10, 0]) =
      .instr (.getDescriptorDeviceQualifier ⟨true, 0, 0, 10⟩ 0) ∧
    decode .done (.setup [0x80, 6, 2, 4, 0, 0, 10, 0]) = .instr (.getDescriptorOther ⟨true, 0, 0, 10⟩ 4 2) := by decide

theorem test_decode_standard_high :
    decode .done (.setup [0x00, 7, 0, 1, 0, 0, 0x12, 0]) = .instr (.setDescriptor ⟨false, 0, 0, 18⟩ 0x0100) ∧
    decode .done (.setup [0x80, 8, 0, 0, 0, 0, 1, 0]) = .instr (.getConfiguration ⟨true, 0, 0, 1⟩ 0) ∧
    decode .done (.setup [0x00, 9, 1, 0, 0, 0, 0, 0]) = .instr (.setConfiguration ⟨false, 0, 0, 0⟩ 1) ∧
    decode .done (.setup [0x81, 10, 0, 0, 0, 0, 1, 0]) = .instr (.getInterface ⟨true, 1, 0, 1⟩ 0) ∧
    decode .done (.setup [0x01, 11, 0, 0, 0, 0, 0, 0]) = .instr (.setInterface ⟨false, 1, 0, 0⟩ 0) ∧
    decode .done (.setup [0x82, 12, 0, 0, 1, 0, 2, 0]) = .instr (.synchFrame ⟨true, 2, 1, 2⟩ 0) ∧
    decode .done (.setup [0x80, 13, 0, 0, 0, 0, 0, 0]) = .instr (.stdUnmapped ⟨true, 0, 0, 0⟩ 13 0) ∧
    decode .done (.setup [0x80, 0xFF, 0, 0, 0, 0, 0, 0]) = .instr (.stdUnmapped ⟨true, 0, 0, 0⟩ 0xFF 0) := by decide

/-- R87, and the types of R83: `A1` is direction 1, type 1, recipient 1; `40` is type 2; `60` is type 3. -/
theorem test_decode_class :
    decode .done (.setup [0x21, 0x20, 0, 0, 0, 0, 7, 0]) = .instr (.setLineCoding ⟨false, 1, 0, 7⟩ 0) ∧
    decode .done (.setup [0xA1, 0x21, 0, 0, 0, 0, 7, 0]) = .instr (.getLineCoding ⟨true, 1, 0, 7⟩ 0) ∧
    decode .done (.setup [0x21, 0x22, 0, 3, 0, 0, 0, 0]) = .instr (.setControlLineState ⟨false, 1, 0, 0⟩ 0x0300) ∧
    decode .done (.setup [0x21, 0x23, 0x34, 0x12, 0, 0, 0, 0]) = .instr (.sendBreak ⟨false, 1, 0, 0⟩ 0x1234) ∧
    decode .done (.setup [0x21, 0x7F, 0, 0, 0, 0, 0, 0]) = .instr (.classOther ⟨false, 1, 0, 0⟩ 0x7F 0) ∧
    decode .done (.setup [0x40, 1, 0, 0, 0, 0, 0, 0]) = .instr (.vendor ⟨false, 0, 0, 0⟩ 1 0) ∧
    decode .done (.setup [0x60, 0, 0, 0, 0, 0, 0, 0]) = .instr (.typeReserved ⟨false, 0, 0, 0⟩ 0 0) := by decide

/-- R88, R89: the record is id, pad, page, data length, CRC, each low byte first. -/
theorem test_decode_record :
    decode .waitSizeHeader (.bulk [0x20, 0xAA, 3, 0, 0x34, 0x12, 0xC4, 0xA0]) =
      .instr (.cmdSizeHeader 0xAA 3 0x1234 0xA0C4) ∧
    decode .waitDataHeader (.bulk [0x21, 0, 1, 0, 0x0A, 0, 0xC7, 0xE7]) = .instr (.cmdPageHeader 0 1 10 0xE7C7) ∧
    decode .receivingPage (.bulk [0x20]) = .instr .pageData ∧
    decode .done (.bulk [0x21, 0, 2, 0, 0x0A, 0, 0x1B, 0x7C]) = .instr .doneDiscard := by decide

/-- R92: `EP_ID | DIR << 4 | SETUP << 5`. -/
theorem test_decode_event :
    decode .done (.event 0x30) = .instr .ctrlSetup ∧ decode .done (.event 0x10) = .instr .ctrlOut ∧
    decode .done (.event 0x00) = .instr .ctrlIn ∧ decode .done (.event 0x20) = .instr .ctrlIn ∧
    decode .done (.event 0x11) = .instr .bulkOut ∧ decode .done (.event 0x01) = .instr .bulkIn ∧
    decode .done (.event 0x12) = .instr .commOut ∧ decode .done (.event 0x02) = .instr .commIn := by decide

/-- R93; that a word presented by itself stands for one row is log 5. -/
theorem test_decode_cause :
    decode .done (.cause 0x1000) = .instr .irqResume ∧ decode .done (.cause 0x0800) = .instr .irqSuspend ∧
    decode .done (.cause 0x0000) = .instr .irqOther ∧ decode .done (.cause 0x0400) = .instr .irqReset ∧
    decode .done (.cause 0x8000) = .instr .irqCtr ∧
    decodeCauses 0x9E00 = [.resume, .suspend, .other, .reset] ∧
    decodeCauses 0x8200 = [.other, .ctr] := by decide

/-- The same words as opcode_table.json numbers their bits. -/
theorem test_decodeTableWord :
    decodeTableWord 16 0x0500 = some (.setAddress ⟨false, 0, 0, 0⟩ 0) ∧
    decodeTableWord 32 0x03000600 = some (.getDescriptorString ⟨false, 0, 0, 0⟩ 0) ∧
    decodeTableWord 16 0x2120 = some (.getLineCoding ⟨false, 0, 0, 0⟩ 0) ∧
    decodeTableWord 8 0x21 = some (.cmdPageHeader 0 0 0 0) ∧ decodeTableWord 8 0x30 = some .ctrlSetup ∧
    decodeTableWord 8 0x02 = some .commIn ∧ decodeTableWord 16 0x0400 = some .irqReset := by decide

theorem test_withFetchWord :
    after (fun t => (t.dev.addrPending, t.dev.pendingAddr)) (step (base.withFetchWord 32 0x00050500)) =
      some (true, 5) ∧
    after (fun t => t.sess.blState) (step (base.withFetchWord 8 0x20)) = some .done := by decide

/-! ## Values -/

/-- The check value of CRC-16/CCITT-FALSE over `31 .. 39`, and the CRC of a record of P2. -/
theorem test_crc16 :
    crc16 Config.ref [0x31, 0x32, 0x33, 0x34, 0x35, 0x36, 0x37, 0x38, 0x39] = 0x29B1 ∧
    crc16 Config.ref [0x21, 0, 1, 0, 0x0A, 0] = 0xE7C7 := by decide +kernel

/-- 43_bulk R203: the page address is reduced modulo 2^32. -/
theorem test_pageBase : pageBase Config.ref 1 = 0x08002400 ∧
    pageBase { Config.ref with flashBase := 0xFFFFFC00 } 1 = 0 := by decide

/-- 20_memory R54, 41_buffer R131: low byte first, an odd last byte in a unit whose high half is 0. -/
theorem test_memory :
    Memory.store [(4, 1), (5, 2), (6, 3)] 5 [9] = [(4, 1), (5, 9), (6, 3)] ∧
    Memory.store [(4, 1), (8, 3)] 5 [7, 9] = [(4, 1), (5, 7), (6, 9), (8, 3)] ∧
    Memory.read? [(4, 1), (8, 3)] 8 = some 3 ∧ Memory.read? [(4, 1), (8, 3)] 7 = none := by decide

/-- 95 section 1, S1, tables T1 and T2: all sixteen pairs of both directions. -/
theorem test_status_pairs :
    ∀ x ∈ [Stat.disabled, .stall, .nak, .valid], ∀ y ∈ [Stat.disabled, .stall, .nak, .valid],
      let r := 0x4260 ||| ((statCode x).setWidth 16 <<< 12)
      let q := 0x7240 ||| ((statCode x).setWidth 16 <<< 4)
      regWriteValue r (setStatusWord .rx y r) = 0x4260 ||| ((statCode y).setWidth 16 <<< 12) ∧
      regWriteValue q (setStatusWord .tx y q) = 0x7240 ||| ((statCode y).setWidth 16 <<< 4) := by decide

/-- X5. -/
theorem test_powerOn :
    after (fun t => (t.hw.epr, t.hw.daddr, t.hw.istr, t.hw.cntr))
      (step (line { base with hw.epr := ⟨0, 0, 0⟩, hw.daddr := 0x85, hw.cntr := 0x000C } .powerOn)) =
      some (⟨0x3220, 0x3021, 0x0622⟩, 0x80, 0, 0) := by decide

/-! ## One step of each instruction -/

theorem test_eprWrite : after (·.hw.epr.data) (exec (.eprWrite .data 0x5A5A) (epr .data 0xA5A5)) = some 0x727A ∧
    after (·.hw.epr.data) (exec (.eprWrite .data 0) (epr .data 0xFFFF)) = some 0x7870 := by decide

theorem test_setStatus : after (·.hw.epr.data) (exec (.setStatus .data .rx .valid) (epr .data 0x2021)) = some 0x3021 ∧
    after (·.hw.epr.ctrl) (exec (.setStatus .ctrl .tx .disabled) (epr .ctrl 0x7270)) = some 0x7240 := by decide

theorem test_stall : after (·.hw.epr.data) (exec (.stall .data) (epr .data 0x7061)) = some 0x5051 := by decide

theorem test_unstall : after (·.hw.epr.data) (exec (.unstall .data) (epr .data 0x5051)) = some 0x7061 := by decide

theorem test_markRxDone : after (·.hw.epr.ctrl) (exec (.markRxDone .ctrl) (epr .ctrl 0x2220)) = some 0x3220 := by
  decide

theorem test_markTxReady : after (·.hw.epr.data) (exec (.markTxReady .data) (epr .data 0x3021)) = some 0x3031 := by
  decide

/-- T3.11 to T3.13. -/
theorem test_clearCtr : after (·.hw.epr.data) (exec (.clearCtr .data .rx) (epr .data 0xE0F1)) = some 0x60F1 ∧
    after (·.hw.epr.data) (exec (.clearCtr .data .tx) (epr .data 0xE0F1)) = some 0xE071 ∧
    after (·.hw.epr.data) (exec (.clearCtr .data .rx) { epr .data 0xE0F1 with cfg.ctrClearBoth := true }) =
      some 0x6071 := by decide

theorem test_epConfigure :
    after (·.hw.epr.data) (exec (.epConfigure .data .bulk 1 .valid .nak) (epr .data 0x7061)) = some 0x3021 ∧
    after (·.hw.epr.comm) (exec (.epConfigure .comm .interrupt 2 .disabled .nak) (epr .comm 0)) = some 0x0622 := by
  decide

/-- B2, B3, B7. -/
theorem test_read :
    after (fun t => (t.result, t.scratch.take 6, t.hw.epr.data))
      (exec (.read .data .scratch 64) (received .data [0x11, 0x22, 0x33, 0x44, 0x55])) =
      some (5, [0x11, 0x22, 0x33, 0x44, 0x55, 0], 0xA021) ∧
    after (fun t => (t.result, t.ctl.setup, t.hw.epr.ctrl))
      (exec (.read .ctrl .setup 8) (received .ctrl [0x80, 6, 0, 1, 0, 0, 0x40, 0])) =
      some (8, [0x80, 6, 0, 1, 0, 0, 0x40, 0], 0xB220) := by decide

/-- B1, B5. -/
theorem test_write :
    after (fun t => (t.result, t.hw.txCount.data, t.hw.epr.data, unit t 0x38, unit t 0x39, unit t 0x3A))
      (exec (.write .data [0x11, 0x22, 0x33, 0x44, 0x55] 5) base) =
      some (5, 5, 0x3031, 0x2211, 0x4433, 0x0055) ∧
    after (fun t => (t.result, t.hw.txCount.ctrl, unit t 0x17))
      (exec (.write .ctrl [1, 2, 3, 4, 5, 6, 7, 8, 9] 9) base) = some (8, 8, 0x0807) := by decide

/-- B6: a zero-length packet. -/
theorem test_ack : after (fun t => (t.hw.txCount.ctrl, t.hw.epr.ctrl, t.hw.pma)) (exec .ack base) =
    some (0, 0x3230, []) := by decide

/-- X1: from `3A20`. -/
theorem test_reject : after (fun t => (t.hw.epr.ctrl, t.ctl.ctlState)) (exec .reject (epr .ctrl 0x3A20)) =
    some (0x1A20, .idle) := by decide

/-- P1, line 5. -/
theorem test_startIn :
    after (fun t => (t.ctl.xferRem, t.ctl.xferOff, t.ctl.ctlState, t.hw.txCount.ctrl, unit t 0x14))
      (exec (.startIn .dev 18) (setup [0x80, 6, 0, 1, 0, 0, 0x40, 0])) = some (10, 8, .dataIn, 8, 0x0112) := by decide

/-- P1, line 9, and G2.31's guard. -/
theorem test_transmitSetupPacket :
    after (fun t => (t.result, t.ctl.xferRem, t.ctl.xferOff, t.hw.txCount.ctrl))
      (exec .transmitSetupPacket { setup [0x80, 6, 0, 1, 0, 0, 0x40, 0] with
        ctl.xferSrc := .dev, ctl.xferOff := 16, ctl.xferRem := 2 }) = some (1, 0, 18, 2) ∧
    after (fun t => (t.result, t.log, t.hw.epr.ctrl))
      (exec .transmitSetupPacket (setup [0x00, 6, 0, 1, 0, 0, 0x12, 0])) = some (0, [.badDirection], 0x3220) := by
  decide

/-- P1, line 5. -/
theorem test_ctrlSetup :
    after (fun t => (t.ctl.ctlState, t.ctl.xferRem, t.ctl.setup))
      (exec .ctrlSetup (received .ctrl [0x80, 6, 0, 1, 0, 0, 0x40, 0])) =
      some (.dataIn, 10, [0x80, 6, 0, 1, 0, 0, 0x40, 0]) := by decide

/-- G2.25 and G2.27. -/
theorem test_ctrlOut :
    after (fun t => (t.cls.lc, t.ctl.ctlState)) (exec .ctrlOut { received .ctrl [0x00, 0xE1, 0x00] with
      ctl.setup := [0x21, 0x20, 0, 0, 0, 0, 7, 0], ctl.ctlState := .dataOut }) =
      some ([0x00, 0xE1, 0, 0, 0, 0, 8], .status) ∧
    after (fun t => (t.cls.dtr, t.cls.rts, t.hw.epr.ctrl)) (exec .ctrlOut { received .ctrl [0x00] with
      ctl.setup := [0x21, 0x22, 0, 3, 0, 0, 1, 0], ctl.ctlState := .dataOut }) = some (true, true, 0xB220) := by decide

/-- P1, lines 7 and 11. -/
theorem test_ctrlIn :
    after (fun t => (t.ctl.ctlState, t.ctl.xferRem, unit t 0x14)) (exec .ctrlIn { setup [0x80, 6, 0, 1, 0, 0, 0x40, 0] with
      ctl.xferSrc := .dev, ctl.xferOff := 8, ctl.xferRem := 10, ctl.ctlState := .dataIn }) =
      some (.dataIn, 2, 0x0483) ∧
    after (fun t => (t.ctl.ctlState, t.hw.epr.ctrl)) (exec .ctrlIn { base with ctl.ctlState := .dataIn }) =
      some (.status, 0x3220) := by decide

/-- G2.2 and G2.4. -/
theorem test_getStatus :
    after (fun t => (t.ctl.statusBuf, t.ctl.ctlState))
      (exec (.getStatus ⟨true, 0, 0, 2⟩ 0) { base with ctl.remoteWakeup := true }) = some ([2, 0], .dataIn) ∧
    after (fun t => t.ctl.statusBuf) (exec (.getStatus ⟨true, 2, 0x81, 2⟩ 0) (epr .data 0x1011)) = some [1, 0] := by
  decide

/-- G2.7. -/
theorem test_clearFeature :
    after (fun t => (t.hw.epr, t.ctl.ctlState)) (exec (.clearFeature ⟨false, 2, 2, 0⟩ 0) base) =
      some (⟨0x3230, 0x3021, 0x3622⟩, .status) ∧
    after (fun t => t.ctl.remoteWakeup) (exec (.clearFeature ⟨false, 0, 0, 0⟩ 1)
      { base with ctl.remoteWakeup := true }) = some false := by decide

/-- G2.3. -/
theorem test_setFeature :
    after (fun t => (t.hw.epr, t.ctl.ctlState)) (exec (.setFeature ⟨false, 2, 1, 0⟩ 0) base) =
      some (⟨0x3230, 0x1011, 0x0622⟩, .status) ∧
    after (fun t => t.ctl.remoteWakeup) (exec (.setFeature ⟨false, 0, 0, 0⟩ 1) base) = some true := by decide

/-- G2.10. -/
theorem test_setAddress :
    after (fun t => (t.ctl.ctlState, t.dev.addrPending, t.dev.pendingAddr, t.hw.daddr))
      (exec (.setAddress ⟨false, 0, 0, 0⟩ 5) base) = some (.status, true, 5, 0x80) := by decide

/-- The requests that are always rejected: G2.13 to G2.16, G2.29, G2.30. -/
theorem test_rejected : ∀ i ∈ [Instr.stdReserved2 ⟨false, 0, 0, 0⟩ 0, .stdReserved4 ⟨false, 0, 0, 0⟩ 0,
      .getDescriptorDeviceQualifier ⟨true, 0, 0, 10⟩ 0, .getDescriptorOther ⟨true, 0, 0, 10⟩ 4 0,
      .setDescriptor ⟨false, 0, 0, 18⟩ 0x0100, .synchFrame ⟨true, 2, 1, 2⟩ 0, .stdUnmapped ⟨true, 0, 0, 0⟩ 13 0,
      .vendor ⟨false, 0, 0, 0⟩ 1 0, .typeReserved ⟨false, 0, 0, 0⟩ 0 0],
    after (fun t => (t.hw.epr.ctrl, t.ctl.ctlState)) (exec i { epr .ctrl 0x3A20 with ctl.ctlState := .dataIn }) =
      some (0x1A20, .idle) := by decide

/-- Table G1: 18 bytes of the device descriptor, 67 of the configuration, clamped to `wLength`. -/
theorem test_getDescriptor :
    after (fun t => (t.ctl.xferSrc, t.ctl.xferRem)) (exec (.getDescriptor ⟨true, 0, 0, 255⟩ 1 0) base) =
      some (.dev, 10) ∧
    after (fun t => (t.ctl.xferSrc, t.ctl.xferRem)) (exec (.getDescriptorDevice ⟨true, 0, 0, 17⟩ 0) base) =
      some (.dev, 9) ∧
    after (fun t => (t.ctl.xferSrc, t.ctl.xferRem)) (exec (.getDescriptorConfiguration ⟨true, 0, 0, 68⟩ 0) base) =
      some (.cfg, 59) := by decide

/-- G2.11, G2.12. -/
theorem test_getDescriptorString :
    after (fun t => (t.ctl.ctlState, t.ctl.xferRem, unit t 0x14))
      (exec (.getDescriptorString ⟨true, 0, 0x0409, 255⟩ 1) base) = some (.dataIn, 2, 0x030A) ∧
    after (fun t => (t.ctl.ctlState, t.hw.epr.ctrl)) (exec (.getDescriptorString ⟨true, 0, 0x0409, 255⟩ 2) base) =
      some (.idle, 0x1220) := by decide

/-- G2.17, G2.20. -/
theorem test_getConfiguration :
    after (fun t => (t.hw.txCount.ctrl, unit t 0x14)) (exec (.getConfiguration ⟨true, 0, 0, 1⟩ 0)
      { base with ctl.configValue := 1 }) = some (1, 1) ∧
    after (fun t => (t.hw.txCount.ctrl, unit t 0x14)) (exec (.getInterface ⟨true, 1, 0, 1⟩ 0) base) = some (1, 0) := by
  decide

/-- G2.18, G2.19. -/
theorem test_setConfiguration :
    after (fun t => (t.ctl.configValue, t.dev.configured, t.dev.addrPending, t.dev.pendingAddr))
      (exec (.setConfiguration ⟨false, 0, 0, 0⟩ 1) { base with dev.addrPending := true, dev.pendingAddr := 5 }) =
      some (1, true, false, 5) ∧
    after (fun t => (t.dev.configured, t.dev.addrPending)) (exec (.setConfiguration ⟨false, 0, 0, 0⟩ 0)
      { base with dev.configured := true, dev.addrPending := true }) = some (false, true) := by decide

/-- G2.21. -/
theorem test_setInterface :
    after (fun t => (t.ctl.ctlState, t.hw.epr.ctrl)) (exec (.setInterface ⟨false, 1, 0, 0⟩ 0) base) =
      some (.status, 0x3230) := by decide

/-- G2.24, G2.26, G2.28. -/
theorem test_class_acknowledged :
    after (fun t => (t.ctl.ctlState, t.hw.epr.ctrl)) (exec (.setLineCoding ⟨false, 1, 0, 7⟩ 0) base) =
      some (.dataOut, 0x3230) ∧
    after (fun t => (t.ctl.ctlState, t.cls.dtr)) (exec (.setControlLineState ⟨false, 1, 0, 0⟩ 0x0300) base) =
      some (.status, false) ∧
    after (fun t => (t.ctl.ctlState, t.hw.epr.ctrl)) (exec (.sendBreak ⟨false, 1, 0, 0⟩ 0xFFFF) base) =
      some (.status, 0x3230) ∧
    after (fun t => (t.log, t.hw.epr.ctrl, t.ctl.ctlState)) (exec (.classOther ⟨false, 1, 0, 0⟩ 0x7F 0) base) =
      some ([.unknownClassReq], 0x3230, .status) := by decide

/-- G2.22, G2.23. -/
theorem test_getLineCoding :
    after (fun t => (t.hw.txCount.ctrl, unit t 0x14)) (exec (.getLineCoding ⟨true, 1, 0, 7⟩ 0) base) =
      some (7, 0xC200) ∧
    after (fun t => (t.hw.txCount.ctrl, t.ctl.xferRem)) (exec (.getLineCoding ⟨true, 1, 0, 3⟩ 0) base) =
      some (3, 0) := by decide

/-- K1, and P3 line 4. -/
theorem test_bulkOut :
    after (fun t => (t.sess.blState, t.sess.totalPages, t.hw.txCount.data, t.hw.epr.data))
      (exec .bulkOut (received .data [0x20, 0, 3, 0, 0, 0, 0xC4, 0xA0])) = some (.waitDataHeader, 3, 8, 0xB031) ∧
    after (fun t => (t.sess.blState, t.hw.txCount.data, unit t 0x38))
      (exec .bulkOut (received .data [0x21, 0, 0, 0, 4, 0, 0x7C, 0xB2])) = some (.waitSizeHeader, 1, 3) := by decide +kernel

theorem test_events_without_effect :
    ∀ i ∈ [Instr.bulkIn, .doneDiscard, .commOut, .commIn], exec i base = .next base := by
  intro i hi
  simp only [List.mem_cons, List.not_mem_nil, or_false] at hi
  rcases hi with rfl | rfl | rfl | rfl <;> rfl

/-- K11: a total of 0 pages goes to DONE. -/
theorem test_cmdSizeHeader :
    after (fun t => (t.sess.blState, t.sess.lastCmd)) (exec (.cmdSizeHeader 0 3 0 0xA0C4) base) =
      some (.waitDataHeader, ⟨0x20, 3, 0, 0xA0C4⟩) ∧
    after (fun t => t.sess.blState) (exec (.cmdSizeHeader 0 0 0 0x3B18) base) = some .done := by decide

/-- R194 on a page of four bytes. -/
theorem test_cmdPageHeader :
    after (fun t => (t.sess.blState, t.sess.expectedLen, t.sess.headerAccepted, t.hw.epr.data))
      (exec (.cmdPageHeader 0 1 10 0xE7C7) { paged with sess.curPage := 1 }) =
      some (.receivingPage, 10, true, 0x3021) ∧
    after (fun t => t.flash) (exec (.cmdPageHeader 0 1 10 0xE7C7) { paged with sess.curPage := 1 }) =
      some [(0x08002004, 0xFF), (0x08002005, 0xFF), (0x08002006, 0xFF), (0x08002007, 0xFF)] := by decide

/-- R194, `ACK_DATA_HEADER = no_error`. -/
theorem test_cmdPageHeader_ack :
    after (fun t => (t.hw.txCount.data, unit t 0x38))
      (exec (.cmdPageHeader 0 1 10 0xE7C7) { paged with cfg.ackDataHeader := .noError }) = some (1, 0) := by decide

/-- P3, lines 26 and 28. -/
theorem test_pageData :
    after (fun t => (t.sess.pageOffset, t.sess.blState, t.flash)) (exec .pageData (receiving 0 4 3 [1, 2, 3])) =
      some (3, .receivingPage, [(0x08002000, 1), (0x08002001, 2), (0x08002002, 3), (0x08002003, 0)]) ∧
    after (fun t => (t.fatal, t.flash, t.sess.pageOffset, t.scratch.take 1)) (exec .pageData (receiving 3 4 3 [4])) =
      some (some 0x08002003, [], 3, [4]) := by decide

/-- R196: the last page done. -/
theorem test_pageData_complete :
    after (fun t => (t.sess.curPage, t.sess.pageOffset, t.sess.expectedLen, t.sess.headerAccepted, t.sess.blState))
      (exec .pageData (receiving 2 4 1 [3, 4])) = some (1, 0, 0, false, .done) := by decide

/-- K2 to K7: wrong length, wrong CRC, wrong id, good. -/
theorem test_validateCmd :
    after (·.result) (exec (.validateCmd 0x20) (received .data [0x20, 0, 3, 0, 0, 0, 0xC4])) = some 1 ∧
    after (·.result) (exec (.validateCmd 0x20) (received .data [0x20, 0, 3, 0, 0, 0, 0xC5, 0xA0])) = some 2 ∧
    after (·.result) (exec (.validateCmd 0x21) (received .data [0x20, 0, 3, 0, 0, 0, 0xC4, 0xA0])) = some 3 ∧
    after (·.result) (exec (.validateCmd 0x20) (received .data [0x20, 0, 3, 0, 0, 0, 0xC4, 0xA0])) = some 0 := by decide +kernel

theorem test_reportError :
    after (fun t => (t.hw.txCount.data, unit t 0x38, t.hw.epr.data)) (exec (.reportError .cmdWrongCrc) base) =
      some (1, 2, 0x3031) := by decide

theorem test_echo :
    after (fun t => (t.hw.txCount.data, unit t 0x38, unit t 0x3B))
      (exec .echo (record [0x20, 0, 2, 0, 0, 0, 0x70, 0xD6])) = some (8, 0x0020, 0xD670) := by decide

/-- I2, I3. -/
theorem test_irq_low_power :
    after (fun t => (t.dev.suspended, t.hw.cntr)) (exec .irqSuspend base) = some (true, 0x000C) ∧
    after (fun t => (t.dev.suspended, t.hw.cntr)) (exec .irqResume
      { base with dev.suspended := true, hw.cntr := 0x000C }) = some (false, 0) := by decide

/-- I8. -/
theorem test_irqOther : after (fun t => t.hw.istr) (exec .irqOther { base with hw.causes := 0x7F }) = some 0 := by
  decide

/-- I4. -/
theorem test_irqReset :
    after (fun t => (t.hw.epr, t.hw.daddr, t.hw.rxCount, t.sess.totalPages, t.ctl.setup))
      (exec .irqReset { received .data [1, 2] with sess.totalPages := 3, hw.daddr := 0, ctl.setup := [1, 2, 3, 4, 5, 6, 7, 8] }) =
      some (⟨0x3220, 0x3021, 0x0622⟩, 0x80, ⟨0, 0, 0⟩, 0, [0, 0, 0, 0, 0, 0, 0, 0]) := by decide

/-- I7, and I6: an IN completion of another endpoint applies the pending address. -/
theorem test_irqCtr :
    after (fun t => (t.hw.epr.comm, t.hw.istr)) (exec .irqCtr (epr .comm 0x06A2)) = some (0x0622, 0) ∧
    after (fun t => (t.hw.epr.data, t.hw.daddr, t.dev.addrPending)) (exec .irqCtr
      { epr .data 0x30A1 with dev.addrPending := true, dev.pendingAddr := 0x11 }) = some (0x3021, 0x91, false) := by
  decide

theorem test_applyAddress :
    after (fun t => (t.hw.daddr, t.dev.addrPending, t.dev.pendingAddr)) (exec .applyAddress
      { base with dev.addrPending := true, dev.pendingAddr := 5 }) = some (0x85, false, 5) := by decide

/-- C1; a wrong address draws no answer. -/
theorem test_busSetup :
    after (fun t => (unit t 0x10, unit t 0x11, unit t 0x13, t.hw.rxCount.ctrl, t.hw.epr.ctrl, t.hw.istr))
      (exec (.busSetup none [0x80, 6, 0, 1, 0, 0, 0x40, 0] false false) base) =
      some (0x0680, 0x0100, 0x0040, 8, 0xAA20, 0x8010) ∧
    after (fun t => (t.hw.epr.ctrl, t.hw.replies))
      (exec (.busSetup (some 5) [0x80, 6, 0, 1, 0, 0, 0x40, 0] false false) base) = some (0x3220, [.silent]) := by decide

/-- C3, C5. -/
theorem test_busOut :
    after (fun t => (t.hw.rxCount.ctrl, t.hw.epr.ctrl)) (exec (.busOut none .ctrl [] 0xEE false) (epr .ctrl 0x3A20)) =
      some (0, 0xA220) ∧
    after (fun t => (t.hw.epr.data, t.hw.replies)) (exec (.busOut none .data [1] 0xEE false) (epr .data 0x2021)) =
      some (0x2021, [.nak]) := by decide

/-- C4, with two bytes. -/
theorem test_busIn :
    after (fun t => (t.hw.epr.ctrl, t.hw.istr, t.hw.replies)) (exec (.busIn none .ctrl false)
      { epr .ctrl 0x3A30 with hw.txCount.ctrl := 2, hw.pma := [(0x28, 0xC1), (0x29, 0xC4)] }) =
      some (0x3AA0, 0x8000, [.bytes 0 [0xC1, 0xC4]]) := by decide

/-- C6. -/
theorem test_busRefuse :
    after (fun t => (t.hw.epr.ctrl, t.hw.replies)) (exec (.busRefuse none .ctrl .rx) (epr .ctrl 0x1A20)) =
      some (0x1A20, [.stall]) := by decide

/-- C7. -/
theorem test_busReset :
    after (fun t => (t.hw.epr, t.hw.daddr, t.hw.istr)) (exec .busReset base) = some (⟨0, 0, 0⟩, 0, 0x0400) := by decide

theorem test_busCause :
    after (fun t => t.hw.istr) (exec (.busCause .sof) base) = some 0x0200 ∧
    after (fun t => t.hw.istr) (exec (.busCause .wkup) base) = some 0x1000 := by decide

/-- C8 on a page of four bytes; R253. -/
theorem test_flashErase :
    after (fun t => t.flash) (exec (.flashErase 0x08002400) paged) =
      some [(0x08002400, 0xFF), (0x08002401, 0xFF), (0x08002402, 0xFF), (0x08002403, 0xFF)] ∧
    after (fun t => (t.flash, t.fatal)) (exec (.flashErase 0x08002401) paged) = some ([], some 0x08002401) := by decide

/-- C9, C10. -/
theorem test_flashWrite :
    after (fun t => t.flash) (exec (.flashWrite 0x08002040 [0xC1, 0xC4, 0xC7, 0xCA] 2) base) =
      some [(0x08002040, 0xC1), (0x08002041, 0xC4), (0x08002042, 0xC7), (0x08002043, 0xCA)] ∧
    after (fun t => (t.flash, t.fatal)) (exec (.flashWrite 0x08002003 [1, 2] 1) base) =
      some ([], some 0x08002003) := by decide

/-- I9. -/
theorem test_irqSetEnable :
    after (fun t => t.irqEnable) (exec (.irqSetEnable false) base) = some false ∧
    after (fun t => t.hw.istr) (step (line { received .data [1] with irqEnable := false } .irq)) = some 0x8011 := by
  decide

/-- I3: RESUME before SUSPEND in one entry. -/
theorem test_entry_order :
    after (fun t => (t.dev.suspended, t.hw.cntr, t.hw.istr)) (step (line { base with hw.causes := 0x3A } .irq)) =
      some (true, 0x000C, 0) := by decide

/-- 60_exceptions R272: nothing of the block runs after FlashFatal. -/
theorem test_fatal_stops : exec .ack { base with fatal := some 3 } = .fault (.flashFatal 3) := rfl

/-- 20_memory R52. -/
theorem test_area_outside : exec .ack { base with hw.rxOffset.comm := 0x200 } = .fault .pmaUnitMissing := rfl

/-! ## Witnesses: for each statement, what meets its hypotheses, clause by clause -/

theorem base_quiet : base.quiet := rfl

/-- Power-on registers and empty memories are legal. -/
theorem base_inv : Inv base where
  config := by decide
  hw :=
    { canonical := List.Pairwise.nil
      inside := by intro x hx; cases hx
      txOffsets := rfl
      rxOffsets := rfl
      rxCounts := by intro e; cases e <;> decide
      txCounts := by intro e; cases e <;> decide
      lowPower := by decide }
  ctl := { setupLength := rfl, statusLength := rfl, noWrap := by decide, phase := by decide }
  session := rfl
  lineCoding := rfl
  scratch := by decide
  cmdBuf := rfl
  flash := { canonical := List.Pairwise.nil, inside := by intro x hx; cases hx }
  fatalOdd := by intro a h; cases h

theorem witness_IstrIsAView :
    (∃ d, eprFlag ((epr .comm 0x06A2).hw.epr.get .comm) d = true) ∧
    (∀ f : Ep, f.num < Ep.comm.num → ∀ d, eprFlag ((epr .comm 0x06A2).hw.epr.get f) d = false) ∧
    (∃ d, eprFlag ((epr .ctrl 0xAA20).hw.epr.get .ctrl) d = true) ∧
    (∀ f : Ep, f.num < Ep.ctrl.num → ∀ d, eprFlag ((epr .ctrl 0xAA20).hw.epr.get f) d = false) ∧
    (∀ e d, eprFlag (base.hw.epr.get e) d = false) := by
  refine ⟨⟨.tx, rfl⟩, ?_, ⟨.rx, rfl⟩, ?_, ?_⟩
  · intro f h d; cases f <;> cases d <;> first | rfl | exact absurd h (by decide)
  · intro f h; exact absurd h (Nat.not_lt_zero _)
  · intro e d; cases e <;> cases d <;> rfl

theorem witness_PowerOnState : (line base .powerOn).lines = [.powerOn] ∧ configValid base.cfg = true :=
  ⟨rfl, by decide⟩

theorem witness_StepKeepsInvariant : Inv (line base (.op (.name .busReset))) ∧
    ∃ t, step (line base (.op (.name .busReset))) = .next t :=
  ⟨{ base_inv with }, ⟨_, rfl⟩⟩

theorem witness_DecodeEncode :
    (Instr.flashWrite 0xFFFFFFFE [1] 2).wf = true ∧ (Instr.stdUnmapped ⟨true, 31, 0, 0⟩ 13 0xFFFF).wf = true ∧
    (Instr.stdUnmapped ⟨true, 31, 0, 0⟩ 13 0xFFFF).handlerRow = false := by decide

theorem witness_EncodeDecode :
    decode .done (.setup [0xFF, 0xFF, 0xFF, 0xFF, 0xFF, 0xFF, 0xFF, 0xFF]) =
      .instr (.typeReserved ⟨true, 31, 0xFFFF, 0xFFFF⟩ 0xFF 0xFFFF) ∧
    decode .waitDataHeader (.bulk [0x21, 0xFF, 0xFF, 0xFF, 0xFF, 0xFF, 0xFF, 0xFF]) =
      .instr (.cmdPageHeader 0xFF 0xFFFF 0xFFFF 0xFFFF) := by decide

theorem witness_SetupKeyClassifies : ([0x21, 0x23, 0xFF, 0xFF, 0, 0, 0, 0] : List Byte).length = 8 ∧
    classify [0x21, 0x23, 0xFF, 0xFF, 0, 0, 0, 0] = .sendBreak ⟨false, 1, 0, 0⟩ 0xFFFF ∧
    classify [0x21, 0x24, 0xFF, 0xFF, 0, 0, 0, 0] = .classOther ⟨false, 1, 0, 0⟩ 0x24 0xFFFF := by decide

theorem witness_DecodeRejects :
    ([0, 0, 0, 0, 0, 0, 0] : List Byte).length ≠ 8 ∧ ([0, 0, 0, 0, 0, 0, 0, 0, 0] : List Byte).length ≠ 8 ∧
    ([0x21, 0, 0, 0, 0, 0, 0, 0] : List Byte)[0]? ≠ some 0x20 ∧
    ([0x20, 0, 0, 0, 0, 0, 0, 0] : List Byte)[0]? ≠ some 0x21 ∧ 2 < (3#4).toNat ∧
    (line base (.op (.bulk [0x21, 0, 0, 0, 0, 0, 0, 0]))).lines = .op (.bulk [0x21, 0, 0, 0, 0, 0, 0, 0]) :: [] ∧
    (line base (.op (.setup []))).lines = .op (.setup []) :: [] ∧
    (line base (.op (.event (eventOf 3 true true)))).lines = .op (.event (eventOf 3 true true)) :: [] ∧
    base.sess.blState = .waitSizeHeader ∧ recordCrcGood base.cfg [0x21, 0, 0, 0, 4, 0, 0x7C, 0xB2] ∧
    ¬ recordCrcGood base.cfg [0x21, 0, 0, 0, 0, 0, 0, 0] :=
  ⟨by decide, by decide, by decide, by decide, by decide, rfl, rfl, rfl, rfl, by decide +kernel, by decide +kernel⟩

theorem witness_StepRunsDecoded : (line base (.op (.event 0x30))).lines = .op (.event 0x30) :: [] ∧
    decode base.sess.blState (.event 0x30) = .instr .ctrlSetup ∧
    decode base.sess.blState (.bulk [0x20, 0, 3, 0, 0, 0, 0xC4, 0xA0]) = .instr (.cmdSizeHeader 0 3 0 0xA0C4) ∧
    recordCrcGood base.cfg [0x20, 0, 3, 0, 0, 0, 0xC4, 0xA0] ∧
    (line base (.op (.name .irqCtr))).lines = .op (.name .irqCtr) :: [] ∧ Instr.irqCtr.named = false ∧
    Instr.echo.named = true :=
  ⟨rfl, by decide, by decide, by decide +kernel, rfl, rfl, rfl⟩

theorem witness_EveryInstructionCompletes :
    base.ready ∧ base.fatal = none ∧ (Instr.read .data .scratch 64).fits base.cfg ∧
    (Instr.busOut none .comm [1, 2, 3, 4, 5, 6, 7, 8] 0 true).fits base.cfg ∧
    (Instr.busReset.environment = true ∧ ({ base with fatal := some 3 } : State).ready) :=
  ⟨base_ready, rfl, Nat.le_refl 64, Nat.le_refl 8, rfl, base_ready⟩

theorem witness_FlashFatalStops :
    ({ base with fatal := some 3 } : State).fatal = some 3 ∧ Instr.echo.environment = false ∧ Instr.echo.fits base.cfg ∧
    (line { base with fatal := some 3 } .irq).lines = .irq :: [] ∧ (line { base with fatal := some 3 } .irq).ready ∧
    ∃ t, step (line { base with fatal := some 3 } (.op (.name .busReset))) = .next t :=
  ⟨rfl, rfl, trivial, rfl, base_ready, ⟨_, rfl⟩⟩

/-- One byte over each limit; a configuration with a page of odd size. -/
theorem witness_Refused :
    configValid { base.cfg with pageSize := 3 } = false ∧ configValid { base.cfg with rxOff := ⟨0x20, 0x31, 0xB8⟩ } = false ∧
    Instr.ack.fits { base.cfg with pageSize := 3 } ∧ base.fatal = none ∧
    ([1, 2, 3, 4, 5, 6, 7] : List Byte).length ≠ 8 ∧ base.cfg.cap.get .comm < ([1, 2, 3, 4, 5, 6, 7, 8, 9] : List Byte).length ∧
    (received .data [1, 2, 3]).quiet ∧
    bufferSize base.cfg .statusBuf < (received .data [1, 2, 3]).hw.readable base.cfg .data 3 :=
  ⟨by decide, by decide, trivial, rfl, by decide, by decide, rfl, by decide⟩

theorem witness_RegisterWrite : (epr .data 0xFFFF).runnable := base_runnable

theorem witness_SetStatusResult : (epr .data 0xFFFF).runnable ∧ (epr .data 0xFFFF).quiet := ⟨base_runnable, rfl⟩

theorem witness_StatusOperationsExpand : ({ base with hw.between := [[.reset], [.cause .sof]] } : State).runnable :=
  base_runnable

theorem witness_ClearCompletion : (epr .data 0xE0F1).runnable ∧ (epr .data 0xE0F1).quiet := ⟨base_runnable, rfl⟩

theorem witness_EndpointConfigured : (epr .data 0xFFFF).runnable ∧ (epr .data 0xFFFF).quiet := ⟨base_runnable, rfl⟩

theorem witness_RepeatedWrites : (epr .data 0xE0F1).runnable ∧ (epr .data 0xE0F1).quiet := ⟨base_runnable, rfl⟩

/-- Both clauses: the state of 70_reset R306 (a) and that of R319. -/
theorem witness_InterleavingHazards :
    let s : State := { epr .ctrl 0x3230 with hw.between := [[], [.take none .ctrl false]] }
    let u : State := line { base with hw.causes := 0x02, hw.between := [[], [.cause .susp]] } .irq
    (s.runnable ∧ s.hw.between = [] :: [.take none .ctrl false] :: [] ∧ daddrEf s.hw.daddr = true ∧
      eprStat (s.hw.epr.get .ctrl) .tx = .valid ∧ eprFlag (s.hw.epr.get .ctrl) .tx = false) ∧
    (u.runnable ∧ u.irqEnable = true ∧ u.lines = .irq :: [] ∧ u.hw.between = [[], [.cause .susp]] ∧
      u.hw.istr &&& 0x1C00 = 0 ∧ u.hw.causes ≠ 0 ∧ u.hw.istr.getLsbD 15 = false) :=
  ⟨⟨base_runnable, rfl, by decide, by decide, by decide⟩, base_runnable, rfl, rfl, rfl, by decide, by decide, by decide⟩

theorem witness_ReadResult : (received .data [1, 2, 3]).runnable ∧ (received .data [1, 2, 3]).quiet ∧
    min 64 (min ((received .data [1, 2, 3]).hw.rxCount.get .data).toNat (base.cfg.cap.get .data)) ≤
      bufferSize base.cfg .lc ∧
    min 8 (min ((received .ctrl [1, 2]).hw.rxCount.get .ctrl).toNat (base.cfg.cap.get .ctrl)) ≤
      bufferSize base.cfg .statusBuf :=
  ⟨base_runnable, rfl, by decide, by decide⟩

theorem witness_WriteResult : base.runnable ∧ base.quiet := ⟨base_runnable, rfl⟩

/-- Three bytes written on `DATA`, the units carried to the receive area. -/
theorem witness_RoundTrip :
    let t := state (exec (.write .data [7, 8, 9] 3) base)
    let u : State := { base with hw.rxCount := ⟨0, 3, 0⟩, hw.pma := [(0x30, 7), (0x31, 8), (0x32, 9), (0x33, 0)] }
    base.runnable ∧ base.quiet ∧ exec (.write .data [7, 8, 9] 3) base = .next t ∧ u.runnable ∧ u.quiet ∧
    min 3 (base.cfg.cap.get .data) = 3 ∧ 3 ≤ ([7, 8, 9] : List Byte).length ∧ 3 ≤ u.cfg.cap.get .data ∧
    (u.hw.rxCount.get .data).toNat = 3 ∧ 3 ≤ bufferSize u.cfg .scratch ∧
    (∀ i, i < ceil2 3 → u.hw.pmaUnit (u.hw.rxBase .data + 2 * i) = t.hw.pmaUnit (t.hw.txBase .data + 2 * i)) :=
  ⟨base_runnable, rfl, rfl, base_runnable, rfl, rfl, by decide, by decide, rfl, by decide, by decide⟩

theorem witness_PacketIsCaptured :
    encode (.setAddress ⟨false, 0, 0, 0⟩ 5) = .setup [0, 5, 5, 0, 0, 0, 0, 0] ∧
    encode (.cmdSizeHeader 0 3 0 0xA0C4) = .bulk [0x20, 0, 3, 0, 0, 0, 0xC4, 0xA0] := by decide

theorem witness_SetupEventDispatches :
    let s := received .ctrl [0x80, 6, 0, 1, 0, 0, 0x40, 0]
    let u := state (exec (.read .ctrl .setup 8) s)
    s.runnable ∧ exec (.read .ctrl .setup 8) s = .next u ∧
    decode .done (.setup u.ctl.setup) = .instr (.getDescriptorDevice ⟨true, 0, 0, 64⟩ 0) :=
  ⟨base_runnable, rfl, by decide⟩

theorem witness_AckAndReject : (epr .ctrl 0x3A20).runnable ∧ (epr .ctrl 0x3A20).quiet := ⟨base_runnable, rfl⟩

/-- Both values of the direction bit, and a string that exists. -/
theorem witness_StartIn :
    (setup [0x80, 6, 0, 1, 0, 0, 0x12, 0]).runnable ∧ (setup [0x80, 6, 0, 1, 0, 0, 0x12, 0]).ctl.dirIn = true ∧
    (setup [0x00, 6, 0, 1, 0, 0, 0x12, 0]).ctl.dirIn = false ∧ base.quiet ∧
    base.cfg.strDesc[1]? = some [0x0A, 0x03, 0x42, 0x00, 0x4F, 0x00, 0x4F, 0x00, 0x54, 0x00] :=
  ⟨base_runnable, by decide, by decide, rfl, rfl⟩

theorem witness_TransmitSetupPacket :
    (setup [0x80, 6, 0, 1, 0, 0, 0x12, 0]).runnable ∧ (setup [0x80, 6, 0, 1, 0, 0, 0x12, 0]).quiet ∧
    (setup [0x80, 6, 0, 1, 0, 0, 0x12, 0]).ctl.dirIn = true ∧
    (setup [0x7F, 6, 0, 1, 0, 0, 0x12, 0]).ctl.dirIn = false :=
  ⟨base_runnable, rfl, by decide, by decide⟩

/-- A whole number of packets, an odd remainder, and no byte at all. -/
theorem witness_DataStageIsClamped :
    ∀ w ∈ [0x00, 0x10, 0x11, 0xFF],
      let s := setup [0x80, 6, 0, 1, 0, 0, w, 0]
      (s.runnable ∧ s.quiet) ∧ s.ctl.dirIn = true ∧ (∃ t, exec (.startIn .dev 18) s = .next t) ∧
      min (18#16).toNat s.ctl.wLength.toNat ≤ (sourceBytes s .dev).length ∧
      min (18#16).toNat s.ctl.wLength.toNat ≤ 18 := by
  intro w hw
  simp only [List.mem_cons, List.not_mem_nil, or_false] at hw
  rcases hw with rfl | rfl | rfl | rfl <;>
    exact ⟨⟨base_runnable, rfl⟩, by decide, ⟨_, rfl⟩, Nat.min_le_left .., Nat.min_le_left ..⟩

/-- The recipients and the endpoints at the ends of their ranges: 0, 1, 2 with endpoints 2 and 3, and 3. -/
theorem witness_GetStatus :
    (∀ a ∈ [SetupArgs.mk true 0 0 2, ⟨true, 1, 0, 2⟩, ⟨true, 2, 0x82, 2⟩, ⟨true, 2, 3, 2⟩, ⟨true, 3, 0, 2⟩],
      (setup (packetOfValue a 0 0 0)).runnable ∧
      (setup (packetOfValue a 0 0 0)).ctl.setup = packetOfValue a 0 0 0) ∧
    ((0x82#16).extractLsb' 0 4).toNat = Ep.comm.num ∧ 2 < ((3#16).extractLsb' 0 4).toNat ∧ 2 < (3#5).toNat :=
  ⟨fun _ _ => ⟨base_runnable, rfl⟩, by decide⟩

/-- Remote wakeup, halt of endpoint 2, and the pairs just outside. -/
theorem witness_Features :
    (∀ a ∈ [SetupArgs.mk false 0 0 0, ⟨false, 2, 2, 0⟩, ⟨false, 2, 3, 0⟩], ∀ v ∈ [0#16, 1], ∀ on ∈ [true, false],
      (setup (packetOfValue a 0 (if on then 3 else 1) v)).runnable ∧
      (setup (packetOfValue a 0 (if on then 3 else 1) v)).ctl.setup = packetOfValue a 0 (if on then 3 else 1) v) ∧
    ((2#16).extractLsb' 0 4).toNat = Ep.comm.num ∧ ¬((3#16).extractLsb' 0 4).toNat < 3 :=
  ⟨fun _ _ _ _ _ _ => ⟨base_runnable, rfl⟩, by decide⟩

theorem witness_SetAddressDefers :
    (setup (packetOfValue ⟨false, 0, 0, 0⟩ 0 5 0xFFFF)).runnable ∧ (setup (packetOfValue ⟨false, 0, 0, 0⟩ 0 5 0xFFFF)).quiet ∧
    (setup (packetOfValue ⟨false, 0, 0, 0⟩ 0 5 0xFFFF)).ctl.setup = packetOfValue ⟨false, 0, 0, 0⟩ 0 5 0xFFFF :=
  ⟨base_runnable, rfl, rfl⟩

/-- Each type, and strings 1 (the last) and 2 (the first that does not exist). -/
theorem witness_GetDescriptorSends :
    (∀ type ∈ [1#8, 2, 3, 4, 6], ∀ index ∈ [1#8, 2],
      (setup (packetOf ⟨true, 0, 0, 64⟩ 0 6 index type)).runnable ∧
      (setup (packetOf ⟨true, 0, 0, 64⟩ 0 6 index type)).ctl.setup = packetOf ⟨true, 0, 0, 64⟩ 0 6 index type) ∧
    base.cfg.devDesc[0]? = some 0x12 ∧ base.cfg.cfgDesc[2]? = some 0x43 ∧ base.cfg.cfgDesc[3]? = some 0 ∧
    (∃ d, base.cfg.strDesc[(1#8).toNat]? = some d ∧ d[0]? = some 0x0A) ∧ base.cfg.strDesc.length ≤ (2#8).toNat :=
  ⟨fun _ _ _ _ => ⟨base_runnable, rfl⟩, by decide, by decide, by decide, ⟨_, rfl, rfl⟩, by decide⟩

theorem witness_NullRequestsReject :
    (∀ t ∈ [0#2, 2, 3], ∀ r ∈ [2#8, 4, 7, 12, 13],
      (setup (packetOfValue ⟨true, 0, 0, 0⟩ t r 0xFFFF)).runnable ∧
      (setup (packetOfValue ⟨true, 0, 0, 0⟩ t r 0xFFFF)).ctl.setup = packetOfValue ⟨true, 0, 0, 0⟩ t r 0xFFFF) ∧
    (setup (packetOf ⟨true, 0, 0, 0⟩ 0 6 0 6)).ctl.setup = packetOf ⟨true, 0, 0, 0⟩ 0 6 0 6 ∧
    (setup (packetOf ⟨true, 0, 0, 0⟩ 0 6 0 4)).ctl.setup = packetOf ⟨true, 0, 0, 0⟩ 0 6 0 4 :=
  ⟨fun _ _ _ _ => ⟨base_runnable, rfl⟩, rfl, rfl⟩

/-- Configuration values 0 and 1. -/
theorem witness_ConfigurationRequests :
    (∀ r ∈ [8#8, 9, 10, 11], ∀ v ∈ [0#16, 1, 0x0100],
      (setup (packetOfValue ⟨true, 0, 0, 1⟩ 0 r v)).runnable ∧
      (setup (packetOfValue ⟨true, 0, 0, 1⟩ 0 r v)).ctl.setup = packetOfValue ⟨true, 0, 0, 1⟩ 0 r v) ∧
    (0x0100#16).extractLsb' 0 8 = 0 ∧ (1#16).extractLsb' 0 8 ≠ 0 :=
  ⟨fun _ _ _ _ => ⟨base_runnable, rfl⟩, by decide, by decide⟩

theorem witness_ClassRequests :
    ∀ r ∈ [0x20#8, 0x21, 0x22, 0x23, 0x24], ∀ l ∈ [0#16, 1],
      (setup (packetOfValue ⟨false, 1, 0, l⟩ 1 r 0)).runnable ∧
      (setup (packetOfValue ⟨false, 1, 0, l⟩ 1 r 0)).ctl.setup = packetOfValue ⟨false, 1, 0, l⟩ 1 r 0 :=
  fun _ _ _ _ => ⟨base_runnable, rfl⟩

theorem witness_ControlIn : base.runnable ∧ base.ctl.xferRem = 0 ∧
    ({ base with ctl.xferRem := 1 } : State).runnable ∧ ({ base with ctl.xferRem := 1 } : State).ctl.xferRem ≠ 0 :=
  ⟨base_runnable, rfl, base_runnable, by decide⟩

/-- Codes `20`, `22` and `21` of type 1, and code `20` of type 0. -/
theorem witness_ControlOut :
    (setup [0x21, 0x20, 0, 0, 0, 0, 7, 0]).runnable ∧
    (byteAt (setup [0x21, 0x20, 0, 0, 0, 0, 7, 0]).ctl.setup 0).extractLsb' 5 2 = 1#2 ∧
    byteAt (setup [0x21, 0x20, 0, 0, 0, 0, 7, 0]).ctl.setup 1 = 0x20 ∧
    byteAt (setup [0x21, 0x22, 0, 3, 0, 0, 1, 0]).ctl.setup 1 = 0x22 ∧
    byteAt (setup [0x21, 0x21, 0, 3, 0, 0, 1, 0]).ctl.setup 1 ≠ 0x20 ∧
    (byteAt (setup [0x00, 0x20, 0, 0, 0, 0, 7, 0]).ctl.setup 0).extractLsb' 5 2 ≠ 1#2 :=
  ⟨base_runnable, by decide, by decide, by decide, by decide, by decide⟩

/-- Seven, nine and eight bytes; for eight, wrong CRC, wrong id, good: `test_validateCmd`. -/
theorem witness_ValidateCommand :
    (received .data [1, 2, 3, 4, 5, 6, 7]).runnable ∧
    ((received .data [1, 2, 3, 4, 5, 6, 7]).hw.rxCount.get .data).toNat ≠ 8 ∧
    ((received .data [1, 2, 3, 4, 5, 6, 7, 8, 9]).hw.rxCount.get .data).toNat ≠ 8 ∧
    ((received .data [1, 2, 3, 4, 5, 6, 7, 8]).hw.rxCount.get .data).toNat = 8 :=
  ⟨base_runnable, by decide, by decide, by decide⟩

theorem witness_SizeHeader : (record (recordOf 0x20 0 0 0 0x3B18)).runnable ∧ (record (recordOf 0x20 0 0 0 0x3B18)).quiet ∧
    (record (recordOf 0x20 0 0 0 0x3B18)).cmdBuf = recordOf 0x20 0 0 0 0x3B18 ∧ base.sess.curPage = 0 ∧
    base.sess.curPage ≠ 1 := ⟨base_runnable, rfl, rfl, rfl, by decide⟩

/-- Each value of `ACK_DATA_HEADER`, and a page that ends at the last address. -/
theorem witness_PageHeader :
    (∀ x : AckDataHeader, ({ record (recordOf 0x21 0 0 4 0xB27C) with cfg.ackDataHeader := x } : State).runnable) ∧
    (record (recordOf 0x21 0 0 4 0xB27C)).quiet ∧
    (record (recordOf 0x21 0 0 4 0xB27C)).cmdBuf = recordOf 0x21 0 0 4 0xB27C ∧
    ({ paged with cfg.flashBase := 0xFFFFFFFC } : State).runnable :=
  ⟨fun x => ⟨⟨by cases x <;> decide, by cases x <;> decide⟩, rfl⟩, rfl, rfl, ⟨by decide, by decide⟩, rfl⟩

/-- An odd address; an even one with the page not yet full, and full to the byte. -/
theorem witness_PageData :
    (∀ o l b, (receiving o l 1 b).runnable ∧ (receiving o l 1 b).quiet ∧
      (receiving o l 1 b).scratch.length = scratchSize (receiving o l 1 b).cfg) ∧
    (0x08002000 + 0 * 4 + (3#32).toNat) % 2 = 1 ∧
    (0#32 + BitVec.ofNat 32 3).toNat < (4#16).toNat ∧ (4#16).toNat ≤ (2#32 + BitVec.ofNat 32 2).toNat :=
  ⟨fun _ _ _ => ⟨paged_runnable, rfl, show paged.scratch.length = scratchSize paged.cfg by decide⟩, by decide, by decide, by decide⟩

/-- The two header phases with every verdict, RECEIVING_PAGE and DONE. -/
theorem witness_BulkOut :
    let good := received .data [0x20, 0, 3, 0, 0, 0, 0xC4, 0xA0]
    let short := received .data [0x20]
    good.runnable ∧ good.cmdBuf.length = 8 ∧ good.sess.blState = .waitSizeHeader ∧
    after (·.result) (exec (.validateCmd 0x20) good) = some 0 ∧
    after (·.result) (exec (.validateCmd 0x20) short) = some (errByte .cmdWrongLength).toNat ∧
    ({ good with sess.blState := .waitDataHeader } : State).runnable ∧
    (receiving 0 4 1 [1]).runnable ∧ (receiving 0 4 1 [1]).sess.blState = .receivingPage ∧
    (receiving 0 4 1 [1]).cmdBuf.length = 8 ∧ ({ good with sess.blState := .done } : State).runnable :=
  ⟨base_runnable, rfl, rfl, by decide +kernel, by decide, base_runnable, paged_runnable, rfl, rfl, base_runnable⟩

theorem witness_ReportAndEcho : base.runnable ∧ base.quiet ∧ base.cmdBuf.length = 8 := ⟨base_runnable, rfl, rfl⟩

/-- Each of the three codes: seven bytes, a wrong CRC, a wrong id with a good CRC. -/
theorem witness_BadHeaderKeepsSession :
    let short := received .data [0x20, 0, 3, 0, 0, 0, 0xC4]
    let crc := received .data [0x20, 0, 3, 0, 0, 0, 0xC5, 0xA0]
    let wrong := received .data [0x21, 0, 0, 0, 4, 0, 0x7C, 0xB2]
    (short.runnable ∧ short.quiet ∧ short.cmdBuf.length = 8 ∧ short.sess.blState = .waitSizeHeader) ∧
    (short.hw.rxCount.get .data).toNat ≠ 8 ∧
    ((crc.hw.rxCount.get .data).toNat = 8 ∧
      crc16 crc.cfg ((crc.hw.received .data 8).take 6) ≠
        le16 (byteAt (crc.hw.received .data 8) 6) (byteAt (crc.hw.received .data 8) 7)) ∧
    ((wrong.hw.rxCount.get .data).toNat = 8 ∧
      crc16 wrong.cfg ((wrong.hw.received .data 8).take 6) =
        le16 (byteAt (wrong.hw.received .data 8) 6) (byteAt (wrong.hw.received .data 8) 7) ∧
      byteAt (wrong.hw.received .data 8) 0 ≠ 0x20) :=
  ⟨⟨base_runnable, rfl, rfl, rfl⟩, by decide, ⟨by decide, by decide +kernel⟩, by decide, by decide +kernel, by decide⟩

theorem witness_EventsWithoutEffect : base.runnable := base_runnable

theorem witness_CauseRules : ({ base with hw.causes := 0x7F, hw.cntr := 0xFFFF } : State).runnable ∧
    ({ base with hw.causes := 0x7F, hw.cntr := 0xFFFF } : State).quiet := ⟨base_runnable, rfl⟩

theorem witness_ResetHandler : (epr .data 0xFFFF).runnable ∧ (epr .data 0xFFFF).quiet := ⟨base_runnable, rfl⟩

theorem witness_BusReset :
    let s : State := { receiving 2 4 3 [1, 2] with lines := [.op (.name .busReset), .irq] }
    s.runnable ∧ s.quiet ∧ s.irqEnable = true ∧ s.lines = .op (.name .busReset) :: .irq :: [] ∧
    s.hw.istr &&& 0x1800 = 0 := ⟨paged_runnable, rfl, rfl, rfl, by decide⟩

/-- Disabled; nothing pending; one pending cause. -/
theorem witness_EntrySequence :
    (line base .irq).runnable ∧ (line base .irq).quiet ∧ (line base .irq).lines = .irq :: [] ∧
    ({ base with irqEnable := false } : State).irqEnable = false ∧ base.hw.istr &&& 0xFF00 = 0 ∧
    base.irqEnable = true ∧ ({ base with hw.causes := 1 } : State).hw.istr &&& 0xFF00 ≠ 0 :=
  ⟨base_runnable, rfl, rfl, rfl, by decide, rfl, by decide⟩

/-- No flag; the receive flag of endpoint 1 with a flag of endpoint 2; the transmit flag of endpoint 2 alone. -/
theorem witness_DrainServesInOrder :
    let s : State := { base with hw.epr := ⟨0x3220, 0xA021, 0x06A2⟩ }
    base.runnable ∧ base.quiet ∧ base.hw.istr.getLsbD 15 = false ∧ s.runnable ∧ s.quiet ∧
    eprFlag (s.hw.epr.get .data) .rx = true ∧
    (∀ f : Ep, f.num < Ep.data.num → ∀ d, eprFlag (s.hw.epr.get f) d = false) ∧
    eprFlag ((epr .comm 0x06A2).hw.epr.get .comm) .tx = true ∧ eprFlag ((epr .comm 0x06A2).hw.epr.get .comm) .rx = false := by
  refine ⟨base_runnable, rfl, by decide, base_runnable, rfl, by decide, ?_, by decide, by decide⟩
  intro f h d; cases f <;> cases d <;> first | rfl | exact absurd h (by decide)

theorem witness_DrainLeavesNoFlag :
    ({ epr .ctrl 0xA220 with hw.between := [[], [.out none .data [1] 0 false], [.reset]] } : State).runnable :=
  base_runnable

theorem witness_AddressAppliedAtIn :
    let s : State := line { epr .comm 0x06A2 with dev.addrPending := true, dev.pendingAddr := 0x7F } .irq
    s.runnable ∧ s.quiet ∧ s.irqEnable = true ∧ s.lines = .irq :: [] ∧ s.hw.causes = 0 ∧ s.dev.addrPending = true ∧
    (∀ f d', eprFlag (s.hw.epr.get f) d' = true ↔ f = .comm ∧ d' = .tx) ∧
    (∀ f d', eprFlag ((epr .data 0xA021).hw.epr.get f) d' = true ↔ f = .data ∧ d' = .rx) := by
  refine ⟨base_runnable, rfl, rfl, rfl, rfl, rfl, ?_, ?_⟩ <;> intro f d <;> cases f <;> cases d <;> decide

theorem witness_SetupTransaction : (epr .ctrl 0x1A20).ready ∧ (epr .ctrl 0x1A20).hw.answers (some 0) = true ∧
    ([0x80, 6, 0, 1, 0, 0, 0x40, 0] : List Byte).length = 8 ∧ eprType ((epr .ctrl 0x1A20).hw.epr.get .ctrl) = 1 ∧
    eprStat ((epr .ctrl 0x1A20).hw.epr.get .ctrl) .rx ≠ .disabled ∧
    eprFlag ((epr .ctrl 0x1A20).hw.epr.get .ctrl) .rx = false :=
  ⟨base_ready, by decide, by decide, by decide, by decide, by decide⟩

/-- A full packet, and an odd one. -/
theorem witness_OutTransaction : base.ready ∧ base.hw.answers none = true ∧
    ([1, 2, 3, 4, 5, 6, 7, 8] : List Byte).length ≤ base.cfg.cap.get .ctrl ∧ ([1] : List Byte).length % 2 = 1 ∧
    eprStat (base.hw.epr.get .ctrl) .rx = .valid := ⟨base_ready, by decide, by decide, by decide, by decide⟩

theorem witness_InTransaction : (epr .data 0x3031).ready ∧ (epr .data 0x3031).hw.answers none = true ∧
    eprStat ((epr .data 0x3031).hw.epr.get .data) .tx = .valid := ⟨base_ready, by decide, by decide⟩

/-- Another address; function disabled; statuses other than VALID. -/
theorem witness_UnansweredTransactions : base.ready ∧ base.hw.answers (some 1) = false ∧
    ({ base with hw.daddr := 0 } : State).hw.answers none = false ∧ base.hw.answers (some 0) = true ∧
    eprStat (base.hw.epr.get .data) .tx = .nak ∧ eprStat (base.hw.epr.get .comm) .rx = .disabled ∧
    ([1] : List Byte).length ≤ base.cfg.cap.get .comm ∧ ([0, 9, 1, 0, 0, 0, 0, 0] : List Byte).length = 8 ∧
    eprFlag ((epr .ctrl 0xB220).hw.epr.get .ctrl) .rx = true ∧ (epr .ctrl 0xB220).hw.answers none = true ∧
    eprStat (base.hw.epr.get .data) .rx = .valid :=
  ⟨base_ready, by decide, by decide, by decide, by decide, by decide, by decide, by decide, by decide, by decide,
    by decide⟩

theorem witness_ResetCausesAndEnable : ({ base with hw.causes := 0x55 } : State).ready := base_ready

/-- A move that stores nothing and completes a transaction; one that stores at the last byte of its receive area,
whose neighbours are a byte outside it and a transmit area; a direction that is not VALID. -/
theorem witness_BusSideNever : (Instr.busIn none .data true).environment = true ∧
    (Instr.busIn none .data true) ≠ .busReset ∧
    (∃ t, exec (.busIn none .data true) (epr .data 0x3031) = .next t ∧
      eprFlag ((epr .data 0x3031).hw.epr.get .data) .tx = false ∧ eprFlag (t.hw.epr.get .data) .tx = true) ∧
    (∃ t, exec (.busOut none .ctrl [1, 2, 3, 4, 5, 6, 7, 8] 0 false) base = .next t ∧ t.hw.pmaByte 0x27 = 8) ∧
    base.hw.rxBase .ctrl + 2 * ceil2 (base.cfg.cap.get .ctrl) ≤ 0x28 ∧ Inv base ∧ base.hw.txBase .ctrl ≤ 0x28 ∧
    0x28 < base.hw.txBase .ctrl + 2 * ceil2 (base.cfg.cap.get .ctrl) ∧
    eprStat (base.hw.epr.get .comm) .rx ≠ .valid :=
  ⟨rfl, by decide, ⟨_, rfl, by decide, by decide⟩, ⟨_, rfl, by decide⟩, by decide, base_inv, by decide, by decide,
    by decide⟩

/-- An odd and an even address; a write of two units whose second passes the top; the first byte after it. -/
theorem witness_FlashCalls : base.runnable ∧ (0x08002003#32).toNat % 2 = 1 ∧ (0xFFFFFFFE#32).toNat % 2 = 0 ∧
    3 < 2 * 2 ∧ 2 * 2 ≤ 3 + 2 ^ 32 ∧ 0xFFFFFFFE#32 + BitVec.ofNat 32 3 = 1 ∧
    2 * 2 ≤ (0x00000002#32 - 0xFFFFFFFE#32).toNat :=
  ⟨base_runnable, by decide, by decide, by decide, by decide, by decide, by decide⟩

end Sys2Proof.Tests
end

section
/-! SUPPORT. The fields of an endpoint register (spec/10_state.md R12), bit by bit, under the register values that the
operations of spec/40_endpoint_register.md leave. -/

namespace Sys2Proof.Machine

/-! ## Fields -/

theorem extractLsb'_congr {w : Nat} {x y : BitVec w} {start len : Nat}
    (h : ∀ i, i < len → x.getLsbD (start + i) = y.getLsbD (start + i)) :
    x.extractLsb' start len = y.extractLsb' start len := by
  apply BitVec.eq_of_getLsbD_eq
  intro i hi
  simp only [BitVec.getLsbD_extractLsb', hi, decide_true, Bool.true_and, h i hi]

@[simp] theorem statOf_statCode (t : Stat) : statOf (statCode t) = t := by cases t <;> rfl

/-! ## A register write -/

/-- The masks of R110 part the word: a bit is set, toggled or cleared by a write, or it is `SETUP`, which a write leaves
alone. -/
theorem writeMasks_partition : ∀ i < 16,
    ((0x070F#16).getLsbD i, (0x7070#16).getLsbD i, (0x8080#16).getLsbD i, (0x0800#16).getLsbD i) ∈
      [(true, false, false, false), (false, true, false, false), (false, false, true, false),
        (false, false, false, true)] := by
  decide

/-- What a write of `v` makes of each bit (R110). -/
theorem getLsbD_regWriteValue (old v : Word16) {i : Nat} (hi : i < 16) :
    (regWriteValue old v).getLsbD i =
      if (0x070F#16).getLsbD i then v.getLsbD i
      else if (0x7070#16).getLsbD i then old.getLsbD i ^^ v.getLsbD i
      else if (0x8080#16).getLsbD i then old.getLsbD i && v.getLsbD i
      else old.getLsbD i := by
  have hkind := writeMasks_partition i hi
  simp only [List.mem_cons, List.not_mem_nil, or_false, Prod.mk.injEq] at hkind
  simp only [regWriteValue, BitVec.getLsbD_or, BitVec.getLsbD_and, BitVec.getLsbD_xor]
  obtain ⟨hw, ht, hc, hk⟩ | ⟨hw, ht, hc, hk⟩ | ⟨hw, ht, hc, hk⟩ | ⟨hw, ht, hc, hk⟩ := hkind <;>
    simp [hw, ht, hc, hk]

/-! ## After SET_STATUS -/

section
variable (r : Word16) (d : Dir) (t : Stat)

theorem getLsbD_withStatus_of_unmasked {i : Nat} (hi : i < 16) (hm : (statusMask d).getLsbD i = false) :
    (withStatus r d t).getLsbD i = r.getLsbD i := by
  simp only [withStatus, withBits, BitVec.getLsbD_or, BitVec.getLsbD_and, BitVec.getLsbD_not, hi, hm, decide_true,
    Bool.not_false, Bool.and_true, Bool.and_false, Bool.or_false]

@[simp] theorem eprToggle_withStatus (d' : Dir) : eprToggle (withStatus r d t) d' = eprToggle r d' := by
  cases d' <;> exact getLsbD_withStatus_of_unmasked r d t (by decide) (by cases d <;> decide)

@[simp] theorem eprSetup_withStatus : eprSetup (withStatus r d t) = eprSetup r :=
  getLsbD_withStatus_of_unmasked r d t (by decide) (by cases d <;> decide)

@[simp] theorem eprKind_withStatus : eprKind (withStatus r d t) = eprKind r :=
  getLsbD_withStatus_of_unmasked r d t (by decide) (by cases d <;> decide)

@[simp] theorem eprType_withStatus : eprType (withStatus r d t) = eprType r :=
  extractLsb'_congr fun i hi => getLsbD_withStatus_of_unmasked r d t (by omega)
    (by cases d <;> interval_cases i <;> decide)

@[simp] theorem eprAddr_withStatus : eprAddr (withStatus r d t) = eprAddr r :=
  extractLsb'_congr fun i hi => getLsbD_withStatus_of_unmasked r d t (by omega)
    (by cases d <;> interval_cases i <;> decide)

end

/-! ## After CLEAR_CTR -/

/-- The flags that CLEAR_CTR clears (R118). -/
def clearedFlags (both : Bool) (d : Dir) : Word16 := if both then 0x8080#16 else flagBit d

/-- The value of a register after CLEAR_CTR (R118): see `exec_clearCtr_quiet`. -/
def eprAfterClearCtr (both : Bool) (r : Word16) (d : Dir) : Word16 := r &&& ~~~(clearedFlags both d)

section
variable (both : Bool) (r : Word16) (d : Dir)

@[simp] theorem eprFlag_eprAfterClearCtr_self : eprFlag (eprAfterClearCtr both r d) d = false := by
  cases both <;> cases d <;> simp [eprFlag, eprAfterClearCtr, clearedFlags, flagBit]

/-- The other direction's flag goes only where both are cleared. -/
theorem eprFlag_eprAfterClearCtr_other {d d' : Dir} (hd : d' ≠ d) :
    eprFlag (eprAfterClearCtr both r d) d' = (eprFlag r d' && !both) := by
  cases both <;> cases d <;> cases d' <;> simp [eprFlag, eprAfterClearCtr, clearedFlags, flagBit] at hd ⊢

/-- Only bits 15 and 7 are completion flags (10_state R12). -/
theorem getLsbD_clearedFlags : ∀ i < 16, i ≠ 15 → i ≠ 7 → (clearedFlags both d).getLsbD i = false := by
  cases both <;> cases d <;> decide

theorem getLsbD_eprAfterClearCtr {i : Nat} (h15 : i ≠ 15) (h7 : i ≠ 7) :
    (eprAfterClearCtr both r d).getLsbD i = r.getLsbD i := by
  by_cases hi : i < 16
  · simp only [eprAfterClearCtr, BitVec.getLsbD_and, BitVec.getLsbD_not, hi,
      getLsbD_clearedFlags both d i hi h15 h7, decide_true, Bool.not_false, Bool.and_true]
  · rw [BitVec.getLsbD_of_ge _ _ (by omega), BitVec.getLsbD_of_ge _ _ (by omega)]

end

/-! ## After EP_CONFIGURE -/

/-- The value of a register after EP_CONFIGURE (R120): see `Hw.epConfigure_quiet`. -/
def eprAfterConfigure (r : Word16) (type : EpType) (addr : BitVec 4) (rx tx : Stat) : Word16 :=
  (r &&& 0x0800#16) ||| ((epTypeCode type).setWidth 16 <<< 9) ||| addr.setWidth 16 ||| transitionBits .rx rx |||
    transitionBits .tx tx

section
variable (r : Word16) (type : EpType) (addr : BitVec 4) (rx tx : Stat)

@[simp] theorem eprType_eprAfterConfigure : eprType (eprAfterConfigure r type addr rx tx) = epTypeCode type := by
  apply BitVec.eq_of_getLsbD_eq
  intro i hi
  interval_cases i <;> simp [eprType, eprAfterConfigure, transitionBits]

@[simp] theorem eprAddr_eprAfterConfigure : eprAddr (eprAfterConfigure r type addr rx tx) = addr := by
  apply BitVec.eq_of_getLsbD_eq
  intro i hi
  interval_cases i <;> simp [eprAddr, eprAfterConfigure, transitionBits]

@[simp] theorem eprKind_eprAfterConfigure : eprKind (eprAfterConfigure r type addr rx tx) = false := by
  simp [eprKind, eprAfterConfigure, transitionBits]

/-- Each direction has the status it was given. -/
theorem eprStat_eprAfterConfigure (d : Dir) :
    eprStat (eprAfterConfigure r type addr rx tx) d = match d with | .rx => rx | .tx => tx := by
  have hcode : (eprAfterConfigure r type addr rx tx).extractLsb' (match d with | .rx => 12 | .tx => 4) 2 =
      statCode (match d with | .rx => rx | .tx => tx) := by
    apply BitVec.eq_of_getLsbD_eq
    intro i hi
    cases d <;> interval_cases i <;> simp [eprAfterConfigure, transitionBits]
  cases d <;> exact (congrArg statOf hcode).trans (statOf_statCode _)

@[simp] theorem eprToggle_eprAfterConfigure (d : Dir) : eprToggle (eprAfterConfigure r type addr rx tx) d = false := by
  cases d <;> simp [eprToggle, eprAfterConfigure, transitionBits]

@[simp] theorem eprFlag_eprAfterConfigure (d : Dir) : eprFlag (eprAfterConfigure r type addr rx tx) d = false := by
  cases d <;> simp [eprFlag, eprAfterConfigure, transitionBits]

@[simp] theorem eprSetup_eprAfterConfigure : eprSetup (eprAfterConfigure r type addr rx tx) = eprSetup r := by
  simp [eprSetup, eprAfterConfigure, transitionBits]

end

theorem Hw.epConfigure_quiet {c : Config} {h : Hw} (q : h.between = []) (e : Ep) (type : EpType) (addr : BitVec 4)
    (rx tx : Stat) :
    Hw.epConfigure c e type addr rx tx h =
      { h with epr := h.epr.set e (eprAfterConfigure (h.epr.get e) type addr rx tx) } := by
  simp only [Hw.epConfigure, Hw.slot_quiet q, Hw.regWrite_quiet q, regWriteValue_epConfigureWord, eprAfterConfigure]

end Sys2Proof.Machine
end

section
/-! SUPPORT. The operations of spec/40_endpoint_register.md: what each answers where it runs, and the statements about
them. -/

namespace Sys2Proof.Machine

/-! ## What the operations answer where they run -/

section
variable {s : State} (r : s.runnable)
include r

theorem State.runnable.slot : s.slot.runnable := r.onHw Hw.slot_areas

theorem State.runnable.setStatus (e : Ep) (d : Dir) (t : Stat) :
    (s.onHw (fun c h => Hw.setStatus c e d t h)).runnable :=
  r.onHw (Hw.setStatus_areas e d t)

theorem exec_eprWrite (e : Ep) (v : Word16) :
    exec (.eprWrite e v) s = .next (s.onHw (fun c h => Hw.regWrite c e v h)) := State.run_of_runnable r _

theorem exec_setStatus (e : Ep) (d : Dir) (t : Stat) :
    exec (.setStatus e d t) s = .next (s.onHw (fun c h => Hw.setStatus c e d t h)) := State.run_of_runnable r _

theorem exec_stall (e : Ep) : exec (.stall e) s = .next (s.onHw (fun c h => Hw.stall c e h)) :=
  State.run_of_runnable r _

theorem exec_unstall (e : Ep) : exec (.unstall e) s = .next (s.onHw (fun c h => Hw.unstall c e h)) :=
  State.run_of_runnable r _

theorem exec_markRxDone (e : Ep) : exec (.markRxDone e) s = .next (s.onHw (fun c h => Hw.markRxDone c e h)) :=
  State.run_of_runnable r _

theorem exec_markTxReady (e : Ep) : exec (.markTxReady e) s = .next (s.onHw (fun c h => Hw.markTxReady c e h)) :=
  State.run_of_runnable r _

theorem exec_clearCtr (e : Ep) (d : Dir) :
    exec (.clearCtr e d) s = .next (s.onHw (fun c h => Hw.clearCtr c e d h)) := State.run_of_runnable r _

theorem exec_epConfigure (e : Ep) (type : EpType) (addr : BitVec 4) (rx tx : Stat) :
    exec (.epConfigure e type addr rx tx) s = .next (s.onHw (fun c h => Hw.epConfigure c e type addr rx tx h)) :=
  State.run_of_runnable r _

/-! ## One read, one write

The read is the slot before it and the word computed from what the register holds then; the write is EPR_WRITE. -/

theorem exec_setStatus_eq_eprWrite (e : Ep) (d : Dir) (t : Stat) :
    exec (.setStatus e d t) s = exec (.eprWrite e (setStatusWord d t (s.slot.hw.epr.get e))) s.slot := by
  rw [exec_setStatus r, exec_eprWrite r.slot]; rfl

theorem exec_clearCtr_eq_eprWrite (e : Ep) (d : Dir) :
    exec (.clearCtr e d) s =
      exec (.eprWrite e (clearCtrWord s.cfg.ctrClearBoth d (s.slot.hw.epr.get e))) s.slot := by
  rw [exec_clearCtr r, exec_eprWrite r.slot]; rfl

theorem exec_epConfigure_eq_eprWrite (e : Ep) (type : EpType) (addr : BitVec 4) (rx tx : Stat) :
    exec (.epConfigure e type addr rx tx) s =
      exec (.eprWrite e (epConfigureWord type addr rx tx (s.slot.hw.epr.get e))) s.slot := by
  rw [exec_epConfigure r, exec_eprWrite r.slot]; rfl

/-! ## With the bus side still -/

theorem exec_setStatus_quiet (q : s.quiet) (e : Ep) (d : Dir) (t : Stat) :
    exec (.setStatus e d t) s = .next { s with hw := s.hw.setTo e d t } := by
  rw [exec_setStatus r, State.onHw, Hw.setStatus_quiet q]

theorem exec_clearCtr_quiet (q : s.quiet) (e : Ep) (d : Dir) :
    exec (.clearCtr e d) s = .next { s with
      hw := { s.hw with epr := s.hw.epr.set e (eprAfterClearCtr s.cfg.ctrClearBoth (s.hw.epr.get e) d) } } := by
  rw [exec_clearCtr r, State.onHw, Hw.clearCtr_quiet q]; rfl

theorem exec_epConfigure_quiet (q : s.quiet) (e : Ep) (type : EpType) (addr : BitVec 4) (rx tx : Stat) :
    exec (.epConfigure e type addr rx tx) s = .next { s with
      hw := { s.hw with epr := s.hw.epr.set e (eprAfterConfigure (s.hw.epr.get e) type addr rx tx) } } := by
  rw [exec_epConfigure r, State.onHw, Hw.epConfigure_quiet q]

end

end Sys2Proof.Machine

/-! ## The statements -/

open Sys2Proof Sys2Proof.Machine

/-- Settles O14: the operation is `Hw.regWrite`, whose bits `getLsbD_regWriteValue` gives. -/
theorem registerWrite : Obligations.RegisterWrite := fun _ e v r =>
  ⟨_, exec_eprWrite r e v, fun _ hi => getLsbD_regWriteValue _ v hi⟩

/-- Settles O15: the register after the call is `withStatus`, taken apart field by field. -/
theorem setStatusResult : Obligations.SetStatusResult := fun s e d t r q =>
  ⟨withStatus (s.hw.epr.get e) d t, exec_setStatus_quiet r q e d t, eprStat_withStatus_self _ d t,
    fun _ hd => eprStat_withStatus_other _ t hd,
    fun d' => ⟨eprToggle_withStatus _ d t d', eprFlag_withStatus _ d d' t⟩,
    eprType_withStatus _ d t, eprKind_withStatus _ d t, eprAddr_withStatus _ d t, eprSetup_withStatus _ d t⟩

/-- Settles O16: SET_STATUS is a slot and an EPR_WRITE, and each of the other operations is its SET_STATUS calls run one
after the other, the second from a state where it runs (`State.runnable.setStatus`). -/
theorem statusOperationsExpand : Obligations.StatusOperationsExpand := by
  intro s e r
  refine ⟨?_, ?_, ?_, ?_, ?_⟩
  · intro d t
    have hwrite := exec_eprWrite r.slot e (setStatusWord d t (s.slot.hw.epr.get e))
    have hset := (exec_setStatus_eq_eprWrite r e d t).trans hwrite
    cases d <;> exact ⟨_, hwrite, hset⟩
  · exact ⟨_, _, exec_setStatus r e .rx .stall, exec_setStatus (r.setStatus e .rx .stall) e .tx .stall,
      exec_stall r e⟩
  · exact ⟨_, _, exec_setStatus r e .rx .valid, exec_setStatus (r.setStatus e .rx .valid) e .tx .nak,
      exec_unstall r e⟩
  · exact ⟨_, exec_setStatus r e .rx .valid, exec_markRxDone r e⟩
  · exact ⟨_, exec_setStatus r e .tx .valid, exec_markTxReady r e⟩

/-- Settles O17: under any schedule CLEAR_CTR is a slot and an EPR_WRITE, and with the bus side still the register
after it is `eprAfterClearCtr`. -/
theorem clearCompletion : Obligations.ClearCompletion := by
  intro s e d r
  constructor
  · cases d <;> exact exec_clearCtr_eq_eprWrite r e _
  · intro q
    exact ⟨_, exec_clearCtr_quiet r q e d, eprFlag_eprAfterClearCtr_self _ _ d,
      fun _ hd => eprFlag_eprAfterClearCtr_other _ _ hd, fun _ h15 h7 => getLsbD_eprAfterClearCtr _ _ d h15 h7⟩

/-- Settles O18: under any schedule EP_CONFIGURE is a slot and an EPR_WRITE, and with the bus side still the register
after it is `eprAfterConfigure`. -/
theorem endpointConfigured : Obligations.EndpointConfigured := by
  intro s e type addr rx tx r
  constructor
  · exact exec_epConfigure_eq_eprWrite r e type addr rx tx
  · intro q
    exact ⟨_, exec_epConfigure_quiet r q e type addr rx tx, eprType_eprAfterConfigure ..,
      eprKind_eprAfterConfigure .., eprAddr_eprAfterConfigure .., eprStat_eprAfterConfigure _ type addr rx tx .rx,
      eprStat_eprAfterConfigure _ type addr rx tx .tx,
      fun d => ⟨eprToggle_eprAfterConfigure .., eprFlag_eprAfterConfigure ..⟩, eprSetup_eprAfterConfigure ..⟩

end

section
/-! SUPPORT. Classification of a SETUP packet (spec/42_control_transfer.md R142, R147, R154, R168): the row of a type
and a code carries the instruction that classifying gives. -/

namespace Sys2Proof.Machine

section
variable (p : List Byte)

/-- A request code and a descriptor type are named by their numbers, as `classify` names them. -/
theorem rowOf_instr_standard :
    (rowOf 0 (byteAt p 1) (byteAt p 3)).instr p =
      classifyStandard (setupArgs p) (byteAt p 1) (byteAt p 2) (byteAt p 3) (packetValue p) := by
  unfold classifyStandard
  split
  case h_7 =>
    split
    case h_5 =>
      simp only [imp_false] at *
      simp [rowOf, BitVec.toNat_eq, SetupRow.instr, *]
    all_goals simp [rowOf, BitVec.toNat_eq, SetupRow.instr, *]
  case h_14 =>
    simp only [imp_false] at *
    simp [rowOf, BitVec.toNat_eq, SetupRow.instr, *]
  all_goals simp [rowOf, BitVec.toNat_eq, SetupRow.instr, *]

theorem rowOf_instr_class (v : Byte) :
    (rowOf 1 (byteAt p 1) v).instr p = classifyClass (setupArgs p) (byteAt p 1) (packetValue p) := by
  unfold classifyClass
  split
  case h_5 =>
    simp only [imp_false] at *
    simp [rowOf, BitVec.toNat_eq, SetupRow.instr, *]
  all_goals simp [rowOf, BitVec.toNat_eq, SetupRow.instr, *]

theorem rowOf_vendor (r v : Byte) : rowOf 2 r v = .vendor := by simp [rowOf]

theorem rowOf_reserved (r v : Byte) : rowOf 3 r v = .typeReserved := by simp [rowOf]

theorem rowOf_instr :
    (rowOf ((byteAt p 0).extractLsb' 5 2) (byteAt p 1) (byteAt p 3)).instr p = classify p := by
  obtain h | h | h | h : (byteAt p 0).extractLsb' 5 2 = 0 ∨ (byteAt p 0).extractLsb' 5 2 = 1 ∨
      (byteAt p 0).extractLsb' 5 2 = 2 ∨ (byteAt p 0).extractLsb' 5 2 = 3 := by
    generalize (byteAt p 0).extractLsb' 5 2 = t
    revert t
    decide
  · rw [classify, h]; exact rowOf_instr_standard p
  · rw [classify, h]; exact rowOf_instr_class p _
  · rw [classify, h, rowOf_vendor]; rfl
  · rw [classify, h, rowOf_reserved]; rfl

end

end Sys2Proof.Machine

open Sys2Proof Sys2Proof.Machine

/-- Settles O7: the key's first match is a function of type, request code and descriptor type (`decodeKey_eq_rowOf`),
and so is the classification (`rowOf_instr`). -/
theorem setupKeyClassifies : Obligations.SetupKeyClassifies := by
  intro bl p hlen
  obtain ⟨htype, hcode, hdesc⟩ := setupKey_fields p
  rw [decode, decodeSetup, if_pos hlen, decodeKey_eq_rowOf, htype, hcode, hdesc, rowOf_instr]

end

section
/-! SUPPORT. The operations of spec/42_control_transfer.md: one equation for each case of a rule, what each instruction
answers where it runs, and the statements about them. -/

namespace Sys2Proof.Machine

/-! ## Packets and operands -/

theorem byteAt_of_getElem? {p : List Byte} {i : Nat} {x : Byte} (h : p[i]? = some x) : byteAt p i = x := by
  rw [byteAt, List.getD_eq_getElem?_getD, h, Option.getD_some]

/-- A packet on its way to the host leaves `DADDR` alone. -/
theorem Hw.queues.daddr_eq {e : Ep} {b : List Byte} {h h' : Hw} (hq : Hw.queues e b h h') : h'.daddr = h.daddr := by
  obtain ⟨-, -, -, hframe⟩ := hq
  rw [hframe]

theorem deviceStatusByte_eq_ofNat (x : ControlCtx) :
    deviceStatusByte x = BitVec.ofNat 8 (x.selfPowered.toNat + 2 * x.remoteWakeup.toNat) := by
  rw [deviceStatusByte]
  cases x.selfPowered <;> cases x.remoteWakeup <;> decide

section
variable {x : ControlCtx}

theorem ControlCtx.feature_eq_remoteWakeup (h : x.recipient = 0 ∧ x.wValue = 1) : x.feature = .remoteWakeup := by
  rw [ControlCtx.feature, if_pos h]

theorem ControlCtx.feature_eq_halt {e : Ep} (h : x.recipient = 2 ∧ x.wValue = 0) (he : x.addressedEp = some e) :
    x.feature = .halt e := by
  have hnot : ¬(x.recipient = 0 ∧ x.wValue = 1) := by simp [h.1]
  rw [ControlCtx.feature, if_neg hnot, if_pos h, he]

theorem ControlCtx.feature_eq_unknown (hwakeup : ¬(x.recipient = 0 ∧ x.wValue = 1))
    (hhalt : ¬(x.recipient = 2 ∧ x.wValue = 0) ∨ x.addressedEp = none) : x.feature = .unknown := by
  rw [ControlCtx.feature, if_neg hwakeup]
  split
  · obtain hnot | hnone := hhalt
    · contradiction
    · rw [hnone]
  · rfl

end

/-! ## The rules, case by case -/

/-- A reply of two status bytes is a START_IN from `status_buf` (42_control R148). -/
theorem sends_replyStatus (b : Byte) (s : State) :
    Sends { s with ctl.statusBuf := [b, 0] } (replyStatus b s) .status 2 :=
  sends_startInRule _ .status 2

section
variable {s : State}

theorem getStatusRule_device (h : s.ctl.recipient = 0) : getStatusRule s = replyStatus (deviceStatusByte s.ctl) s := by
  rw [getStatusRule, if_pos h]

theorem getStatusRule_interface (h : s.ctl.recipient = 1) : getStatusRule s = replyStatus 0 s := by
  simp [getStatusRule, h]

theorem getStatusRule_endpoint {e : Ep} (h : s.ctl.recipient = 2) (he : s.ctl.addressedEp = some e) :
    getStatusRule s =
      replyStatus (if eprStat (s.slot.hw.epr.get e) s.ctl.addressedDir = .stall then 1 else 0) s.slot := by
  rw [getStatusRule, if_neg (by simp [h]), if_neg (by simp [h]), if_pos h, he]
  rfl

theorem getStatusRule_noEndpoint (h : s.ctl.recipient = 2) (he : s.ctl.addressedEp = none) :
    getStatusRule s = rejectRule s := by
  simp [getStatusRule, h, he]

theorem getStatusRule_otherRecipient (h : 2 < s.ctl.recipient.toNat) : getStatusRule s = rejectRule s := by
  have hne : ∀ k : BitVec 5, k.toNat ≤ 2 → s.ctl.recipient ≠ k := by
    rintro k hk rfl
    omega
  rw [getStatusRule, if_neg (hne 0 (by decide)), if_neg (hne 1 (by decide)), if_neg (hne 2 (by decide))]

/-- SET_FEATURE or CLEAR_FEATURE (42_control R151, R149). -/
def featureRule (on : Bool) : State → State := if on then setFeatureRule else clearFeatureRule

/-- The endpoint operation of a halt feature: STALL or UNSTALL. -/
def halted (on : Bool) (e : Ep) (s : State) : State :=
  s.onHw (fun c h => if on then Hw.stall c e h else Hw.unstall c e h)

theorem featureRule_remoteWakeup (on : Bool) (h : s.ctl.feature = .remoteWakeup) :
    featureRule on s = ackInto .status { s with ctl.remoteWakeup := on } := by
  cases on <;> simp [featureRule, setFeatureRule, clearFeatureRule, h]

theorem featureRule_halt (on : Bool) {e : Ep} (h : s.ctl.feature = .halt e) :
    featureRule on s = ackInto .status (halted on e s) := by
  cases on <;> simp [featureRule, setFeatureRule, clearFeatureRule, h, halted]

theorem featureRule_unknown (on : Bool) (h : s.ctl.feature = .unknown) : featureRule on s = rejectRule s := by
  cases on <;> simp [featureRule, setFeatureRule, clearFeatureRule, h]

theorem getDescriptorStringRule_of_lt {i : Nat} (hi : s.ctl.wValueL.toNat = i) (h : i < s.cfg.strDesc.length) :
    getDescriptorStringRule s = startInRule (.str i) (strLength s.cfg i) s := by
  subst hi
  exact if_pos h

theorem getDescriptorStringRule_of_ge {i : Nat} (hi : s.ctl.wValueL.toNat = i) (h : s.cfg.strDesc.length ≤ i) :
    getDescriptorStringRule s = rejectRule s := by
  subst hi
  exact if_neg (Nat.not_lt.mpr h)

theorem getDescriptorRule_device (h : s.ctl.wValueH = 1) : getDescriptorRule s = getDescriptorDeviceRule s := by
  simp [getDescriptorRule, h]

theorem getDescriptorRule_configuration (h : s.ctl.wValueH = 2) :
    getDescriptorRule s = getDescriptorConfigurationRule s := by
  simp [getDescriptorRule, h]

theorem getDescriptorRule_string (h : s.ctl.wValueH = 3) : getDescriptorRule s = getDescriptorStringRule s := by
  simp [getDescriptorRule, h]

theorem getDescriptorRule_reject (h1 : s.ctl.wValueH ≠ 1) (h2 : s.ctl.wValueH ≠ 2) (h3 : s.ctl.wValueH ≠ 3) :
    getDescriptorRule s = rejectRule s := by
  rw [getDescriptorRule, if_neg h1, if_neg h2, if_neg h3]

theorem ctrlOutRule_lineCoding (h : s.ctl.reqType = 1 ∧ s.ctl.request = 0x20) :
    ctrlOutRule s = (s.readInto .ctrl .lc 7).enter (afterCtrlOut s.ctl.ctlState) := by
  simp only [ctrlOutRule, if_pos h]

theorem ctrlOutRule_lineState (h : s.ctl.reqType = 1 ∧ s.ctl.request = 0x22) :
    ctrlOutRule s =
      (State.onHw { s with cls.dtr := s.ctl.wValueH.getLsbD 0, cls.rts := s.ctl.wValueH.getLsbD 1 }
        (fun c h => Hw.markRxDone c .ctrl h)).enter (afterCtrlOut s.ctl.ctlState) := by
  have hnot : ¬(s.ctl.reqType = 1 ∧ s.ctl.request = 0x20) := by simp [h.2]
  simp only [ctrlOutRule, if_neg hnot, if_pos h]

theorem ctrlOutRule_discard (h20 : ¬(s.ctl.reqType = 1 ∧ s.ctl.request = 0x20))
    (h22 : ¬(s.ctl.reqType = 1 ∧ s.ctl.request = 0x22)) :
    ctrlOutRule s = (s.onHw (fun c h => Hw.markRxDone c .ctrl h)).enter (afterCtrlOut s.ctl.ctlState) := by
  simp only [ctrlOutRule, if_neg h20, if_neg h22]

end

/-! ## What the instructions answer where they run -/

section
variable {s : State} (r : s.runnable)
include r

/-- An instruction whose packet is already captured runs its rule on the state as it is. -/
theorem runSetup_of_captured {p : List Byte} (h : s.ctl.setup = p) (rule : State → State) :
    runSetup p rule s = .next (rule s) := by
  rw [runSetup_of_runnable r, State.capture_of_setup h]

theorem exec_write (e : Ep) (src : List Byte) (count : Nat) :
    exec (.write e src count) s =
      .next { s.send e src count with result := (Hw.write s.cfg e src count s.hw).1 } :=
  State.run_of_runnable r _

theorem exec_halt (on : Bool) (e : Ep) :
    exec (if on then .stall e else .unstall e) s = .next (halted on e s) := by
  cases on
  · exact exec_unstall r e
  · exact exec_stall r e

/-- A READ of at most as many bytes as its destination holds runs (41_buffer R130). -/
theorem exec_read_of_le {e : Ep} {dest : Buffer} {m : Nat} (hm : m ≤ bufferSize s.cfg dest) :
    exec (.read e dest m) s =
      .next { s.readInto e dest m with result := (Hw.read s.cfg e m s.hw).1.length } := by
  have hfits : ¬bufferSize s.cfg dest < (Hw.read s.cfg e m s.hw).1.length := by rw [Hw.read_length]; omega
  rw [show exec (.read e dest m) s = execRead e dest m s from rfl, execRead, if_neg hfits]
  exact State.run_of_runnable r _

/-! ## How the instructions end -/

section
variable {p : List Byte} (hp : s.ctl.setup = p)
include hp

theorem runSetup_rejects : ∃ t, runSetup p rejectRule s = .next t ∧ Rejected s t :=
  ⟨_, runSetup_of_captured r hp _, rejected_rejectRule s⟩

theorem runSetup_sends (src : XferSrc) (n : Word16) :
    ∃ t, runSetup p (startInRule src n) s = .next t ∧ Sends s t src n :=
  ⟨_, runSetup_of_captured r hp _, sends_startInRule s src n⟩

end

theorem runSetup_ackBeforeData {a : SetupArgs} {code : Byte} {v : Word16}
    (hp : s.ctl.setup = packetOfValue a 1 code v) :
    ∃ t, runSetup (packetOfValue a 1 code v) ackBeforeData s = .next t ∧
      Acked s t (if a.wLength = 0 then .status else .dataOut) := by
  obtain ⟨-, -, -, hlen, -⟩ := ControlCtx.operands_of_setup a 1 code v s hp
  have hack := acked_ackInto s (if s.ctl.wLength = 0 then .status else .dataOut)
  rw [hlen] at hack
  refine ⟨_, runSetup_of_captured r hp _, ?_⟩
  rwa [ackBeforeData, hlen]

end

end Sys2Proof.Machine

/-! ## The statements -/

open Sys2Proof Sys2Proof.Machine

/-- Settles O26: ACK is the WRITE of no bytes and REJECT the SET_STATUS of R144, each followed by its phase. -/
theorem ackAndReject : Obligations.AckAndReject := fun s r =>
  ⟨⟨_, State.run_of_runnable r ackRule, acked_ackInto s s.ctl.ctlState⟩,
    ⟨_, State.run_of_runnable r rejectRule, rejected_rejectRule s⟩,
    ⟨_, exec_write r .ctrl [] 0, State.run_of_runnable r ackRule⟩,
    ⟨_, exec_setStatus r .ctrl .rx .stall, State.run_of_runnable r rejectRule⟩⟩

/-- Settles O27: the transfer is `sends_startInRule`, and the table of sources is `sourceBytes`. -/
theorem startIn : Obligations.StartIn := by
  intro s src natural r
  refine ⟨⟨_, State.run_of_runnable r _, sends_startInRule s src natural⟩, rfl, rfl, ?_, rfl, rfl, rfl, rfl⟩
  intro i d hd
  rw [sourceBytes, List.getD_eq_getElem?_getD, hd, Option.getD_some]

/-- Settles O30: one clause for each case of the rule (`getStatusRule_device` and the lemmas after it). -/
theorem getStatus : Obligations.GetStatus := by
  intro s a v r hp ep
  obtain ⟨hrcp, -, hindex, -, -⟩ := ControlCtx.operands_of_setup a 0 0 v s hp
  have hep : s.ctl.addressedEp = epOfNum ep := by rw [ControlCtx.addressedEp, hindex]
  have hdir : s.ctl.addressedDir = if a.wIndex.getLsbD 7 then .tx else .rx := by
    rw [ControlCtx.addressedDir, hindex]
  rw [← hrcp]
  refine ⟨_, runSetup_of_captured r hp getStatusRule, ?_, ?_, ?_, ?_⟩
  · intro h
    rw [getStatusRule_device h, ← deviceStatusByte_eq_ofNat]
    exact sends_replyStatus _ s
  · intro h
    rw [getStatusRule_interface h]
    exact sends_replyStatus 0 s
  · intro e h he d
    rw [getStatusRule_endpoint h (hep.trans (epOfNum_eq_some ep e he)), hdir]
    exact sends_replyStatus _ s.slot
  · intro h
    have hreject : getStatusRule s = rejectRule s := by
      obtain h | ⟨h, hnum⟩ := h
      · exact getStatusRule_otherRecipient h
      · exact getStatusRule_noEndpoint h (hep.trans (epOfNum_eq_none ep hnum))
    rw [hreject]
    exact rejected_rejectRule s

/-- Settles O31: both requests are `featureRule`, by what the packet addresses (`ControlCtx.feature`). -/
theorem features : Obligations.Features := by
  intro s a v on r i ep hp
  obtain ⟨hrcp, hvalue, hindex, -, -⟩ := ControlCtx.operands_of_setup a 0 _ v s hp
  have hep : s.ctl.addressedEp = epOfNum ep := by rw [ControlCtx.addressedEp, hindex]
  have hexec : exec i s = .next (featureRule on s) := by
    cases on <;> exact runSetup_of_captured r hp _
  rw [← hrcp, ← hvalue]
  refine ⟨_, hexec, ?_, ?_, ?_⟩
  · intro h
    rw [featureRule_remoteWakeup on (ControlCtx.feature_eq_remoteWakeup h)]
    exact acked_ackInto _ _
  · rintro e ⟨h2, h0, he⟩
    rw [featureRule_halt on (ControlCtx.feature_eq_halt ⟨h2, h0⟩ (hep.trans (epOfNum_eq_some ep e he)))]
    exact ⟨_, exec_halt r on e, acked_ackInto _ _⟩
  · intro hwakeup hhalt
    have hnone : ¬(s.ctl.recipient = 2 ∧ s.ctl.wValue = 0) ∨ s.ctl.addressedEp = none := by
      by_cases h : s.ctl.recipient = 2 ∧ s.ctl.wValue = 0
      · have hnum : 2 < ep := by
          by_contra hle
          exact hhalt ⟨h.1, h.2, by omega⟩
        exact .inr (hep.trans (epOfNum_eq_none ep hnum))
      · exact .inl h
    rw [featureRule_unknown on (ControlCtx.feature_eq_unknown hwakeup hnone)]
    exact rejected_rejectRule s

/-- Settles O32: the acknowledgement's packet is all that reaches the registers, and it is not `DADDR`. -/
theorem setAddressDefers : Obligations.SetAddressDefers := by
  intro s a v r hp
  obtain ⟨-, hvalue, -, -, -⟩ := ControlCtx.operands_of_setup a 0 5 v s hp
  have hack : Acked { s with dev.pendingAddr := v.extractLsb' 0 7, dev.addrPending := true } (setAddressRule s)
      .status := by
    rw [setAddressRule, hvalue]
    exact acked_ackInto _ _
  exact ⟨_, runSetup_of_captured r hp _, hack, fun q => (hack.2 q).daddr_eq⟩

/-- Settles O33: the handler row runs the rule of the case its descriptor type names, and each case that sends is a
START_IN of its table's length field. -/
theorem getDescriptorSends : Obligations.GetDescriptorSends := by
  intro s a type index r hp
  have htype : s.ctl.wValueH = type := by rw [ControlCtx.wValueH, hp]; rfl
  have hindex : s.ctl.wValueL.toNat = index.toNat := by rw [ControlCtx.wValueL, hp]; rfl
  refine ⟨⟨_, runSetup_of_captured r hp getDescriptorRule, ?_, ?_, ?_, ?_, ?_⟩, ?_, ?_, ?_⟩
  · rintro rfl
    rw [getDescriptorRule_device htype]
    exact runSetup_of_captured r hp _
  · rintro rfl
    rw [getDescriptorRule_configuration htype]
    exact runSetup_of_captured r hp _
  · rintro rfl
    rw [getDescriptorRule_string htype]
    exact runSetup_of_captured r hp _
  · rintro rfl
    rw [getDescriptorRule_reject (by simp [htype]) (by simp [htype]) (by simp [htype])]
    exact runSetup_of_captured r hp _
  · intro h1 h2 h3 _
    rw [getDescriptorRule_reject (htype ▸ h1) (htype ▸ h2) (htype ▸ h3)]
    exact runSetup_of_captured r hp _
  · rintro rfl
    refine ⟨_, runSetup_of_captured r hp getDescriptorDeviceRule, fun n hn => ?_⟩
    rw [getDescriptorDeviceRule, devLength, byteAt_of_getElem? hn]
    exact sends_startInRule s _ _
  · rintro rfl
    refine ⟨_, runSetup_of_captured r hp getDescriptorConfigurationRule, fun lo hi hlo hhi => ?_⟩
    rw [getDescriptorConfigurationRule, cfgLength, byteAt_of_getElem? hlo, byteAt_of_getElem? hhi]
    exact sends_startInRule s _ _
  · rintro rfl
    refine ⟨_, runSetup_of_captured r hp getDescriptorStringRule, ?_, fun hlen => ?_⟩
    · intro d n hd hn
      rw [getDescriptorStringRule_of_lt hindex (List.getElem?_eq_some_iff.mp hd).1, strLength,
        List.getD_eq_getElem?_getD, hd, Option.getD_some, byteAt_of_getElem? hn]
      exact sends_startInRule s _ _
    · rw [getDescriptorStringRule_of_ge hindex hlen]
      exact rejected_rejectRule s

/-- Settles O34: the rule of each of these rows is REJECT. -/
theorem nullRequestsReject : Obligations.NullRequestsReject := fun _ _ _ _ _ _ r =>
  ⟨runSetup_rejects r, runSetup_rejects r, runSetup_rejects r, runSetup_rejects r, runSetup_rejects r,
    runSetup_rejects r, runSetup_rejects r, runSetup_rejects r, runSetup_rejects r⟩

/-- Settles O35: SET_CONFIGURATION by its two cases; the others acknowledge or send at once. -/
theorem configurationRequests : Obligations.ConfigurationRequests := by
  intro s a v r
  refine ⟨fun hp => ?_, fun hp => runSetup_sends r hp .config 1, fun hp => runSetup_sends r hp .zero 1,
    fun hp => ⟨_, runSetup_of_captured r hp setInterfaceRule, acked_ackInto s .status⟩⟩
  obtain ⟨-, -, -, -, hlow⟩ := ControlCtx.operands_of_setup a 0 9 v s hp
  rw [← hlow]
  refine ⟨_, runSetup_of_captured r hp setConfigurationRule, fun h => ?_, fun h => ?_⟩
  · rw [setConfigurationRule_zero h, h]
    exact acked_ackInto _ _
  · rw [setConfigurationRule_nonzero h]
    exact acked_ackInto _ _

/-- Settles O36: three requests acknowledge before their data, GET_LINE_CODING sends, and any other code is logged and
acknowledged. -/
theorem classRequests : Obligations.ClassRequests := by
  intro s a v code r next
  refine ⟨runSetup_ackBeforeData r, fun hp => runSetup_sends r hp .lc 7, runSetup_ackBeforeData r,
    runSetup_ackBeforeData r, fun hp => ?_⟩
  exact ⟨_, runSetup_of_captured r hp classOtherRule, acked_ackInto (s.logEvent .unknownClassReq) .status⟩

/-- Settles O38: one clause for each case of the rule; the READ of the record re-arms reception itself (41_buffer
R130), the other two cases by MARK_RX_DONE. -/
theorem controlOut : Obligations.ControlOut := by
  intro s r next cls code vh
  have hexec : exec .ctrlOut s = .next (ctrlOutRule s) := State.run_of_runnable r _
  have hcase : ∀ k : Byte, (cls = true ∧ code = k) ↔ (s.ctl.reqType = 1 ∧ s.ctl.request = k) := fun k =>
    and_congr_left' decide_eq_true_iff
  refine ⟨?_, ?_, ?_⟩
  · intro h
    rw [hexec, ctrlOutRule_lineCoding ((hcase 0x20).mp h)]
    exact ⟨_, exec_read_of_le r (Nat.le_refl 7), rfl⟩
  · intro h
    rw [hexec, ctrlOutRule_lineState ((hcase 0x22).mp h)]
    exact ⟨_, exec_markRxDone (by exact r) .ctrl, rfl⟩
  · intro h20 h22
    rw [hexec, ctrlOutRule_discard (mt (hcase 0x20).mpr h20) (mt (hcase 0x22).mpr h22)]
    exact ⟨_, exec_markRxDone r .ctrl, rfl⟩

end

section
/-! SUPPORT. The responses of spec/43_bulk_protocol.md and the size header, which draws one: what each queues where it
runs, and the statements about them. -/

namespace Sys2Proof.Machine

/-- A packet that the endpoint can hold is queued whole (41_buffer R131). -/
theorem State.queues_send {s : State} (q : s.quiet) {e : Ep} {b : List Byte} (hfit : b.length ≤ s.cfg.cap.get e) :
    Hw.queues e b s.hw (s.send e b b.length).hw := by
  rw [State.send_quiet q, queuedBytes_of_le _ _ le_rfl, Nat.min_eq_left hfit, List.take_length]
  exact Hw.afterWrite_queues e b

@[simp] theorem recordOf_length (id pad : Byte) (page len crc : Word16) :
    (recordOf id pad page len crc).length = 8 := rfl

/-- The fields of a record are the operands it was made of (30_encoding R88). -/
@[simp] theorem cmdRecordOf_recordOf (id pad : Byte) (page len crc : Word16) :
    cmdRecordOf (recordOf id pad page len crc) = { id := id, page := page, dataLen := len, crc := crc } := by
  simp [cmdRecordOf, recordOf, byteAt, bytesOf16, le16_bytes]

/-- The size header's rule is its echo and what it makes of the session (43_bulk R193). -/
theorem sizeHeaderRule_eq (s : State) :
    sizeHeaderRule s = { s with
      hw := (echoRule s).hw
      sess.lastCmd := cmdRecordOf s.cmdBuf
      sess.totalPages := (cmdRecordOf s.cmdBuf).page
      sess.blState := nextPhase s.sess.curPage (cmdRecordOf s.cmdBuf).page } := rfl

section
variable {s : State} (r : s.runnable)
include r

/-- REPORT_ERROR queues its one byte: no endpoint has room for none (00_scope R5). -/
theorem queues_reportRule (q : s.quiet) (code : ErrCode) :
    Hw.queues .data [errByte code] s.hw (reportRule code s).hw :=
  State.queues_send q (cap_pos r.1.1 .data)

/-- ECHO queues all of `cmd_buf`: bulk IN has room for a record (00_scope R5). -/
theorem queues_echoRule (q : s.quiet) (hlen : s.cmdBuf.length = 8) :
    Hw.queues .data s.cmdBuf s.hw (echoRule s).hw := by
  have hfit : s.cmdBuf.length ≤ s.cfg.cap.get .data := hlen ▸ capData_ge r.1.1
  have hqueues := State.queues_send q hfit
  rwa [hlen] at hqueues

/-- A size header whose record is already in `cmd_buf` runs its rule on the state as it is (log 2). -/
theorem exec_cmdSizeHeader_of_captured {pad : Byte} {page len crc : Word16}
    (hcmd : s.cmdBuf = recordOf 0x20 pad page len crc) :
    exec (.cmdSizeHeader pad page len crc) s = .next (sizeHeaderRule s) := by
  have hexec : exec (.cmdSizeHeader pad page len crc) s =
      .next (sizeHeaderRule { s with cmdBuf := recordOf 0x20 pad page len crc }) := State.run_of_runnable r _
  rw [hexec, ← hcmd]

end

end Sys2Proof.Machine

/-! ## The statements -/

open Sys2Proof Sys2Proof.Machine

/-- Settles O40: the rule is its echo and its session (`sizeHeaderRule_eq`), read off the record in `cmd_buf`. -/
theorem sizeHeader : Obligations.SizeHeader := by
  intro s pad page len crc r hcmd
  have hlen : s.cmdBuf.length = 8 := by rw [hcmd, recordOf_length]
  have hrecord : cmdRecordOf s.cmdBuf = { id := 0x20, page := page, dataLen := len, crc := crc } := by
    rw [hcmd, cmdRecordOf_recordOf]
  have hexec := exec_cmdSizeHeader_of_captured r hcmd
  rw [sizeHeaderRule_eq, hrecord] at hexec
  exact ⟨_, hexec, rfl, fun q => queues_echoRule r q hlen⟩

/-- Settles O44: both operations are one `send` on bulk IN, of a packet that fits it. -/
theorem reportAndEcho : Obligations.ReportAndEcho := by
  intro s r hlen
  refine ⟨fun code => ⟨_, State.run_of_runnable r _, rfl, fun q => ?_⟩,
    _, State.run_of_runnable r _, rfl, fun q => queues_echoRule r q hlen⟩
  have hqueues := queues_reportRule r q code
  cases code <;> exact hqueues

end

section
/-! SUPPORT. The dispatcher's causes and the bus-reset handler (spec/44_interrupt_dispatcher.md R220 to R225, R233):
what each rule answers where it runs, the sequence of an entry, and the statements about them. -/

namespace Sys2Proof.Machine

/-! ## Low power -/

section
variable {c : Config} {h : Hw}

/-- No move of the bus side writes CNTR (45_collaborators R248). -/
theorem Hw.move_cntr (m : BusMove) : (Hw.move c h m).cntr = h.cntr := by
  cases m <;>
    simp only [Hw.move, Hw.busSetup, Hw.busOut, Hw.busIn, Hw.busRefuse, Hw.busReset, Hw.busCause, Hw.reply,
      Hw.receive] <;>
    (repeat' split) <;> rfl

theorem Hw.moves_cntr (ms : List BusMove) : (ms.foldl (Hw.move c) h).cntr = h.cntr := by
  induction ms generalizing h with
  | nil => rfl
  | cons m ms ih => exact ih.trans (Hw.move_cntr m)

@[simp] theorem Hw.slot_cntr : (h.slot c).cntr = h.cntr := by
  rw [Hw.slot]
  split
  · rfl
  · exact Hw.moves_cntr _

theorem Hw.putLowPower_cntr (on : Bool) :
    (Hw.putLowPower c on h).cntr = withBits (withBits h.cntr 0x0008#16 (bits on)) 0x0004#16 (bits on) := by
  simp [Hw.putLowPower]

theorem Hw.putLowPower_areas (on : Bool) : h.SameAreas (Hw.putLowPower c on h) :=
  (Hw.slot_areas (h := h)).trans (Hw.slot_areas (h := { h.slot c with cntr := _ }))

theorem Hw.putLowPower_quiet (q : h.between = []) (on : Bool) :
    Hw.putLowPower c on h = { h with cntr := (Hw.putLowPower c on h).cntr } := by
  rw [Hw.putLowPower_cntr, Hw.putLowPower]
  simp [Hw.slot_quiet, q]

end

/-- The two assignments of R222 and R223 write one bit each. -/
theorem lowPower_bits (r : Word16) (on : Bool) :
    let r' := withBits (withBits r 0x0008#16 (bits on)) 0x0004#16 (bits on)
    cntrFsusp r' = on ∧ cntrLpMode r' = on ∧ ∀ i, i ≠ 2 → i ≠ 3 → r'.getLsbD i = r.getLsbD i := by
  refine ⟨?_, ?_, fun i h2 h3 => ?_⟩
  · cases on <;> simp [cntrFsusp, withBits, bits]
  · cases on <;> simp [cntrLpMode, withBits, bits]
  · by_cases hi : i < 16
    · cases on <;> interval_cases i <;> simp [withBits, bits] at h2 h3 ⊢
    · rw [BitVec.getLsbD_of_ge _ _ (by omega), BitVec.getLsbD_of_ge _ _ (by omega)]

/-! ## Bus reset -/

/-- The endpoint values of R233: `SETUP` is kept (40_endpoint_register R120). -/
def eprAfterReset (r : Word16) : Ep → Word16
  | .ctrl => 0x3220#16 ||| (r &&& 0x0800#16)
  | .data => 0x3021#16 ||| (r &&& 0x0800#16)
  | .comm => 0x0622#16 ||| (r &&& 0x0800#16)

section
variable {c : Config} {h : Hw} (q : h.between = [])
include q

theorem resetConfigure_quiet (e : Ep) :
    resetConfigure c e h = { h with epr := h.epr.set e (eprAfterReset (h.epr.get e) e) } := by
  cases e <;>
    simp only [resetConfigure, Hw.epConfigure_quiet q, eprAfterConfigure, eprAfterReset, BitVec.or_assoc] <;>
    rw [BitVec.or_comm] <;> rfl

theorem resetEndpoint_quiet (e : Ep) :
    resetEndpoint c h e = { h with
      txOffset := h.txOffset.set e (c.txOff.get e)
      rxOffset := h.rxOffset.set e (c.rxOff.get e)
      txCount := h.txCount.set e 0
      rxCount := h.rxCount.set e 0
      epr := h.epr.set e (eprAfterReset (h.epr.get e) e) } := by
  simp [resetEndpoint, Hw.slot_quiet, resetConfigure_quiet, q]

/-- The loop over the three endpoints gives each of them the values of R233. -/
theorem resetEndpoints_quiet :
    [Ep.ctrl, Ep.data, Ep.comm].foldl (resetEndpoint c) h = { h with
      txOffset := c.txOff
      rxOffset := c.rxOff
      txCount := ⟨0, 0, 0⟩
      rxCount := ⟨0, 0, 0⟩
      epr := ⟨eprAfterReset h.epr.ctrl .ctrl, eprAfterReset h.epr.data .data, eprAfterReset h.epr.comm .comm⟩ } := by
  simp only [List.foldl_cons, List.foldl_nil, resetEndpoint_quiet, q]
  rfl

end

/-! ## What the rules answer where they run -/

/-- RESUME or SUSPEND (R222, R223): see `exec_lowPower`. -/
def lowPowerRule (on : Bool) : State → State := if on then suspendRule else resumeRule

theorem lowPowerRule_eq (on : Bool) (s : State) :
    lowPowerRule on s = State.onHw { s with dev.suspended := on } (fun c h => Hw.putLowPower c on h) := by
  cases on <;> rfl

section
variable {s : State} (r : s.runnable)
include r

theorem exec_lowPower (on : Bool) :
    exec (if on then .irqSuspend else .irqResume) s = .next (lowPowerRule on s) := by
  cases on <;> exact State.run_of_runnable r _

theorem State.runnable.lowPower (on : Bool) : (lowPowerRule on s).runnable := by
  rw [lowPowerRule_eq]
  exact r.keep rfl (Hw.putLowPower_areas on) rfl

theorem exec_irqOther : exec .irqOther s = .next (clearCausesRule s) := State.run_of_runnable r _

theorem State.runnable.clearCauses : (clearCausesRule s).runnable := r.onHw Hw.slot_areas

theorem exec_irqReset : exec .irqReset s = .next (resetRule s) := State.run_of_runnable r _

theorem exec_irqCtr : exec .irqCtr s = .next (drainRule s) := State.run_of_runnable r _

/-- An entry's RESUME and SUSPEND run where the snapshot shows them (R221). -/
theorem exec_lowPower_if (on shown : Bool) :
    (if shown then exec (if on then .irqSuspend else .irqResume) s else .next s) =
      .next (if shown then lowPowerRule on s else s) := by
  cases shown
  · rfl
  · exact exec_lowPower r on

theorem State.runnable.lowPower_if (on shown : Bool) : (if shown then lowPowerRule on s else s).runnable := by
  cases shown
  · exact r
  · exact r.lowPower on

/-! ## The entry -/

/-- An entry starts where the interrupt is enabled and ISTR shows a cause (R220). -/
theorem State.due_iff : s.due = true ↔ s.irqEnable = true ∧ s.hw.istr &&& 0xFF00 ≠ 0 := by
  simp [State.due, r.2]

theorem step_irq {rest : List Line} (h : s.lines = .irq :: rest) :
    step s = .next (State.entryIfDue { s with lines := rest }) := by
  simp only [step, h]
  exact State.env_of_ready (s := { s with lines := rest }) r.1 _

end

/-- What an entry has done before its last branch (R221): RESUME and SUSPEND where the snapshot shows them, then the
clearing of the causes. -/
def entryCauses (s : State) : State :=
  let s1 := if s.hw.istr.getLsbD 12 then lowPowerRule false s else s
  let s2 := if s.hw.istr.getLsbD 11 then lowPowerRule true s1 else s1
  clearCausesRule s2

/-- With the bus side still an entry is its causes, then the reset handler or the drain loop (R221). -/
theorem entryRule_quiet {s : State} (q : s.quiet) :
    entryRule s = if s.hw.istr.getLsbD 10 then resetRule (entryCauses s) else drainRule (entryCauses s) := by
  rw [entryRule, State.slot_quiet q]
  rfl

end Sys2Proof.Machine

/-! ## The statements -/

open Sys2Proof Sys2Proof.Machine

/-- Settles O47: both low-power rules are two writes of one CNTR bit each (`lowPower_bits`), and no slot writes CNTR. -/
theorem causeRules : Obligations.CauseRules := by
  intro s r
  refine ⟨fun on => ?_, exec_irqOther r⟩
  obtain ⟨hfsusp, hlpMode, hrest⟩ := lowPower_bits s.hw.cntr on
  rw [← Hw.putLowPower_cntr (c := s.cfg)] at hfsusp hlpMode hrest
  exact ⟨_, (exec_lowPower r on).trans (congrArg _ (lowPowerRule_eq on s)), rfl, hfsusp, hlpMode, hrest,
    fun q => Hw.putLowPower_quiet q on⟩

/-- Settles O48: the loop over the endpoints is `resetEndpoints_quiet`, and the rest of the handler is assignments. -/
theorem resetHandler : Obligations.ResetHandler := by
  intro s r
  refine ⟨_, exec_irqReset r, rfl, fun q => ?_⟩
  rw [resetRule, State.onHw, resetEndpoints_quiet q, Hw.putDaddr, Hw.slot_quiet (by exact q)]
  rfl

/-- Settles O50: an entry that is due is `entryRule_quiet`, whose parts each run where the one before it did. -/
theorem entrySequence : Obligations.EntrySequence := by
  intro s rest r hlines s0
  have r0 : s0.runnable := r
  have hstep : step s = .next s0.entryIfDue := step_irq r hlines
  constructor
  · intro hnot
    have hdue : ¬s0.due = true := by
      rw [State.due_iff r0]
      rintro ⟨henable, hpending⟩
      obtain hdisabled | hnone := hnot
      · exact absurd (henable.symm.trans hdisabled) (by decide)
      · exact hpending hnone
    rw [hstep, State.entryIfDue, if_neg hdue]
  · intro q henable hpending
    have hdue : s0.due = true := (State.due_iff r0).mpr ⟨henable, hpending⟩
    have r1 := r0.lowPower_if false (s0.hw.istr.getLsbD 12)
    have r2 := r1.lowPower_if true (s0.hw.istr.getLsbD 11)
    have r3 := r2.clearCauses
    refine ⟨_, _, _, exec_lowPower_if r0 false _, exec_lowPower_if r1 true _, exec_irqOther r2, ?_⟩
    rw [hstep, State.entryIfDue, if_pos hdue, entryRule_quiet (s := s0) q, exec_irqReset r3, exec_irqCtr r3,
      ← apply_ite Host.Outcome.next]
    rfl

end

section
/-! SUPPORT. What the handlers of completions leave alone with the bus side still (spec/44_interrupt_dispatcher.md R226
to R232): completion flags, buffer areas and the schedule, and every handler but that of a SETUP also the address. -/

namespace Sys2Proof.Machine

/-! ## The two frames -/

/-- `h'` shows the completion flags of `h`, has its buffer areas, and as many moves scheduled. -/
structure Hw.KeepsFlags (h h' : Hw) : Prop where
  areas : h.SameAreas h'
  between : h'.between = h.between
  flags : ∀ e d, eprFlag (h'.epr.get e) d = eprFlag (h.epr.get e) d

/-- What the drain loop needs of a handler that leads from `s` to `t`. -/
structure State.KeepsFlags (s t : State) : Prop where
  cfg : t.cfg = s.cfg
  hw : s.hw.KeepsFlags t.hw

/-- As `State.KeepsFlags`; and `DADDR` and the device state are those of `s`. -/
structure State.KeepsAddress (s t : State) : Prop extends State.KeepsFlags s t where
  daddr : t.hw.daddr = s.hw.daddr
  dev : t.dev = s.dev

theorem Hw.KeepsFlags.refl (h : Hw) : h.KeepsFlags h := ⟨.refl h, rfl, fun _ _ => rfl⟩

theorem Hw.KeepsFlags.trans {h g k : Hw} (a : h.KeepsFlags g) (b : g.KeepsFlags k) : h.KeepsFlags k :=
  ⟨a.areas.trans b.areas, b.between.trans a.between, fun e d => (b.flags e d).trans (a.flags e d)⟩

section
variable {s t u : State}

theorem State.KeepsFlags.of_eq (hcfg : t.cfg = s.cfg) (hhw : t.hw = s.hw) : s.KeepsFlags t :=
  ⟨hcfg, hhw ▸ .refl _⟩

theorem State.KeepsFlags.trans (a : s.KeepsFlags t) (b : t.KeepsFlags u) : s.KeepsFlags u :=
  ⟨b.cfg.trans a.cfg, a.hw.trans b.hw⟩

theorem State.KeepsFlags.quiet (a : s.KeepsFlags t) (q : s.quiet) : t.quiet := a.hw.between.trans q

theorem State.KeepsAddress.of_eq (hcfg : t.cfg = s.cfg) (hhw : t.hw = s.hw) (hdev : t.dev = s.dev) :
    s.KeepsAddress t :=
  ⟨.of_eq hcfg hhw, hhw ▸ rfl, hdev⟩

theorem State.KeepsAddress.trans (a : s.KeepsAddress t) (b : t.KeepsAddress u) : s.KeepsAddress u :=
  ⟨a.toKeepsFlags.trans b.toKeepsFlags, b.daddr.trans a.daddr, b.dev.trans a.dev⟩

theorem State.KeepsAddress.enter (a : s.KeepsAddress t) (x : CtlState) : s.KeepsAddress (t.enter x) :=
  a.trans (.of_eq rfl rfl rfl)

end

/-! ## Shared operations -/

theorem State.keepsAddress_flashErase (s : State) (a : Addr32) : s.KeepsAddress (s.flashErase a) := by
  rw [State.flashErase]
  split <;> exact .of_eq rfl rfl rfl

theorem State.keepsAddress_flashWrite (s : State) (a : Addr32) (b : List Byte) (k : Nat) :
    s.KeepsAddress (s.flashWrite a b k) := by
  rw [State.flashWrite]
  split <;> exact .of_eq rfl rfl rfl

/-- A change of status shows no other completion flag, whichever register is looked at. -/
theorem eprFlag_set_withStatus (p : PerEp Word16) (e f : Ep) (d d' : Dir) (t : Stat) :
    eprFlag ((p.set e (withStatus (p.get e) d t)).get f) d' = eprFlag (p.get f) d' := by
  rw [PerEp.get_set]
  split
  · subst f
    exact eprFlag_withStatus _ d d' t
  · rfl

theorem Hw.keepsFlags_setTo (h : Hw) (e : Ep) (d : Dir) (t : Stat) : h.KeepsFlags (h.setTo e d t) :=
  ⟨⟨rfl, rfl⟩, rfl, fun f d' => eprFlag_set_withStatus h.epr e f d d' t⟩

theorem Hw.keepsFlags_afterWrite (h : Hw) (e : Ep) (b : List Byte) : h.KeepsFlags (h.afterWrite e b) :=
  ⟨⟨rfl, rfl⟩, rfl, fun f d' => eprFlag_set_withStatus h.epr e f .tx d' .valid⟩

section
variable {s : State} (q : s.quiet)
include q

theorem State.keepsAddress_setStatus (e : Ep) (d : Dir) (t : Stat) :
    s.KeepsAddress (s.onHw (fun c h => Hw.setStatus c e d t h)) := by
  rw [State.onHw, Hw.setStatus_quiet q]
  exact ⟨⟨rfl, Hw.keepsFlags_setTo _ e d t⟩, rfl, rfl⟩

theorem State.keepsAddress_send (e : Ep) (src : List Byte) (count : Nat) : s.KeepsAddress (s.send e src count) := by
  rw [State.send_quiet q]
  exact ⟨⟨rfl, Hw.keepsFlags_afterWrite _ e _⟩, rfl, rfl⟩

theorem State.keepsAddress_readInto (e : Ep) (dest : Buffer) (m : Nat) : s.KeepsAddress (s.readInto e dest m) := by
  have hread : s.KeepsAddress { s with hw := (Hw.read s.cfg e m s.hw).2 } := by
    rw [Hw.read_quiet q]
    split
    · exact ⟨⟨rfl, Hw.keepsFlags_setTo _ .ctrl .rx .valid⟩, rfl, rfl⟩
    · exact .of_eq rfl rfl rfl
  refine hread.trans ?_
  cases dest <;> exact .of_eq rfl rfl rfl

theorem State.keepsAddress_halted (on : Bool) (e : Ep) : s.KeepsAddress (halted on e s) := by
  have htwice : ∀ rx tx : Stat, s.KeepsAddress { s with hw := (s.hw.setTo e .rx rx).setTo e .tx tx } := fun _ _ =>
    ⟨⟨rfl, (Hw.keepsFlags_setTo ..).trans (Hw.keepsFlags_setTo ..)⟩, rfl, rfl⟩
  cases on
  · rw [halted, State.onHw, if_neg (by decide), Hw.unstall_quiet q]
    exact htwice _ _
  · rw [halted, State.onHw, if_pos rfl, Hw.stall_quiet q]
    exact htwice _ _

/-! ## Control transfers -/

theorem keepsAddress_ackInto (x : CtlState) : s.KeepsAddress (ackInto x s) :=
  (State.keepsAddress_send q .ctrl [] 0).enter x

theorem keepsAddress_rejectRule : s.KeepsAddress (rejectRule s) :=
  (State.keepsAddress_setStatus q .ctrl .rx .stall).enter .idle

theorem keepsAddress_transmitRule : s.KeepsAddress (transmitRule s).2 := by
  by_cases hdir : s.ctl.dirIn = true
  · obtain ⟨h', heq, hwrite⟩ := transmitRule_of_dirIn s hdir
    rw [heq, hwrite q]
    exact ⟨⟨rfl, Hw.keepsFlags_afterWrite _ .ctrl _⟩, rfl, rfl⟩
  · rw [transmitRule, if_neg hdir]
    exact .of_eq rfl rfl rfl

theorem keepsAddress_startInRule (src : XferSrc) (n : Word16) : s.KeepsAddress (startInRule src n s) := by
  have hstart : s.KeepsAddress { s with
      ctl.xferSrc := src, ctl.xferOff := 0, ctl.xferRem := min16 n s.ctl.wLength } := .of_eq rfl rfl rfl
  exact (hstart.trans (keepsAddress_transmitRule (by exact q))).enter _

theorem keepsAddress_replyStatus (b : Byte) : s.KeepsAddress (replyStatus b s) := by
  have hreply : s.KeepsAddress { s with ctl.statusBuf := [b, 0] } := .of_eq rfl rfl rfl
  exact hreply.trans (keepsAddress_startInRule (by exact q) .status 2)

theorem keepsAddress_getStatusRule : s.KeepsAddress (getStatusRule s) := by
  rw [getStatusRule, State.slot_quiet q]
  split
  · exact keepsAddress_replyStatus q _
  · split
    · exact keepsAddress_replyStatus q _
    · split
      · split
        · exact keepsAddress_replyStatus q _
        · exact keepsAddress_rejectRule q
      · exact keepsAddress_rejectRule q

theorem keepsAddress_featureRule (on : Bool) : s.KeepsAddress (featureRule on s) := by
  cases h : s.ctl.feature with
  | remoteWakeup =>
    rw [featureRule_remoteWakeup on h]
    have hset : s.KeepsAddress { s with ctl.remoteWakeup := on } := .of_eq rfl rfl rfl
    exact hset.trans (keepsAddress_ackInto (by exact q) .status)
  | halt e =>
    rw [featureRule_halt on h]
    have hhalted := State.keepsAddress_halted q on e
    exact hhalted.trans (keepsAddress_ackInto (hhalted.quiet q) .status)
  | unknown =>
    rw [featureRule_unknown on h]
    exact keepsAddress_rejectRule q

theorem keepsAddress_getDescriptorStringRule : s.KeepsAddress (getDescriptorStringRule s) := by
  rw [getDescriptorStringRule]
  split
  · exact keepsAddress_startInRule q _ _
  · exact keepsAddress_rejectRule q

/-- An acknowledgement of a request that has changed neither the registers nor the parameters. -/
theorem keepsFlags_ackInto_of_eq {u : State} (hcfg : u.cfg = s.cfg) (hhw : u.hw = s.hw) (x : CtlState) :
    s.KeepsFlags (ackInto x u) :=
  have hkeeps := State.KeepsFlags.of_eq hcfg hhw
  hkeeps.trans (keepsAddress_ackInto (hkeeps.quiet q) x).toKeepsFlags

theorem keepsFlags_setConfigurationRule : s.KeepsFlags (setConfigurationRule s) := by
  by_cases h : s.ctl.wValueL = 0
  · rw [setConfigurationRule_zero h]
    exact keepsFlags_ackInto_of_eq q (by rfl) (by rfl) .status
  · rw [setConfigurationRule_nonzero h]
    exact keepsFlags_ackInto_of_eq q (by rfl) (by rfl) .status

/-- No request touches a completion flag (42_control R142, R147, R168). -/
theorem SetupRow.rule_keepsFlags (row : SetupRow) : s.KeepsFlags (SetupRow.rule row s) := by
  cases row
  case getStatus => exact (keepsAddress_getStatusRule q).toKeepsFlags
  case clearFeature => exact (keepsAddress_featureRule q false).toKeepsFlags
  case setFeature => exact (keepsAddress_featureRule q true).toKeepsFlags
  case setAddress => exact keepsFlags_ackInto_of_eq q (by rfl) (by rfl) .status
  case getDescriptorDevice => exact (keepsAddress_startInRule q _ _).toKeepsFlags
  case getDescriptorConfiguration => exact (keepsAddress_startInRule q _ _).toKeepsFlags
  case getDescriptorString => exact (keepsAddress_getDescriptorStringRule q).toKeepsFlags
  case getConfiguration => exact (keepsAddress_startInRule q _ _).toKeepsFlags
  case setConfiguration => exact keepsFlags_setConfigurationRule q
  case getInterface => exact (keepsAddress_startInRule q _ _).toKeepsFlags
  case setInterface => exact (keepsAddress_ackInto q _).toKeepsFlags
  case setLineCoding => exact (keepsAddress_ackInto q _).toKeepsFlags
  case getLineCoding => exact (keepsAddress_startInRule q _ _).toKeepsFlags
  case setControlLineState => exact (keepsAddress_ackInto q _).toKeepsFlags
  case sendBreak => exact (keepsAddress_ackInto q _).toKeepsFlags
  case classOther => exact keepsFlags_ackInto_of_eq q (by rfl) (by rfl) .status
  all_goals exact (keepsAddress_rejectRule q).toKeepsFlags

theorem keepsFlags_ctrlSetupRule : s.KeepsFlags (ctrlSetupRule s) := by
  have hread := State.keepsAddress_readInto q .ctrl .setup 8
  rw [ctrlSetupRule_eq]
  exact hread.toKeepsFlags.trans (SetupRow.rule_keepsFlags (hread.quiet q) _)

theorem keepsAddress_ctrlInRule : s.KeepsAddress (ctrlInRule s) := by
  rw [ctrlInRule]
  split
  · exact .of_eq rfl rfl rfl
  · exact (keepsAddress_transmitRule q).enter _

theorem keepsAddress_ctrlOutRule : s.KeepsAddress (ctrlOutRule s) := by
  by_cases h20 : s.ctl.reqType = 1 ∧ s.ctl.request = 0x20
  · rw [ctrlOutRule_lineCoding h20]
    exact (State.keepsAddress_readInto q .ctrl .lc 7).enter _
  · by_cases h22 : s.ctl.reqType = 1 ∧ s.ctl.request = 0x22
    · rw [ctrlOutRule_lineState h22]
      have hset : s.KeepsAddress { s with
          cls.dtr := s.ctl.wValueH.getLsbD 0, cls.rts := s.ctl.wValueH.getLsbD 1 } := .of_eq rfl rfl rfl
      exact (hset.trans (State.keepsAddress_setStatus (by exact q) .ctrl .rx .valid)).enter _
    · rw [ctrlOutRule_discard h20 h22]
      exact (State.keepsAddress_setStatus q .ctrl .rx .valid).enter _

/-! ## The bulk protocol -/

theorem keepsAddress_validateRule (want : Byte) : s.KeepsAddress (validateRule want s).2 := by
  rw [validateRule, State.slot_quiet q]
  split
  · exact .of_eq rfl rfl rfl
  · have hread := State.keepsAddress_readInto q .data .cmdBuf 8
    simp only
    split
    · exact hread
    · split <;> exact hread

theorem keepsAddress_headerPacket (want : Byte) {accept : State → State}
    (haccept : ∀ t : State, t.quiet → t.KeepsAddress (accept t)) : s.KeepsAddress (headerPacket want accept s) := by
  have hvalidate := keepsAddress_validateRule q want
  rw [headerPacket]
  split
  · exact hvalidate.trans (haccept _ (hvalidate.quiet q))
  · exact hvalidate.trans (State.keepsAddress_send (hvalidate.quiet q) .data _ 1)

theorem keepsAddress_sizeHeaderRule : s.KeepsAddress (sizeHeaderRule s) := by
  have hecho := State.keepsAddress_send q .data s.cmdBuf 8
  rw [sizeHeaderRule_eq]
  exact ⟨⟨rfl, hecho.hw⟩, hecho.daddr, rfl⟩

theorem keepsAddress_ackPageHeader : s.KeepsAddress (ackPageHeader s) := by
  rw [ackPageHeader]
  split
  · exact .of_eq rfl rfl rfl
  · exact State.keepsAddress_send q .data s.cmdBuf 8
  · exact State.keepsAddress_send q .data _ 1

theorem keepsAddress_pageHeaderRule : s.KeepsAddress (pageHeaderRule s) := by
  have hset : s.KeepsAddress { s with
      sess.lastCmd := cmdRecordOf s.cmdBuf
      sess.expectedLen := (cmdRecordOf s.cmdBuf).dataLen
      sess.pageOffset := 0 } := .of_eq rfl rfl rfl
  have herase := hset.trans (State.keepsAddress_flashErase _ (pageBase s.cfg s.sess.curPage))
  rw [pageHeaderRule]
  split
  · exact herase
  · have haccepted := herase.trans (u := { State.flashErase _ _ with
      sess.headerAccepted := true, sess.blState := .receivingPage }) (.of_eq rfl rfl rfl)
    exact haccepted.trans (keepsAddress_ackPageHeader (haccepted.quiet q))

theorem keepsAddress_pageDataRule : s.KeepsAddress (pageDataRule s) := by
  have hread := State.keepsAddress_readInto q .data .scratch (scratchSize s.cfg)
  rw [pageDataRule]
  split
  · exact hread.trans (State.keepsAddress_flashWrite _ _ _ _)
  · exact (hread.trans (State.keepsAddress_flashWrite _ _ _ _)).trans (.of_eq rfl rfl rfl)

theorem keepsAddress_bulkCase : s.KeepsAddress (bulkCase s) := by
  rw [bulkCase]
  split
  · exact keepsAddress_headerPacket q 0x20 (fun _ => keepsAddress_sizeHeaderRule)
  · exact keepsAddress_headerPacket q 0x21 (fun _ => keepsAddress_pageHeaderRule)
  · exact keepsAddress_pageDataRule q
  · exact .of_eq rfl rfl rfl

theorem keepsAddress_bulkOutRule : s.KeepsAddress (bulkOutRule s) := by
  have hcase := keepsAddress_bulkCase q
  rw [bulkOutRule]
  split
  · exact hcase
  · exact hcase.trans (State.keepsAddress_setStatus (hcase.quiet q) .data .rx .valid)

/-! ## The handlers -/

/-- Only the handling of a SETUP touches the device state, and no handler writes `DADDR` (R228, R229). -/
theorem EventRow.rule_keepsAddress {row : EventRow} (h : row ≠ .ctrlSetup) : s.KeepsAddress (EventRow.rule row s) := by
  cases row with
  | ctrlSetup => exact absurd rfl h
  | ctrlOut => exact keepsAddress_ctrlOutRule q
  | ctrlIn => exact keepsAddress_ctrlInRule q
  | bulkOut => exact keepsAddress_bulkOutRule q
  | bulkIn => exact .of_eq rfl rfl rfl
  | commOut => exact .of_eq rfl rfl rfl
  | commIn => exact .of_eq rfl rfl rfl

theorem EventRow.rule_keepsFlags (row : EventRow) : s.KeepsFlags (EventRow.rule row s) := by
  by_cases h : row = .ctrlSetup
  · subst h
    exact keepsFlags_ctrlSetupRule q
  · exact (EventRow.rule_keepsAddress q h).toKeepsFlags

theorem keepsFlags_applyAddressRule : s.KeepsFlags (applyAddressRule s) := by
  rw [applyAddressRule, State.onHw, Hw.putDaddr, Hw.slot_quiet q]
  exact ⟨rfl, ⟨rfl, rfl⟩, rfl, fun _ _ => rfl⟩

theorem keepsFlags_applyIfPending (d : Dir) : s.KeepsFlags (applyIfPending d s) := by
  rw [applyIfPending]
  split
  · exact keepsFlags_applyAddressRule q
  · exact .of_eq rfl rfl

end

end Sys2Proof.Machine
end

section
/-! SUPPORT. The drain loop (spec/44_interrupt_dispatcher.md R226 to R229, R232): which completion a turn serves, and
that with the bus side still the loop has fuel for every completion; and the statements about it. -/

namespace Sys2Proof.Machine

/-! ## The endpoint with the next completion -/

theorem eprPending_iff {r : Word16} : eprPending r = true ↔ ∃ d, eprFlag r d = true := by
  rw [eprPending, Bool.or_eq_true]
  constructor
  · rintro (h | h)
    exacts [⟨.rx, h⟩, ⟨.tx, h⟩]
  · rintro ⟨d, h⟩
    cases d
    exacts [.inl h, .inr h]

theorem eprPending_eq_false {r : Word16} (h : ∀ d, eprFlag r d = false) : eprPending r = false := by
  rw [eprPending, h .rx, h .tx]
  rfl

section
variable {p : PerEp Word16}

theorem firstPending_eq_none (h : ∀ e, eprPending (p.get e) = false) : firstPending p = none := by
  have hctrl := h .ctrl
  have hdata := h .data
  have hcomm := h .comm
  simp only [PerEp.get] at hctrl hdata hcomm
  simp [firstPending, hctrl, hdata, hcomm]

theorem firstPending_eq_some {e : Ep} (h : eprPending (p.get e) = true)
    (hleast : ∀ f : Ep, f.num < e.num → eprPending (p.get f) = false) : firstPending p = some e := by
  have hnot : ∀ f : Ep, f.num < e.num → ¬eprPending (p.get f) = true := fun f hf =>
    Bool.eq_false_iff.mp (hleast f hf)
  cases e with
  | ctrl => exact if_pos h
  | data => exact (if_neg (hnot .ctrl (by decide))).trans (if_pos h)
  | comm => exact ((if_neg (hnot .ctrl (by decide))).trans (if_neg (hnot .data (by decide)))).trans (if_pos h)

/-- No endpoint has a completion, or one of them is the least that has. -/
theorem none_or_least_pending (p : PerEp Word16) :
    (∀ e, eprPending (p.get e) = false) ∨
      ∃ e, eprPending (p.get e) = true ∧ ∀ f : Ep, f.num < e.num → eprPending (p.get f) = false := by
  cases hctrl : eprPending (p.get .ctrl) with
  | true => exact .inr ⟨.ctrl, hctrl, fun f hf => absurd hf (Nat.not_lt_zero _)⟩
  | false =>
    cases hdata : eprPending (p.get .data) with
    | true =>
      refine .inr ⟨.data, hdata, fun f hf => ?_⟩
      cases f
      exacts [hctrl, absurd hf (by decide), absurd hf (by decide)]
    | false =>
      cases hcomm : eprPending (p.get .comm) with
      | true =>
        refine .inr ⟨.comm, hcomm, fun f hf => ?_⟩
        cases f
        exacts [hctrl, hdata, absurd hf (by decide)]
      | false =>
        refine .inl fun e => ?_
        cases e
        exacts [hctrl, hdata, hcomm]

end

/-! ## The fields of ISTR -/

/-- The views of completions stand outside the stored causes (10_state R14). -/
theorem getLsbD_completionView {p : PerEp Word16} {i : Nat} (hi : i < 7) :
    (completionView p).getLsbD (8 + i) = false := by
  rw [completionView]
  cases firstPending p with
  | none => exact BitVec.getLsbD_zero
  | some e =>
    have hdir : ∀ b : Bool, (if b then 0x0010#16 else 0).getLsbD (8 + i) = false := by
      intro b
      interval_cases i <;> cases b <;> rfl
    simp only [BitVec.getLsbD_or, hdir]
    interval_cases i <;> cases e <;> rfl

/-- Bits 14:8 of ISTR are the stored causes (10_state R14). -/
theorem Hw.getLsbD_istr (h : Hw) {i : Nat} (hi : i < 7) : h.istr.getLsbD (8 + i) = h.causes.getLsbD i := by
  rw [Hw.istr, BitVec.getLsbD_or, getLsbD_completionView hi]
  simp [show 8 + i < 16 by omega]

/-! ## The next completion -/

/-- The completion that is served next (R226): of the least endpoint with a flag, receive before transmit. -/
structure Hw.NextCompletion (h : Hw) (e : Ep) (d : Dir) : Prop where
  flag : eprFlag (h.epr.get e) d = true
  least : ∀ f : Ep, f.num < e.num → ∀ d', eprFlag (h.epr.get f) d' = false
  receiveFirst : d = .tx → eprFlag (h.epr.get e) .rx = false

section
variable {h : Hw}

theorem Hw.istr_ctr_eq_false (hno : ∀ e d, eprFlag (h.epr.get e) d = false) : h.istr.getLsbD 15 = false := by
  rw [Hw.istr, completionView, firstPending_eq_none fun e => eprPending_eq_false (hno e)]
  simp

/-- `CTR` shows that there is a completion to serve (10_state R14). -/
theorem Hw.exists_nextCompletion (hctr : h.istr.getLsbD 15 = true) : ∃ e d, h.NextCompletion e d := by
  obtain hnone | ⟨e, hpending, hleast⟩ := none_or_least_pending h.epr
  · rw [Hw.istr, completionView, firstPending_eq_none hnone] at hctr
    simp at hctr
  · have hflags : ∀ f : Ep, f.num < e.num → ∀ d', eprFlag (h.epr.get f) d' = false := fun f hf d' => by
      by_contra hflag
      exact Bool.eq_false_iff.mp (hleast f hf) (eprPending_iff.mpr ⟨d', Bool.eq_true_of_not_eq_false hflag⟩)
    obtain ⟨d, hflag⟩ := eprPending_iff.mp hpending
    cases hrx : eprFlag (h.epr.get e) .rx with
    | true => exact ⟨e, .rx, hrx, hflags, nofun⟩
    | false =>
      cases d with
      | rx => exact absurd (hrx.symm.trans hflag) (by decide)
      | tx => exact ⟨e, .tx, hflag, hflags, fun _ => hrx⟩

/-- A completion that is the only one is the next one. -/
theorem Hw.nextCompletion_of_only {e : Ep} {d : Dir}
    (honly : ∀ f d', eprFlag (h.epr.get f) d' = true ↔ f = e ∧ d' = d) : h.NextCompletion e d := by
  have hother : ∀ f d', ¬(f = e ∧ d' = d) → eprFlag (h.epr.get f) d' = false := fun f d' hne =>
    Bool.eq_false_iff.mpr (mt (honly f d').mp hne)
  constructor
  · exact (honly e d).mpr ⟨rfl, rfl⟩
  · intro f hf d'
    refine hother f d' ?_
    rintro ⟨rfl, -⟩
    exact Nat.lt_irrefl _ hf
  · rintro rfl
    exact hother e .rx (by simp)

variable {e : Ep} {d : Dir} (next : h.NextCompletion e d)
include next

/-- ISTR shows the next completion (10_state R14). -/
theorem Hw.NextCompletion.istr_eq :
    h.istr = 0x8000#16 ||| (if d = .rx then 0x0010#16 else 0) ||| BitVec.ofNat 16 e.num |||
      (h.causes.setWidth 16 <<< 8) := by
  have hfirst : firstPending h.epr = some e :=
    firstPending_eq_some (eprPending_iff.mpr ⟨d, next.flag⟩) fun f hf => eprPending_eq_false (next.least f hf)
  rw [Hw.istr, completionView, hfirst]
  cases d with
  | rx => simp [next.flag]
  | tx => simp [next.receiveFirst rfl]

theorem Hw.NextCompletion.istr_ctr : h.istr.getLsbD 15 = true := by
  rw [next.istr_eq]
  simp

/-- A completion is a pending cause (R220). -/
theorem Hw.NextCompletion.istr_ne_zero : h.istr &&& 0xFF00 ≠ 0 := by
  intro hzero
  have hbit := congrArg (fun v : Word16 => v.getLsbD 15) hzero
  simp only [BitVec.getLsbD_and, next.istr_ctr] at hbit
  exact absurd hbit (by decide)

theorem Hw.NextCompletion.istr_dir : h.istr.getLsbD 4 = (d == .rx) := by
  rw [next.istr_eq]
  cases e <;> cases d <;> simp [Ep.num]

theorem Hw.NextCompletion.istr_epId : h.istr.extractLsb' 0 4 = BitVec.ofNat 4 e.num := by
  rw [next.istr_eq]
  apply BitVec.eq_of_getLsbD_eq
  intro i hi
  interval_cases i <;> cases e <;> cases d <;> simp [Ep.num]

end

/-! ## The handler of a completion -/

/-- Every completion has its handler (30_encoding R92). -/
theorem exists_eventRow (e : Ep) (d : Dir) (isSetup : Bool) :
    ∃ row, decodeEvent (eventOf (BitVec.ofNat 4 e.num) (d == .rx) isSetup) = some row := by
  cases e <;> cases d <;> cases isSetup <;> exact ⟨_, rfl⟩

/-- A SETUP is a host-to-device completion of endpoint 0 (30_encoding R92). -/
theorem eventRow_ne_ctrlSetup {e : Ep} {d : Dir} {isSetup : Bool} {row : EventRow}
    (hrow : decodeEvent (eventOf (BitVec.ofNat 4 e.num) (d == .rx) isSetup) = some row) (h : d = .tx ∨ e ≠ .ctrl) :
    row ≠ .ctrlSetup := by
  rintro rfl
  revert h hrow
  cases e <;> cases d <;> cases isSetup <;> decide

theorem decode_event {bl : BlState} {evt : BitVec 6} {row : EventRow} (h : decodeEvent evt = some row) :
    decode bl (.event evt) = .instr row.instr := by
  rw [decode, h]

section
variable {s : State} (r : s.runnable)
include r

theorem exec_eventRow (row : EventRow) : exec row.instr s = .next (EventRow.rule row s) := by
  cases row <;> exact State.run_of_runnable r _

theorem exec_applyAddress : exec .applyAddress s = .next (applyAddressRule s) := State.run_of_runnable r _

/-- A pending address is applied before a device-to-host handler (R228). -/
theorem exec_applyIfPending (d : Dir) :
    (if d = .tx ∧ s.dev.addrPending = true then exec .applyAddress s else .next s) = .next (applyIfPending d s) := by
  rw [applyIfPending]
  split
  · exact exec_applyAddress r
  · rfl

theorem State.KeepsFlags.runnable {t : State} (k : s.KeepsFlags t) (hfatal : t.fatal = s.fatal) : t.runnable :=
  r.keep k.cfg k.hw.areas hfatal

end

theorem applyIfPending_fatal (d : Dir) (s : State) : (applyIfPending d s).fatal = s.fatal := by
  rw [applyIfPending]
  split <;> rfl

theorem routeCompletion_of_row {e : Ep} {d : Dir} {isSetup : Bool} {row : EventRow}
    (hrow : decodeEvent (eventOf (BitVec.ofNat 4 e.num) (d == .rx) isSetup) = some row) (s : State) :
    routeCompletion e d isSetup s = EventRow.rule row (applyIfPending d s) := by
  rw [routeCompletion, hrow]

theorem keepsFlags_routeCompletion {s : State} (q : s.quiet) (e : Ep) (d : Dir) (isSetup : Bool) :
    s.KeepsFlags (routeCompletion e d isSetup s) := by
  obtain ⟨row, hrow⟩ := exists_eventRow e d isSetup
  have happly := keepsFlags_applyIfPending q d
  rw [routeCompletion_of_row hrow]
  exact happly.trans (EventRow.rule_keepsFlags (happly.quiet q) row)

/-! ## One turn -/

/-- The state in which a completion's handler runs: its flag is cleared (R226). See `exec_clearCtr`. -/
def completionCleared (e : Ep) (d : Dir) (s : State) : State := s.onHw (fun c h => Hw.clearCtr c e d h)

/-- A turn that serves a completion (R226): SETUP is sampled before the flag is cleared. See `drainTurn_of_next`. -/
def serveCompletion (e : Ep) (d : Dir) (s : State) : State :=
  routeCompletion e d (eprSetup (s.hw.epr.get e)) (completionCleared e d s)

section
variable {s : State}

theorem State.runnable.completionCleared (r : s.runnable) (e : Ep) (d : Dir) : (completionCleared e d s).runnable :=
  r.onHw (Hw.clearCtr_areas e d)

variable (q : s.quiet)
include q

theorem completionCleared_eq (e : Ep) (d : Dir) :
    completionCleared e d s = { s with
      hw := { s.hw with epr := s.hw.epr.set e (eprAfterClearCtr s.cfg.ctrClearBoth (s.hw.epr.get e) d) } } := by
  rw [completionCleared, State.onHw, Hw.clearCtr_quiet q]
  rfl

theorem completionCleared_quiet (e : Ep) (d : Dir) : (completionCleared e d s).quiet := by
  rw [completionCleared_eq q]
  exact q

theorem eprFlag_completionCleared_self (e : Ep) (d : Dir) :
    eprFlag ((completionCleared e d s).hw.epr.get e) d = false := by
  simp [completionCleared_eq q]

/-- Clearing a completion sets no flag. -/
theorem eprFlag_of_completionCleared {e f : Ep} {d d' : Dir}
    (h : eprFlag ((completionCleared e d s).hw.epr.get f) d' = true) : eprFlag (s.hw.epr.get f) d' = true := by
  by_cases hd : d' = d
  · subst hd
    by_cases hf : f = e
    · subst hf
      rw [eprFlag_completionCleared_self q] at h
      contradiction
    · rwa [completionCleared_eq q, PerEp.get_set_ne _ _ hf] at h
  · by_cases hf : f = e
    · subst hf
      rw [completionCleared_eq q, PerEp.get_set_self, eprFlag_eprAfterClearCtr_other _ _ hd, Bool.and_eq_true] at h
      exact h.1
    · rwa [completionCleared_eq q, PerEp.get_set_ne _ _ hf] at h

theorem serveCompletion_quiet (e : Ep) (d : Dir) : (serveCompletion e d s).quiet :=
  (keepsFlags_routeCompletion (completionCleared_quiet q e d) ..).quiet (completionCleared_quiet q e d)

/-- After its turn a completion's flag is cleared. -/
theorem eprFlag_serveCompletion_self (e : Ep) (d : Dir) :
    eprFlag ((serveCompletion e d s).hw.epr.get e) d = false :=
  ((keepsFlags_routeCompletion (completionCleared_quiet q e d) ..).hw.flags e d).trans
    (eprFlag_completionCleared_self q e d)

/-- A turn sets no flag: only the bus side does (R232). -/
theorem eprFlag_of_serveCompletion {e f : Ep} {d d' : Dir}
    (h : eprFlag ((serveCompletion e d s).hw.epr.get f) d' = true) : eprFlag (s.hw.epr.get f) d' = true := by
  rw [serveCompletion, (keepsFlags_routeCompletion (completionCleared_quiet q e d) ..).hw.flags f d'] at h
  exact eprFlag_of_completionCleared q h

theorem drainTurn_of_next {e : Ep} {d : Dir} (next : s.hw.NextCompletion e d) :
    drainTurn s.hw.istr s = serveCompletion e d s := by
  have hep : epOfNum (BitVec.ofNat 4 e.num).toNat = some e := by cases e <;> rfl
  have hdir : (if (d == .rx) = true then Dir.rx else .tx) = d := by cases d <;> rfl
  simp only [drainTurn, next.istr_epId, hep, next.istr_dir, hdir, State.slot_quiet q]
  rfl

end

/-! ## The completions that are set -/

/-- The completions that an endpoint register can show. -/
def completions : Finset (Ep × Dir) :=
  {(.ctrl, .rx), (.ctrl, .tx), (.data, .rx), (.data, .tx), (.comm, .rx), (.comm, .tx)}

theorem mem_completions (e : Ep) (d : Dir) : (e, d) ∈ completions := by cases e <;> cases d <;> decide

/-- The completions whose flags are set. -/
def Hw.flagged (h : Hw) : Finset (Ep × Dir) := completions.filter fun x => eprFlag (h.epr.get x.1) x.2 = true

theorem Hw.mem_flagged {h : Hw} {e : Ep} {d : Dir} : (e, d) ∈ h.flagged ↔ eprFlag (h.epr.get e) d = true := by
  simp [Hw.flagged, mem_completions]

theorem Hw.card_flagged_le (h : Hw) : h.flagged.card ≤ 6 := Finset.card_filter_le completions _

/-- A turn leaves fewer completions to serve (R232). -/
theorem card_flagged_serveCompletion_lt {s : State} (q : s.quiet) {e : Ep} {d : Dir}
    (hflag : eprFlag (s.hw.epr.get e) d = true) : (serveCompletion e d s).hw.flagged.card < s.hw.flagged.card := by
  have hsubset : (serveCompletion e d s).hw.flagged ⊆ s.hw.flagged := fun _ hx =>
    Hw.mem_flagged.mpr (eprFlag_of_serveCompletion q (Hw.mem_flagged.mp hx))
  have hserved : (e, d) ∉ (serveCompletion e d s).hw.flagged := by
    rw [Hw.mem_flagged, eprFlag_serveCompletion_self q]
    decide
  exact Finset.card_lt_card ((Finset.ssubset_iff_of_subset hsubset).mpr ⟨_, Hw.mem_flagged.mpr hflag, hserved⟩)

/-! ## The loop -/

section
variable {s : State} (q : s.quiet)
include q

theorem drainLoop_of_done (h : s.hw.istr.getLsbD 15 = false) (n : Nat) : drainLoop n s = s := by
  cases n with
  | zero => rfl
  | succ n => simp only [drainLoop, State.slot_quiet q, h, Bool.false_eq_true, if_false]

theorem drainLoop_of_next {e : Ep} {d : Dir} (next : s.hw.NextCompletion e d) (n : Nat) :
    drainLoop (n + 1) s =
      if (serveCompletion e d s).fatal = none then drainLoop n (serveCompletion e d s) else serveCompletion e d s := by
  simp only [drainLoop, State.slot_quiet q, next.istr_ctr, if_true, drainTurn_of_next q next]
  cases (serveCompletion e d s).fatal <;> simp

/-- Fuel for every completion that is set is enough: more of it changes nothing (R232, log 16). -/
theorem drainLoop_succ_of_card_le {n : Nat} (hn : s.hw.flagged.card ≤ n) : drainLoop (n + 1) s = drainLoop n s := by
  induction n generalizing s with
  | zero =>
    have hnone : s.hw.flagged = ∅ := Finset.card_eq_zero.mp (Nat.le_zero.mp hn)
    refine drainLoop_of_done q (Hw.istr_ctr_eq_false fun e d => ?_) 1
    rw [← Bool.not_eq_true, ← Hw.mem_flagged, hnone]
    exact Finset.notMem_empty _
  | succ n ih =>
    cases hctr : s.hw.istr.getLsbD 15 with
    | false => rw [drainLoop_of_done q hctr, drainLoop_of_done q hctr]
    | true =>
      obtain ⟨e, d, next⟩ := Hw.exists_nextCompletion hctr
      have hfewer := card_flagged_serveCompletion_lt q next.flag
      rw [drainLoop_of_next q next, drainLoop_of_next q next, ih (serveCompletion_quiet q e d) (by omega)]

theorem drainRule_eq_drainLoop : drainRule s = drainLoop 7 s := by
  have hscheduled : s.hw.scheduled = 0 := by rw [Hw.scheduled, q]; rfl
  rw [drainRule, hscheduled]

theorem drainRule_of_done (h : s.hw.istr.getLsbD 15 = false) : drainRule s = s := by
  rw [drainRule_eq_drainLoop q, drainLoop_of_done q h]

/-- The drain loop serves the next completion and goes on, unless a FlashFatal ends it (R226). -/
theorem drainRule_of_next {e : Ep} {d : Dir} (next : s.hw.NextCompletion e d) :
    drainRule s = if (serveCompletion e d s).fatal = none then drainRule (serveCompletion e d s)
      else serveCompletion e d s := by
  have qw := serveCompletion_quiet q e d
  rw [drainRule_eq_drainLoop q, drainRule_eq_drainLoop qw, drainLoop_of_next q next,
    drainLoop_succ_of_card_le qw (Hw.card_flagged_le _)]

/-- A completion that is the only one ends the drain loop. -/
theorem drainRule_of_only {e : Ep} {d : Dir} (honly : ∀ f d', eprFlag (s.hw.epr.get f) d' = true ↔ f = e ∧ d' = d) :
    drainRule s = serveCompletion e d s := by
  have hdone : ∀ f d', eprFlag ((serveCompletion e d s).hw.epr.get f) d' = false := by
    intro f d'
    by_contra hflag
    have hset := Bool.eq_true_of_not_eq_false hflag
    obtain ⟨rfl, rfl⟩ := (honly f d').mp (eprFlag_of_serveCompletion q hset)
    exact hflag (eprFlag_serveCompletion_self q f d')
  rw [drainRule_of_next q (Hw.nextCompletion_of_only honly),
    drainRule_of_done (serveCompletion_quiet q e d) (Hw.istr_ctr_eq_false hdone), ite_self]

/-! ## The address -/

/-- With no cause stored, an entry is its drain loop (R221). -/
theorem entryRule_of_noCause (h : s.hw.causes = 0) : entryRule s = drainRule s := by
  have hbit : ∀ i, i < 7 → s.hw.istr.getLsbD (8 + i) = false := fun i hi => by
    rw [Hw.getLsbD_istr _ hi, h]
    exact BitVec.getLsbD_zero
  have hreset : s.hw.istr.getLsbD 10 = false := hbit 2 (by decide)
  have hsuspend : s.hw.istr.getLsbD 11 = false := hbit 3 (by decide)
  have hresume : s.hw.istr.getLsbD 12 = false := hbit 4 (by decide)
  have hclear : clearCausesRule s = s := by
    rw [clearCausesRule, State.onHw, Hw.slot_quiet q, ← h]
  have hcauses : entryCauses s = s := by
    simp only [entryCauses, hsuspend, hresume, Bool.false_eq_true, if_false, hclear]
  simp only [entryRule_quiet q, hcauses, hreset, Bool.false_eq_true, if_false]

/-- A device-to-host completion applies a pending address (R228, R229). -/
theorem serveCompletion_appliesAddress (e : Ep) (hpending : s.dev.addrPending = true) :
    (serveCompletion e .tx s).hw.daddr = 0x80 ||| s.dev.pendingAddr.setWidth 8 ∧
      (serveCompletion e .tx s).dev.addrPending = false := by
  obtain ⟨row, hrow⟩ := exists_eventRow e .tx (eprSetup (s.hw.epr.get e))
  have qu := completionCleared_quiet q e .tx
  have happly : applyIfPending .tx (completionCleared e .tx s) = applyAddressRule (completionCleared e .tx s) :=
    if_pos ⟨rfl, hpending⟩
  have hkeeps := EventRow.rule_keepsAddress ((keepsFlags_applyAddressRule qu).quiet qu)
    (eventRow_ne_ctrlSetup hrow (.inl rfl))
  rw [serveCompletion, routeCompletion_of_row hrow, happly]
  exact ⟨hkeeps.daddr, congrArg DeviceState.addrPending hkeeps.dev⟩

/-- A host-to-device completion of another endpoint than 0 leaves the address alone. -/
theorem keepsAddress_serveCompletion {e : Ep} (he : e ≠ .ctrl) :
    (serveCompletion e .rx s).hw.daddr = s.hw.daddr ∧ (serveCompletion e .rx s).dev = s.dev := by
  obtain ⟨row, hrow⟩ := exists_eventRow e .rx (eprSetup (s.hw.epr.get e))
  have hkeeps := EventRow.rule_keepsAddress (completionCleared_quiet q e .rx) (eventRow_ne_ctrlSetup hrow (.inr he))
  have hcleared : (completionCleared e .rx s).hw.daddr = s.hw.daddr := by rw [completionCleared_eq q]
  rw [serveCompletion, routeCompletion_of_row hrow]
  exact ⟨hkeeps.daddr.trans hcleared, hkeeps.dev⟩

end

end Sys2Proof.Machine

/-! ## The statements -/

open Sys2Proof Sys2Proof.Machine

/-- Settles O51: a turn serves the next completion (`drainRule_of_next`), and what is left of the fuel is as good as
the fuel of a loop begun afresh (`drainLoop_succ_of_card_le`). -/
theorem drainServesInOrder : Obligations.DrainServesInOrder := by
  intro s r q
  constructor
  · intro hdone
    rw [exec_irqCtr r, drainRule_of_done q hdone]
  · intro e d hflag hleast hfirst
    have next : s.hw.NextCompletion e d := ⟨hflag, hleast, hfirst⟩
    obtain ⟨row, hrow⟩ := exists_eventRow e d (eprSetup (s.hw.epr.get e))
    have ru := r.completionCleared e d
    have qu := completionCleared_quiet q e d
    have happly := keepsFlags_applyIfPending qu d
    have rv := happly.runnable ru (applyIfPending_fatal d _)
    have hrule := EventRow.rule_keepsFlags (happly.quiet qu) row
    refine ⟨_, _, row.instr, _, exec_clearCtr r e d, exec_applyIfPending ru d, decode_event hrow,
      exec_eventRow rv row, ?_⟩
    rw [exec_irqCtr r, drainRule_of_next q next, serveCompletion, routeCompletion_of_row hrow]
    split
    case isTrue hfatal => exact (exec_irqCtr (hrule.runnable rv (hfatal.trans rv.2.symm))).symm
    case isFalse => rfl

/-- Settles O53: an entry with one completion and no cause is that completion's turn (`drainRule_of_only`), and beside
APPLY_ADDRESS only the handling of a SETUP touches the address (`EventRow.rule_keepsAddress`). -/
theorem addressAppliedAtIn : Obligations.AddressAppliedAtIn := by
  intro s r
  refine ⟨exec_applyAddress r, ?_⟩
  intro e d rest q henable hlines hcauses hpending honly
  let s0 : State := { s with lines := rest }
  have hdue : s0.due = true :=
    (State.due_iff (s := s0) r).mpr ⟨henable, (Hw.nextCompletion_of_only honly).istr_ne_zero⟩
  have hstep : step s = .next (serveCompletion e d s0) := by
    rw [step_irq r hlines, State.entryIfDue, if_pos hdue, entryRule_of_noCause (s := s0) q hcauses,
      drainRule_of_only (s := s0) q honly]
  refine ⟨_, hstep, ?_, ?_⟩
  · rintro rfl
    exact serveCompletion_appliesAddress (s := s0) q e hpending
  · rintro rfl rfl
    obtain ⟨hdaddr, hdev⟩ := keepsAddress_serveCompletion (s := s0) (e := .data) q (by decide)
    exact ⟨hdaddr, (congrArg DeviceState.addrPending hdev).trans hpending⟩

end

section
/-! SUPPORT. The fields of an endpoint register (spec/10_state.md R12) where the bits under a mask were replaced, which
is what a transaction does to one (spec/45_collaborators.md R241 to R243). -/

namespace Sys2Proof.Machine

section
variable {r m v : Word16}

theorem getLsbD_withBits {i : Nat} (hi : i < 16) :
    (withBits r m v).getLsbD i = if m.getLsbD i then v.getLsbD i else r.getLsbD i := by
  simp only [withBits, BitVec.getLsbD_or, BitVec.getLsbD_and, BitVec.getLsbD_not, hi, decide_true, Bool.true_and]
  cases m.getLsbD i <;> simp

/-- A field that the mask does not reach is as it was. -/
theorem extractLsb'_withBits_of_unmasked {start len : Nat} (hfit : start + len ≤ 16)
    (hm : m.extractLsb' start len = 0) : (withBits r m v).extractLsb' start len = r.extractLsb' start len := by
  refine extractLsb'_congr fun i hi => ?_
  have hbit : m.getLsbD (start + i) = false := by simpa [hi] using congrArg (fun x => x.getLsbD i) hm
  rw [getLsbD_withBits (by omega), hbit, if_neg Bool.false_ne_true]

/-- A field that the mask covers is that of the new value. -/
theorem extractLsb'_withBits_of_masked {start len : Nat} (hfit : start + len ≤ 16)
    (hm : m.extractLsb' start len = BitVec.allOnes len) :
    (withBits r m v).extractLsb' start len = v.extractLsb' start len := by
  refine extractLsb'_congr fun i hi => ?_
  have hbit : m.getLsbD (start + i) = true := by simpa [hi] using congrArg (fun x => x.getLsbD i) hm
  rw [getLsbD_withBits (by omega), hbit, if_pos rfl]

/-! ## The fields of one bit -/

@[simp] theorem eprFlag_withBits (d : Dir) :
    eprFlag (withBits r m v) d = if eprFlag m d then eprFlag v d else eprFlag r d := by
  cases d <;> exact getLsbD_withBits (by decide)

@[simp] theorem eprToggle_withBits (d : Dir) :
    eprToggle (withBits r m v) d = if eprToggle m d then eprToggle v d else eprToggle r d := by
  cases d <;> exact getLsbD_withBits (by decide)

@[simp] theorem eprSetup_withBits :
    eprSetup (withBits r m v) = if eprSetup m then eprSetup v else eprSetup r := getLsbD_withBits (by decide)

@[simp] theorem eprKind_withBits :
    eprKind (withBits r m v) = if eprKind m then eprKind v else eprKind r := getLsbD_withBits (by decide)

@[simp] theorem eprToggle_bits (b : Bool) (d : Dir) : eprToggle (bits b) d = b := by cases b <;> cases d <;> decide

/-! ## The fields of several bits -/

@[simp] theorem eprType_withBits (hm : eprType m = 0) : eprType (withBits r m v) = eprType r :=
  extractLsb'_withBits_of_unmasked (by decide) hm

@[simp] theorem eprAddr_withBits (hm : eprAddr m = 0) : eprAddr (withBits r m v) = eprAddr r :=
  extractLsb'_withBits_of_unmasked (by decide) hm

/-- A status is a code, and no other code means the same. -/
theorem statOf_inj {x y : BitVec 2} (h : statOf x = statOf y) : x = y := by
  revert x y; decide

@[simp] theorem eprStat_withBits_of_unmasked {d : Dir} (hm : eprStat m d = .disabled) :
    eprStat (withBits r m v) d = eprStat r d := by
  cases d <;> exact congrArg statOf (extractLsb'_withBits_of_unmasked (by decide) (statOf_inj (y := 0) hm))

@[simp] theorem eprStat_withBits_of_masked {d : Dir} (hm : eprStat m d = .valid) :
    eprStat (withBits r m v) d = eprStat v d := by
  cases d <;> exact congrArg statOf (extractLsb'_withBits_of_masked (by decide) (statOf_inj (y := 3) hm))

end

end Sys2Proof.Machine
end

section
/-! SUPPORT. The moves of the bus side and of the session owner as stimulus lines (spec/45_collaborators.md R241 to
R246, R256): what a received packet makes of packet memory, what each move answers where it is open, and the statements
about them. -/

namespace Sys2Proof.Machine

/-! ## The packet in the receive area -/

/-- A received packet as whole units, an odd one filled up with `tail` (R242), as `padded` fills up a queued one with 0:
see `Hw.receive_pma`. -/
def receivedUnits (b : List Byte) (tail : Byte) : List Byte := if b.length % 2 = 1 then b ++ [tail] else b

section
variable {b : List Byte} {tail : Byte}

theorem receivedUnits_length : (receivedUnits b tail).length = 2 * ceil2 b.length := by
  rw [receivedUnits, ceil2]
  split
  · rw [List.length_append, List.length_singleton]; omega
  · omega

theorem receivedUnits_getElem? {i : Nat} {x : Byte} (hx : b[i]? = some x) :
    (receivedUnits b tail)[i]? = some x := by
  have hi : i < b.length := (List.getElem?_eq_some_iff.mp hx).1
  rw [receivedUnits]
  split
  · rw [List.getElem?_append_left hi, hx]
  · exact hx

theorem receivedUnits_tail (hodd : b.length % 2 = 1) : (receivedUnits b tail)[b.length]? = some tail := by
  rw [receivedUnits, if_pos hodd, List.getElem?_concat_length]

section
variable {h : Hw} {e : Ep}

theorem Hw.receive_pma : (h.receive e b tail).pma = h.pma.store (h.rxBase e) (receivedUnits b tail) := rfl

/-- The bytes of the units stand in the receive area in wire order (20_memory R54). -/
theorem Hw.receive_pmaByte {i : Nat} {x : Byte} (hx : (receivedUnits b tail)[i]? = some x) :
    (h.receive e b tail).pmaByte (h.rxBase e + i) = x := by
  obtain ⟨hi, hbyte⟩ := List.getElem?_eq_some_iff.mp hx
  rw [Hw.pmaByte, Hw.receive_pma, Memory.read?_store_at _ _ _ hi, Option.getD_some, hbyte]

/-- Every byte outside the units reads as before. -/
theorem Hw.receive_pmaByte_outside {j : Nat} (hj : j < h.rxBase e ∨ h.rxBase e + 2 * ceil2 b.length ≤ j) :
    (h.receive e b tail).pmaByte j = h.pmaByte j := by
  rw [Hw.pmaByte, Hw.receive_pma, Memory.read?_store_outside _ _ _ (by rwa [receivedUnits_length])]
  rfl

end

end

/-! ## The moves where they are open -/

section
variable {h : Hw} {a : DevAddr} (ha : h.answers a = true)
include ha

/-- The host's packet was sent to the device's own address (R240). -/
theorem Hw.addressed_of_answers : h.addressed a = daddrAdd h.daddr := by
  rw [Hw.answers, Bool.and_eq_true, beq_iff_eq] at ha
  exact ha.2

theorem Hw.busSetup_of_open (hopen : h.setupOpen = true) {b : List Byte} (hb : b.length = 8) (dr dt : Bool) :
    h.busSetup a b dr dt = { h with
      pma := (h.receive .ctrl b 0).pma
      rxCount := h.rxCount.set .ctrl 8
      epr := h.epr.set .ctrl (eprAfterSetup h.epr.ctrl dr dt)
      replies := h.replies ++ [.accepted (daddrAdd h.daddr)] } := by
  simp [Hw.busSetup, Hw.reply, Hw.receive, Hw.addressed_of_answers ha, ha, hopen, hb]

theorem Hw.busOut_of_valid {c : Config} {e : Ep} {b : List Byte} (hfit : b.length ≤ c.cap.get e)
    (hvalid : eprStat (h.epr.get e) .rx = .valid) (tail : Byte) (dr : Bool) :
    Hw.busOut c h a e b tail dr = { h with
      pma := (h.receive e b tail).pma
      rxCount := h.rxCount.set e (BitVec.ofNat 10 b.length)
      epr := h.epr.set e (eprAfterOut (h.epr.get e) dr)
      replies := h.replies ++ [.accepted (daddrAdd h.daddr)] } := by
  simp [Hw.busOut, Hw.reply, Hw.receive, Hw.addressed_of_answers ha, ha, hvalid, Nat.not_lt.mpr hfit]

theorem Hw.busIn_of_valid {e : Ep} (hvalid : eprStat (h.epr.get e) .tx = .valid) (dt : Bool) :
    h.busIn a e dt = { h with
      epr := h.epr.set e (eprAfterIn (h.epr.get e) dt)
      replies := h.replies ++ [.bytes (daddrAdd h.daddr) (h.outgoing e)] } := by
  simp [Hw.busIn, Hw.reply, Hw.addressed_of_answers ha, ha, hvalid]

end

/-- The bytes an IN transaction brings are those of the transmit area in wire order (20_memory R54). -/
theorem Hw.outgoing_getElem? {h : Hw} {e : Ep} {i : Nat} (hi : i < (h.outgoing e).length) :
    (h.outgoing e)[i]? = some (h.pmaByte (h.txBase e + i)) := by
  rw [Hw.outgoing, Hw.pmaBytes_length] at hi
  simp [Hw.outgoing, Hw.pmaBytes, Hw.txBase, hi]

/-! ## The stored causes -/

/-- The stored bit RESET is bit 10 of ISTR (10_state R14). -/
theorem getLsbD_or_resetBit (k : BitVec 7) (i : Nat) : (k ||| resetBit).getLsbD i = (k.getLsbD i || i == 2) := by
  rw [BitVec.getLsbD_or]
  by_cases hi : i < 7
  · interval_cases i <;> rfl
  · have hne : i ≠ 2 := by omega
    simp [BitVec.getLsbD_of_ge _ _ (Nat.not_lt.mp hi), hne]

/-- The bit of ISTR that stores a cause (10_state R14): see `getLsbD_or_causeBit`. -/
def causeIstrBit : Cause → Nat
  | .pmaovr => 14
  | .err => 13
  | .wkup => 12
  | .susp => 11
  | .sof => 9
  | .esof => 8

theorem getLsbD_causeBit (c : Cause) : ∀ i < 7, (causeBit c).getLsbD i = (i + 8 == causeIstrBit c) := by
  cases c <;> decide

theorem getLsbD_or_causeBit (k : BitVec 7) (c : Cause) (i : Nat) (hi : i < 7) :
    (k ||| causeBit c).getLsbD i = (k.getLsbD i || i + 8 == causeIstrBit c) := by
  rw [BitVec.getLsbD_or, getLsbD_causeBit c i hi]

/-! ## What the moves answer -/

section
variable {s : State} (r : s.ready)
include r

theorem exec_busSetup (a : DevAddr) {b : List Byte} (hb : b.length = 8) (dr dt : Bool) :
    exec (.busSetup a b dr dt) s = .next (s.onHw (fun _ h => h.busSetup a b dr dt)) :=
  (if_neg (not_not_intro hb)).trans (State.env_of_ready r _)

theorem exec_busOut (a : DevAddr) {e : Ep} {b : List Byte} (hfit : b.length ≤ s.cfg.cap.get e) (tail : Byte)
    (dr : Bool) : exec (.busOut a e b tail dr) s = .next (s.onHw (fun c h => Hw.busOut c h a e b tail dr)) :=
  (if_neg (Nat.not_lt.mpr hfit)).trans (State.env_of_ready r _)

theorem exec_busIn (a : DevAddr) (e : Ep) (dt : Bool) :
    exec (.busIn a e dt) s = .next (s.onHw (fun _ h => h.busIn a e dt)) :=
  State.env_of_ready r (State.onHw · fun _ h => h.busIn a e dt)

theorem exec_busReset : exec .busReset s = .next (s.onHw (fun _ h => h.busReset)) :=
  State.env_of_ready r (State.onHw · fun _ h => h.busReset)

theorem exec_busCause (k : Cause) : exec (.busCause k) s = .next (s.onHw (fun _ h => h.busCause k)) :=
  State.env_of_ready r (State.onHw · fun _ h => h.busCause k)

theorem exec_irqSetEnable (on : Bool) : exec (.irqSetEnable on) s = .next { s with irqEnable := on } :=
  State.env_of_ready r ({ · with irqEnable := on })

end

end Sys2Proof.Machine

/-! ## The statements -/

open Sys2Proof Sys2Proof.Machine

/-- Settles O54: an open SETUP transaction is `Hw.busSetup_of_open`; its eight bytes are four whole units, and the
fields of `eprAfterSetup` are those of three replacements of bits (`eprStat_withBits_of_masked` and its kind). -/
theorem setupTransaction : Obligations.SetupTransaction := by
  intro s a b dr dt r ha hb htype hstat hflag
  have hopen : s.hw.setupOpen = true := by
    simp only [Hw.setupOpen, Bool.and_eq_true, beq_iff_eq, bne_iff_ne, Bool.not_eq_true']
    exact ⟨⟨htype, hstat⟩, hflag⟩
  have hunits : 2 * ceil2 b.length = 8 := by rw [hb]; rfl
  have hexec := exec_busSetup r a hb dr dt
  rw [State.onHw, Hw.busSetup_of_open ha hopen hb] at hexec
  refine ⟨_, eprAfterSetup (s.hw.epr.get .ctrl) dr dt, hexec, rfl, ?_, ?_, ?_⟩
  · exact fun i x hx => Hw.receive_pmaByte (tail := 0) (receivedUnits_getElem? hx)
  · exact fun j hj => Hw.receive_pmaByte_outside (tail := 0) (by rwa [hunits])
  · simp +decide [eprAfterSetup, htype]

/-- Settles O55: an OUT transaction on a VALID direction is `Hw.busOut_of_valid`, whose bytes are `receivedUnits`, and
the register after it is two replacements of bits. -/
theorem outTransaction : Obligations.OutTransaction := by
  intro s a e b tail dr r ha hfit hvalid
  have hexec := exec_busOut r a hfit tail dr
  rw [State.onHw, Hw.busOut_of_valid ha hfit hvalid] at hexec
  refine ⟨_, eprAfterOut (s.hw.epr.get e) dr, hexec, rfl, ?_, ?_, ?_, ?_⟩
  · exact fun i x hx => Hw.receive_pmaByte (receivedUnits_getElem? hx)
  · exact fun hodd => Hw.receive_pmaByte (receivedUnits_tail hodd)
  · exact fun j hj => Hw.receive_pmaByte_outside hj
  · simp +decide [eprAfterOut]

/-- Settles O56: an IN transaction on a VALID direction is `Hw.busIn_of_valid`, whose bytes are `Hw.outgoing`, and the
register after it is two replacements of bits. -/
theorem inTransaction : Obligations.InTransaction := by
  intro s a e dt r ha hvalid
  have hexec := exec_busIn r a e dt
  rw [State.onHw, Hw.busIn_of_valid ha hvalid] at hexec
  refine ⟨s.hw.outgoing e, eprAfterIn (s.hw.epr.get e) dt, hexec, Hw.pmaBytes_length _ _,
    fun i hi => Hw.outgoing_getElem? hi, ?_⟩
  simp +decide [eprAfterIn]

/-- Settles O58: each move is one assignment; the stored bit it sets is `getLsbD_or_resetBit` for a reset and
`getLsbD_or_causeBit` for a cause. -/
theorem resetCausesAndEnable : Obligations.ResetCausesAndEnable := by
  intro s r
  exact ⟨⟨_, exec_busReset r, getLsbD_or_resetBit _⟩, fun c => ⟨_, exec_busCause r c, getLsbD_or_causeBit _ c⟩,
    exec_irqSetEnable r⟩

end

section
/-! SUPPORT. Power-on and bus reset (spec/70_reset_and_hazards.md R301 to R303, spec/10_state.md R32): the step that
takes a POWERON line, the entry that serves a bus reset, and the statements about them. -/

namespace Sys2Proof.Machine

section
variable {s : State} {rest : List Line}

/-- A POWERON line runs under parameters that obey 00_scope R5. -/
theorem step_powerOn (h : s.lines = .powerOn :: rest) (v : configValid s.cfg = true) :
    step s = .next (State.powerCycle { s with lines := rest }) := by
  simp only [step, h, v, if_true]

theorem step_busReset (r : s.ready) (h : s.lines = .op (.name .busReset) :: rest) :
    step s = .next { s with hw := s.hw.busReset, lines := rest } :=
  (step_op h).trans ((present_of_decode rfl rfl).trans (exec_busReset (s := { s with lines := rest }) r))

/-- A bus reset leaves the other stored causes as they are (R245). -/
theorem Hw.getLsbD_istr_busReset (h : Hw) {i : Nat} (hi : i < 7) :
    h.busReset.istr.getLsbD (8 + i) = (h.istr.getLsbD (8 + i) || i == 2) := by
  rw [Hw.getLsbD_istr _ hi, Hw.getLsbD_istr _ hi]
  exact getLsbD_or_resetBit _ _

/-- RESET is a pending cause (R220). -/
theorem Hw.istr_ne_zero_of_reset {h : Hw} (hreset : h.istr.getLsbD 10 = true) : h.istr &&& 0xFF00 ≠ 0 := by
  intro hzero
  have hbit := congrArg (fun v : Word16 => v.getLsbD 10) hzero
  simp only [BitVec.getLsbD_and, hreset] at hbit
  exact absurd hbit (by decide)

/-- Disabled, the device answers nothing (45_collaborators R240). -/
theorem Hw.answers_of_disabled {h : Hw} (hd : h.daddr = 0) (a : DevAddr) : h.answers a = false := by
  simp [Hw.answers, daddrEf, hd]

/-- Enabled at address 0, the device answers there (45_collaborators R240). -/
theorem Hw.answers_zero {h : Hw} (hd : h.daddr = 0x80) : h.answers (some 0) = true := by
  simp [Hw.answers, Hw.addressed, daddrEf, daddrAdd, hd]

/-! ## The causes of an entry -/

/-- `suspended` after the causes of an entry: SUSPEND is acted on after RESUME (R221 to R223). -/
def suspendedAfterCauses (s : State) : Bool :=
  if s.hw.istr.getLsbD 11 then true else if s.hw.istr.getLsbD 12 then false else s.dev.suspended

/-- RESUME or SUSPEND as an entry runs it: where the snapshot shows it (R221). -/
def lowPowerIf (on shown : Bool) (s : State) : State := if shown then lowPowerRule on s else s

theorem entryCauses_eq (s : State) : entryCauses s =
    clearCausesRule (lowPowerIf true (s.hw.istr.getLsbD 11) (lowPowerIf false (s.hw.istr.getLsbD 12) s)) := rfl

/-- With the bus side still, RESUME and SUSPEND write `suspended` and CNTR alone, and only where they are shown. -/
theorem lowPowerIf_quiet (q : s.quiet) (on shown : Bool) :
    ∃ v, (shown = false → v = s.hw.cntr) ∧ lowPowerIf on shown s =
      { s with hw.cntr := v, dev.suspended := if shown then on else s.dev.suspended } := by
  cases shown
  · exact ⟨_, fun _ => rfl, rfl⟩
  · refine ⟨(Hw.putLowPower s.cfg on s.hw).cntr, nofun, (lowPowerRule_eq on s).trans ?_⟩
    rw [State.onHw, Hw.putLowPower_quiet q on]
    rfl

theorem clearCausesRule_quiet (q : s.quiet) : clearCausesRule s = { s with hw.causes := 0 } := by
  rw [clearCausesRule, State.onHw, Hw.slot_quiet q]

/-- With the bus side still the causes of an entry write `suspended` and the low-power bits, and clear the stored
causes; without a RESUME or SUSPEND the low-power bits stay (R221 to R224). -/
theorem entryCauses_quiet (q : s.quiet) :
    ∃ v, (s.hw.istr.getLsbD 11 = false → s.hw.istr.getLsbD 12 = false → v = s.hw.cntr) ∧
      entryCauses s = { s with hw.causes := 0, hw.cntr := v, dev.suspended := suspendedAfterCauses s } := by
  obtain ⟨v, hv, hresume⟩ := lowPowerIf_quiet q false (s.hw.istr.getLsbD 12)
  obtain ⟨w, hw, hsuspend⟩ := lowPowerIf_quiet
    (s := { s with hw.cntr := v, dev.suspended := if s.hw.istr.getLsbD 12 then false else s.dev.suspended }) q true
    (s.hw.istr.getLsbD 11)
  refine ⟨w, fun h11 h12 => (hw h11).trans (hv h12), ?_⟩
  rw [entryCauses_eq, hresume, hsuspend, clearCausesRule_quiet (by exact q)]
  rfl

/-! ## The entry that serves a bus reset -/

/-- The column "after bus reset" of 10_state R32, which keeps what R303 names: see `exec_irqReset_of_cleared`. -/
def State.afterBusReset (s : State) : State :=
  { s with
    hw := { s.hw with
      txOffset := s.cfg.txOff
      rxOffset := s.cfg.rxOff
      txCount := ⟨0, 0, 0⟩
      rxCount := ⟨0, 0, 0⟩
      epr := ⟨0x3220, 0x3021, 0x0622⟩
      daddr := 0x80 }
    ctl := ControlCtx.initial s.cfg
    dev := { suspended := s.dev.suspended, configured := false, addrPending := false, pendingAddr := 0 }
    sess := FlashSession.zero }

section
variable (r : s.runnable)
include r

/-- The handler of R225 keeps no bit of a cleared endpoint register. -/
theorem exec_irqReset_of_cleared (q : s.quiet) (hepr : s.hw.epr = ⟨0, 0, 0⟩) :
    exec .irqReset s = .next s.afterBusReset := by
  obtain ⟨t, ht, hframe, hhw⟩ := resetHandler s r
  rw [hhw q, hepr] at hframe
  rw [ht, hframe]
  rfl

theorem State.runnable.entryCauses : (entryCauses s).runnable :=
  ((r.lowPower_if false _).lowPower_if true _).clearCauses

/-- With the bus side still an entry that sees RESET is its causes, then the reset handler (R221). -/
theorem step_irq_of_reset (q : s.quiet) (henable : s.irqEnable = true) (hreset : s.hw.istr.getLsbD 10 = true)
    (hlines : s.lines = .irq :: rest) : step s = exec .irqReset (entryCauses { s with lines := rest }) := by
  have r0 : State.runnable { s with lines := rest } := r
  have hdue : State.due { s with lines := rest } = true :=
    (State.due_iff r0).mpr ⟨henable, Hw.istr_ne_zero_of_reset hreset⟩
  rw [step_irq r hlines, State.entryIfDue, if_pos hdue, entryRule_quiet (s := { s with lines := rest }) q,
    if_pos hreset, exec_irqReset r0.entryCauses]

/-- The entry that follows BUS_RESET leaves the column "after bus reset" and the outcome of the other causes. -/
theorem step_irq_of_cleared (q : s.quiet) (henable : s.irqEnable = true) (hreset : s.hw.istr.getLsbD 10 = true)
    (hepr : s.hw.epr = ⟨0, 0, 0⟩) (hlines : s.lines = .irq :: rest) :
    ∃ v, (s.hw.istr.getLsbD 11 = false → s.hw.istr.getLsbD 12 = false → v = s.hw.cntr) ∧
      step s = .next (State.afterBusReset { s with
        hw.causes := 0, hw.cntr := v, dev.suspended := suspendedAfterCauses s, lines := rest }) := by
  obtain ⟨v, hv, hcauses⟩ := entryCauses_quiet (s := { s with lines := rest }) q
  refine ⟨v, hv, ?_⟩
  rw [step_irq_of_reset r q henable hreset hlines, hcauses]
  exact exec_irqReset_of_cleared r q hepr

end

end

end Sys2Proof.Machine

/-! ## The statements -/

open Sys2Proof Sys2Proof.Machine

/-- Settles O2: the step is `step_powerOn`, and the fields of `State.powerCycle` are those of `State.powerOn`. -/
theorem powerOnState : Obligations.PowerOnState := fun _ _ hlines v =>
  ⟨_, step_powerOn hlines v, rfl, rfl, rfl, rfl, rfl, rfl, rfl, rfl, rfl, rfl, rfl, rfl, rfl, rfl, rfl, rfl⟩

/-- Settles O49: after BUS_RESET (`step_busReset`) RESET is pending, and the other causes are as they were
(`Hw.getLsbD_istr_busReset`); the entry that serves it is `step_irq_of_cleared`. -/
theorem busReset : Obligations.BusReset := by
  intro s rest r q henable hlines
  have hreset : s.hw.busReset.istr.getLsbD 10 = true :=
    (Hw.getLsbD_istr_busReset s.hw (i := 2) (by decide)).trans (Bool.or_true _)
  have hsuspend : s.hw.busReset.istr.getLsbD 11 = s.hw.istr.getLsbD 11 :=
    (Hw.getLsbD_istr_busReset s.hw (i := 3) (by decide)).trans (Bool.or_false _)
  have hresume : s.hw.busReset.istr.getLsbD 12 = s.hw.istr.getLsbD 12 :=
    (Hw.getLsbD_istr_busReset s.hw (i := 4) (by decide)).trans (Bool.or_false _)
  obtain ⟨v, hv, hentry⟩ := step_irq_of_cleared (s := { s with hw := s.hw.busReset, lines := .irq :: rest }) r q
    henable hreset rfl rfl
  refine ⟨_, _, step_busReset r.1 hlines, ?_, rfl, rfl, Hw.answers_of_disabled rfl, hentry, rfl, rfl, rfl, rfl, rfl,
    rfl, rfl, Hw.answers_zero rfl, rfl, rfl, rfl, rfl, rfl, ?_, ?_, rfl, henable, rfl, rfl, rfl, rfl, rfl⟩
  · exact (getLsbD_or_resetBit _ 2).trans (Bool.or_true _)
  · simp only [State.afterBusReset, suspendedAfterCauses, hsuspend, hresume]
  · intro hnone
    have hbit : ∀ i, (0x1800#16).getLsbD i = true → s.hw.istr.getLsbD i = false := fun i hi => by
      simpa [BitVec.getLsbD_and, hi] using congrArg (fun w : Word16 => w.getLsbD i) hnone
    exact hv (hsuspend.trans (hbit 11 rfl)) (hresume.trans (hbit 12 rfl))

end

section
/-! SUPPORT. Decoding and encoding (spec/30_encoding.md): a packet's row carries the packet back, what no row takes, and
what a step does with a form; and the statements about them. -/

namespace Sys2Proof

/-! ## Encoding what was decoded -/

variable {p : List Byte}

theorem encode_ite_instr {c : Prop} [Decidable c] {a b : SetupRow} (ha : c → encode (a.instr p) = .setup p)
    (hb : ¬c → encode (b.instr p) = .setup p) : encode ((if c then a else b).instr p) = .setup p := by
  split
  exacts [ha ‹_›, hb ‹_›]

/-- A packet is its fields, whichever row its type, request code and descriptor type select (30_encoding R82 to R87). -/
theorem encode_rowOf_instr (hlen : p.length = 8) :
    encode ((rowOf ((byteAt p 0).extractLsb' 5 2) (byteAt p 1) (byteAt p 3)).instr p) = .setup p := by
  have hvalue : ∀ {t : BitVec 2} {r : Byte}, (byteAt p 0).extractLsb' 5 2 = t → byteAt p 1 = r →
      Code.setup (packetOfValue (setupArgs p) t r (packetValue p)) = .setup p := fun ht hr =>
    congrArg Code.setup (Machine.packetOfValue_setupArgs p hlen _ ht _ hr)
  have hdescriptor : ∀ {t : BitVec 2} {r x : Byte}, (byteAt p 0).extractLsb' 5 2 = t → byteAt p 1 = r →
      byteAt p 3 = x → Code.setup (packetOf (setupArgs p) t r (byteAt p 2) x) = .setup p := fun ht hr hx =>
    congrArg Code.setup (Machine.packetOf_setupArgs p hlen _ ht _ _ _ hr rfl hx)
  have hlast : ∀ t : BitVec 2, t ≠ 0 → t ≠ 1 → t ≠ 2 → t = 3 := by decide
  unfold rowOf
  iterate 6 refine encode_ite_instr (fun h => hvalue h.1 h.2) fun _ => ?_
  iterate 4 refine encode_ite_instr (fun h => hdescriptor h.1 h.2.1 h.2.2) fun _ => ?_
  refine encode_ite_instr (fun h => hdescriptor h.1 h.2 rfl) fun _ => ?_
  iterate 6 refine encode_ite_instr (fun h => hvalue h.1 h.2) fun _ => ?_
  refine encode_ite_instr (fun h => hvalue h rfl) fun h0 => ?_
  iterate 4 refine encode_ite_instr (fun h => hvalue h.1 h.2) fun _ => ?_
  refine encode_ite_instr (fun h => hvalue h rfl) fun h1 => ?_
  refine encode_ite_instr (fun h => hvalue h rfl) fun h2 => ?_
  exact hvalue (hlast _ h0 h1 h2) rfl

/-! ## What decodes to an instruction -/

theorem decode_setup_eq_instr {bl : BlState} {i : Instr} (h : decode bl (.setup p) = .instr i) :
    p.length = 8 ∧ (decodeKey (setupKey p)).instr p = i := by
  rw [decode, decodeSetup] at h
  split at h
  · exact ⟨‹_›, Decoded.instr.inj h⟩
  · cases h

/-- What a SETUP packet decodes to encodes to that packet. -/
theorem encode_of_decode_setup {bl : BlState} {i : Instr} (h : decode bl (.setup p) = .instr i) :
    encode i = .setup p := by
  obtain ⟨hlen, rfl⟩ := decode_setup_eq_instr h
  obtain ⟨htype, hcode, hdesc⟩ := Machine.setupKey_fields p
  rw [decodeKey_eq_rowOf, htype, hcode, hdesc, encode_rowOf_instr hlen]

section
variable {want : Byte} {mk : Byte → Word16 → Word16 → Word16 → Instr}

theorem decodeRecord_eq_instr {i : Instr} (h : decodeRecord want mk p = .instr i) :
    p.length = 8 ∧ byteAt p 0 = want ∧ i = mk (byteAt p 1) (le16 (byteAt p 2) (byteAt p 3))
      (le16 (byteAt p 4) (byteAt p 5)) (le16 (byteAt p 6) (byteAt p 7)) := by
  rw [decodeRecord] at h
  split at h
  · cases h
  · split at h
    · exact ⟨not_not.mp ‹_›, ‹_›, (Decoded.instr.inj h).symm⟩
    · cases h

/-- A record is its fields (30_encoding R88). -/
theorem recordOf_fields (hlen : p.length = 8) :
    recordOf (byteAt p 0) (byteAt p 1) (le16 (byteAt p 2) (byteAt p 3)) (le16 (byteAt p 4) (byteAt p 5))
      (le16 (byteAt p 6) (byteAt p 7)) = p := by
  match p, hlen with
  | [_, _, _, _, _, _, _, _], _ => simp [recordOf, Machine.bytesOf16_le16, byteAt]

theorem encode_of_decodeRecord {i : Instr} (hmk : ∀ pad page len crc, encode (mk pad page len crc) =
      .bulk (recordOf want pad page len crc)) (h : decodeRecord want mk p = .instr i) : encode i = .bulk p := by
  obtain ⟨hlen, rfl, rfl⟩ := decodeRecord_eq_instr h
  rw [hmk, recordOf_fields hlen]

/-! ## What no row takes -/

theorem decode_setup_of_length (bl : BlState) (hlen : p.length ≠ 8) :
    decode bl (.setup p) = .reject .setupLength := if_neg hlen

theorem decodeRecord_of_length (hlen : p.length ≠ 8) : decodeRecord want mk p = .reject .recordLength := if_pos hlen

/-- The first byte of a record is its id (30_encoding R88). -/
theorem byteAt_zero_ne (hlen : p.length = 8) (hid : p[0]? ≠ some want) : byteAt p 0 ≠ want := by
  intro h
  apply hid
  rw [← h, byteAt, List.getD_eq_getElem?_getD, List.getElem?_eq_getElem (by omega), Option.getD_some]

theorem decodeRecord_of_id (hlen : p.length = 8) (hid : p[0]? ≠ some want) :
    decodeRecord want mk p = .reject .recordId := by
  rw [decodeRecord, if_neg (not_not_intro hlen), if_neg (byteAt_zero_ne hlen hid)]

end

/-- A triple of an endpoint above 2 has no handler (30_encoding R92). -/
theorem decodeEvent_eq_none (n : BitVec 4) (d su : Bool) (hn : 2 < n.toNat) : decodeEvent (eventOf n d su) = none := by
  revert n
  cases d <;> cases su <;> decide

theorem decode_event_eq_reject (bl : BlState) (n : BitVec 4) (d su : Bool) (hn : 2 < n.toNat) :
    decode bl (.event (eventOf n d su)) = .reject .eventEndpoint := by
  rw [decode, decodeEvent_eq_none n d su hn]

/-- The two phases in which a packet is read as a command record, each with the id it accepts (30_encoding R89). -/
def HeaderPhase (bl : BlState) (want : Byte) : Prop :=
  bl = .waitSizeHeader ∧ want = 0x20 ∨ bl = .waitDataHeader ∧ want = 0x21

namespace HeaderPhase

variable {bl : BlState} {want : Byte} (hphase : HeaderPhase bl want)
include hphase

theorem phase : bl = .waitSizeHeader ∨ bl = .waitDataHeader := hphase.imp And.left And.left

theorem exists_decodeRecord : ∃ mk, ∀ p, decode bl (.bulk p) = decodeRecord want mk p := by
  obtain ⟨rfl, rfl⟩ | ⟨rfl, rfl⟩ := hphase
  exacts [⟨.cmdSizeHeader, fun _ => rfl⟩, ⟨.cmdPageHeader, fun _ => rfl⟩]

theorem decode_of_length (hlen : p.length ≠ 8) : decode bl (.bulk p) = .reject .recordLength := by
  obtain ⟨mk, hmk⟩ := hphase.exists_decodeRecord
  rw [hmk, decodeRecord_of_length hlen]

theorem decode_of_id (hlen : p.length = 8) (hid : p[0]? ≠ some want) :
    decode bl (.bulk p) = .reject .recordId := by
  obtain ⟨mk, hmk⟩ := hphase.exists_decodeRecord
  rw [hmk, decodeRecord_of_id hlen hid]

end HeaderPhase

/-! ## What a step does with a record in a header phase -/

namespace Machine

section
variable {s : State} {rest : List Line} {want : Byte} (hlines : s.lines = .op (.bulk p) :: rest)
  (hphase : HeaderPhase s.sess.blState want)
include hlines hphase

theorem step_record_of_length (hlen : p.length ≠ 8) :
    step s = exec (.reportError .cmdWrongLength) { s with lines := rest } := by
  have hcrc : State.crcFails { s with lines := rest } (.bulk p) = false :=
    crcFails_eq_false_iff.mpr fun _ hp _ h8 => absurd (Code.bulk.inj hp ▸ h8) hlen
  rw [step_op hlines, present_of_reject (s := { s with lines := rest }) rfl (hphase.decode_of_length hlen) hcrc,
    State.keepRecord, if_neg hlen]
  rfl

theorem step_record_of_crc (hlen : p.length = 8) (hbad : ¬recordCrcGood s.cfg p) :
    step s = exec (.reportError .cmdWrongCrc) { s with lines := rest, cmdBuf := p } := by
  have hcrc : State.crcFails { s with lines := rest } (.bulk p) = true := by
    simp [State.crcFails, hphase.phase, hlen, hbad]
  rw [step_op hlines, present_of_crcFails hcrc, State.keepRecord, if_pos hlen]

theorem step_record_of_id (hlen : p.length = 8) (hgood : recordCrcGood s.cfg p) (hid : p[0]? ≠ some want) :
    step s = exec (.reportError .cmdWrongId) { s with lines := rest, cmdBuf := p } := by
  have hcrc : State.crcFails { s with lines := rest } (.bulk p) = false :=
    crcFails_eq_false_iff.mpr fun _ hp _ _ => Code.bulk.inj hp ▸ hgood
  rw [step_op hlines, present_of_reject (s := { s with lines := rest }) rfl (hphase.decode_of_id hlen hid) hcrc,
    State.keepRecord, if_pos hlen]
  rfl

end

/-- A decoded record has 8 bytes, so its CRC is looked at (43_bulk R192). -/
theorem crcFails_eq_false {s : State} {c : Code} (hgood : ∀ p, c = .bulk p →
      s.sess.blState = .waitSizeHeader ∨ s.sess.blState = .waitDataHeader → recordCrcGood s.cfg p) :
    s.crcFails c = false :=
  crcFails_eq_false_iff.mpr fun p hp hphase _ => hgood p hp hphase

/-- A name that stands for itself runs its row (log 2, log 3). -/
theorem step_name {s : State} {i : Instr} {rest : List Line} (hlines : s.lines = .op (.name i) :: rest)
    (hname : i.byName = true) : step s = exec i { s with lines := rest } := by
  have hdecode : decode s.sess.blState (.name i) = .instr i := by rw [decode, decodeName, if_pos hname]
  exact (step_op hlines).trans (present_of_decode hdecode rfl)

/-- A name that stands for a word is a step with that word (log 3). -/
theorem step_name_eq_step_encode {s : State} {i : Instr} {rest : List Line} (hlines : s.lines = .op (.name i) :: rest)
    (hname : i.byName = false) : step s = step { s with lines := .op (encode i) :: rest } :=
  (step_op hlines).trans ((present_name hname).trans (step_op (s := { s with lines := _ }) rfl).symm)

/-- The rows that stand for a word: those without a name, but for the two header rows (log 2). -/
theorem byName_eq_false {i : Instr} (hnamed : i.named = false)
    (hheader : ∀ pad page len crc, i ≠ .cmdSizeHeader pad page len crc ∧ i ≠ .cmdPageHeader pad page len crc) :
    i.byName = false := by
  unfold Instr.byName
  split
  · exact absurd rfl (hheader _ _ _ _).1
  · exact absurd rfl (hheader _ _ _ _).2
  · exact hnamed

end Machine

end Sys2Proof

/-! ## The statements -/

open Sys2Proof Sys2Proof.Machine Sys2Proof.Laws

/-- Settles O5: each row by the way its word selects it, a SETUP packet (`RoundTrip.of_packet`), a name
(`RoundTrip.of_named`) or a fixed word. -/
theorem decodeEncode : Obligations.DecodeEncode := fun i => match i with
  | .eprWrite e v => RoundTrip.eprWrite e v
  | .setStatus e d target => RoundTrip.setStatus e d target
  | .stall e => RoundTrip.stall e
  | .unstall e => RoundTrip.unstall e
  | .markRxDone e => RoundTrip.markRxDone e
  | .markTxReady e => RoundTrip.markTxReady e
  | .clearCtr e d => RoundTrip.clearCtr e d
  | .epConfigure e type addr rx tx => RoundTrip.epConfigure e type addr rx tx
  | .read e dest maxCount => RoundTrip.read e dest maxCount
  | .write e src count => RoundTrip.write e src count
  | .ack => RoundTrip.ack
  | .reject => RoundTrip.reject
  | .startIn src naturalLen => RoundTrip.startIn src naturalLen
  | .transmitSetupPacket => RoundTrip.transmitSetupPacket
  | .ctrlSetup => RoundTrip.ctrlSetup
  | .ctrlOut => RoundTrip.ctrlOut
  | .ctrlIn => RoundTrip.ctrlIn
  | .getStatus a wValue => RoundTrip.getStatus a wValue
  | .clearFeature a wValue => RoundTrip.clearFeature a wValue
  | .stdReserved2 a wValue => RoundTrip.stdReserved2 a wValue
  | .setFeature a wValue => RoundTrip.setFeature a wValue
  | .stdReserved4 a wValue => RoundTrip.stdReserved4 a wValue
  | .setAddress a wValue => RoundTrip.setAddress a wValue
  | .getDescriptor a type index => RoundTrip.getDescriptor a type index
  | .getDescriptorDevice a index => RoundTrip.getDescriptorDevice a index
  | .getDescriptorConfiguration a index => RoundTrip.getDescriptorConfiguration a index
  | .getDescriptorString a index => RoundTrip.getDescriptorString a index
  | .getDescriptorDeviceQualifier a index => RoundTrip.getDescriptorDeviceQualifier a index
  | .getDescriptorOther a type index => RoundTrip.getDescriptorOther a type index
  | .setDescriptor a wValue => RoundTrip.setDescriptor a wValue
  | .getConfiguration a wValue => RoundTrip.getConfiguration a wValue
  | .setConfiguration a wValue => RoundTrip.setConfiguration a wValue
  | .getInterface a wValue => RoundTrip.getInterface a wValue
  | .setInterface a wValue => RoundTrip.setInterface a wValue
  | .synchFrame a wValue => RoundTrip.synchFrame a wValue
  | .stdUnmapped a request wValue => RoundTrip.stdUnmapped a request wValue
  | .setLineCoding a wValue => RoundTrip.setLineCoding a wValue
  | .getLineCoding a wValue => RoundTrip.getLineCoding a wValue
  | .setControlLineState a wValue => RoundTrip.setControlLineState a wValue
  | .sendBreak a wValue => RoundTrip.sendBreak a wValue
  | .classOther a request wValue => RoundTrip.classOther a request wValue
  | .vendor a request wValue => RoundTrip.vendor a request wValue
  | .typeReserved a request wValue => RoundTrip.typeReserved a request wValue
  | .bulkOut => RoundTrip.bulkOut
  | .bulkIn => RoundTrip.bulkIn
  | .cmdSizeHeader pad page dataLen crc => RoundTrip.cmdSizeHeader pad page dataLen crc
  | .cmdPageHeader pad page dataLen crc => RoundTrip.cmdPageHeader pad page dataLen crc
  | .pageData => RoundTrip.pageData
  | .doneDiscard => RoundTrip.doneDiscard
  | .validateCmd want => RoundTrip.validateCmd want
  | .reportError code => RoundTrip.reportError code
  | .echo => RoundTrip.echo
  | .irqResume => RoundTrip.irqResume
  | .irqSuspend => RoundTrip.irqSuspend
  | .irqOther => RoundTrip.irqOther
  | .irqReset => RoundTrip.irqReset
  | .irqCtr => RoundTrip.irqCtr
  | .applyAddress => RoundTrip.applyAddress
  | .commOut => RoundTrip.commOut
  | .commIn => RoundTrip.commIn
  | .busSetup a b dtogRx dtogTx => RoundTrip.busSetup a b dtogRx dtogTx
  | .busOut a e b tail dtogRx => RoundTrip.busOut a e b tail dtogRx
  | .busIn a e dtogTx => RoundTrip.busIn a e dtogTx
  | .busRefuse a e d => RoundTrip.busRefuse a e d
  | .busReset => RoundTrip.busReset
  | .busCause c => RoundTrip.busCause c
  | .flashErase a => RoundTrip.flashErase a
  | .flashWrite a buf k => RoundTrip.flashWrite a buf k
  | .irqSetEnable v => RoundTrip.irqSetEnable v

/-- Settles O6: a SETUP packet is the fields its row was read from (`encode_of_decode_setup`), and so is a record. -/
theorem encodeDecode : Obligations.EncodeDecode := by
  refine ⟨fun bl p i => encode_of_decode_setup, ?_⟩
  rintro bl p i (rfl | rfl) h
  · exact encode_of_decodeRecord (mk := .cmdSizeHeader) (fun _ _ _ _ => rfl) h
  · exact encode_of_decodeRecord (mk := .cmdPageHeader) (fun _ _ _ _ => rfl) h

/-- Settles O8: the decoder's rejections, and what a step makes of each (`step_record_of_length` and the lemmas after
it). -/
theorem decodeRejects : Obligations.DecodeRejects := by
  refine ⟨fun bl p => decode_setup_of_length bl, ?_, fun p hlen hid => decodeRecord_of_id hlen hid,
    fun p hlen hid => decodeRecord_of_id hlen hid, decode_event_eq_reject, fun s rest => ⟨?_, ?_, ?_⟩⟩
  · rintro bl p (rfl | rfl) hlen <;> exact decodeRecord_of_length hlen
  · intro p hlines hlen
    rw [step_op hlines, present_of_reject rfl (decode_setup_of_length _ hlen) rfl]
    rfl
  · intro p want hlines hphase good
    exact ⟨step_record_of_length hlines hphase, step_record_of_crc hlines hphase, step_record_of_id hlines hphase⟩
  · intro n d su hlines hn
    rw [step_op hlines, present_of_reject rfl (decode_event_eq_reject _ n d su hn) rfl]
    rfl

/-- Settles O9: the words are read off the tables by computation. -/
theorem writtenWordsDecode : Obligations.WrittenWordsDecode := by
  unfold Obligations.WrittenWordsDecode
  decide

/-- Settles O10: a line is presented (`step_op`), and what is presented runs what it decodes to
(`present_of_decode`). -/
theorem stepRunsDecoded : Obligations.StepRunsDecoded := by
  refine ⟨?_, fun s i rest hlines => ⟨?_, ?_⟩⟩
  · intro s c rest i hlines hdecode hgood
    exact (step_op hlines).trans (present_of_decode hdecode (crcFails_eq_false hgood))
  · rintro (hnamed | ⟨pad, page, len, crc, rfl | rfl⟩)
    · exact step_name hlines (RoundTrip.byName_of_named hnamed)
    · exact step_name hlines rfl
    · exact step_name hlines rfl
  · exact fun hnamed hheader => step_name_eq_step_encode hlines (byName_eq_false hnamed hheader)

end

section
/-! SUPPORT. What every instruction answers (spec/30_encoding.md section 1): an operation of the block runs as
`State.run` and a move of the environment as `State.env`, where its operands fit; and the statements about all of
them. -/

namespace Sys2Proof.Machine

variable {s t : State} {i : Instr}

/-! ## Where the operands fit -/

/-- A READ whose bytes its destination holds is not refused (log 19). -/
theorem execRead_eq_run {e : Ep} {dest : Buffer} {m : Nat}
    (hfits : (Hw.read s.cfg e m s.hw).1.length ≤ bufferSize s.cfg dest) :
    exec (.read e dest m) s =
      s.run (fun s => { s.readInto e dest m with result := (Hw.read s.cfg e m s.hw).1.length }) :=
  if_neg (Nat.not_lt.mpr hfits)

theorem exec_eq_run (hblock : i.environment = false) (hfits : i.fits s.cfg) : ∃ k, exec i s = s.run k := by
  cases i with
  | read e dest m =>
    have hm : m ≤ bufferSize s.cfg dest := hfits
    exact ⟨_, execRead_eq_run (by rw [Hw.read_length]; omega)⟩
  | busSetup | busOut | busIn | busRefuse | busReset | busCause | irqSetEnable => cases hblock
  | _ => exact ⟨_, rfl⟩

theorem exec_eq_env (henv : i.environment = true) (hfits : i.fits s.cfg) : ∃ k, exec i s = s.env k := by
  cases i with
  | busSetup a b dr dt => exact ⟨_, if_neg (not_not_intro hfits)⟩
  | busOut a e b tail dr => exact ⟨_, if_neg (Nat.not_lt.mpr hfits)⟩
  | busIn a e dt => exact ⟨(State.onHw · fun _ h => h.busIn a e dt), rfl⟩
  | busRefuse a e d => exact ⟨(State.onHw · fun _ h => h.busRefuse a e d), rfl⟩
  | busReset => exact ⟨(State.onHw · fun _ h => h.busReset), rfl⟩
  | busCause c => exact ⟨(State.onHw · fun _ h => h.busCause c), rfl⟩
  | irqSetEnable on => exact ⟨({ · with irqEnable := on }), rfl⟩
  | _ => cases henv

/-! ## What was answered -/

/-- An operation of the block answers a next state only where it runs, whatever its operands. -/
theorem runnable_of_exec_next (h : exec i s = .next t) (hblock : i.environment = false) : s.runnable := by
  by_cases hfits : i.fits s.cfg
  · obtain ⟨k, hk⟩ := exec_eq_run hblock hfits
    exact (State.run_next (hk.symm.trans h)).1
  · cases i with
    | read e dest m =>
      have hread : execRead e dest m s = .next t := h
      rw [execRead] at hread
      split at hread
      · cases hread
      · exact (State.run_next hread).1
    | busSetup | busOut => cases hblock
    | _ => exact absurd trivial hfits

/-- The move of the bus side that a line of the environment makes (log 11): see `ready_of_exec_move`. -/
def busMove? : Instr → Option BusMove
  | .busSetup a b dr dt => some (.setup a b dr dt)
  | .busOut a e b tail dr => some (.out a e b tail dr)
  | .busIn a e dt => some (.take a e dt)
  | .busRefuse a e d => some (.refuse a e d)
  | .busReset => some .reset
  | .busCause c => some (.cause c)
  | _ => none

/-- A line of the bus side makes the move that the schedule could make too, or it is refused (93 section 3). -/
theorem ready_of_exec_move {m : BusMove} (h : exec i s = .next t) (hm : busMove? i = some m) :
    s.ready ∧ t = s.onHw fun c h => Hw.move c h m := by
  cases i with
  | busSetup a b dr dt =>
    cases hm
    rw [show exec (.busSetup a b dr dt) s = execBusSetup a b dr dt s from rfl, execBusSetup] at h
    split at h
    · cases h
    · exact State.env_next h
  | busOut a e b tail dr =>
    cases hm
    rw [show exec (.busOut a e b tail dr) s = execBusOut a e b tail dr s from rfl, execBusOut] at h
    split at h
    · cases h
    · exact State.env_next h
  | busIn | busRefuse | busReset | busCause =>
    cases hm
    exact State.env_next (k := fun s => s.onHw fun c h => Hw.move c h _) h
  | _ => cases hm

/-- The environment is the bus side and the session owner's interrupt enable (10_state R10 b, d). -/
theorem busMove?_or_irqSetEnable (henv : i.environment = true) :
    (∃ m, busMove? i = some m) ∨ ∃ on, i = .irqSetEnable on := by
  cases i with
  | irqSetEnable on => exact .inr ⟨on, rfl⟩
  | busSetup | busOut | busIn | busRefuse | busReset | busCause => exact .inl ⟨_, rfl⟩
  | _ => cases henv

/-- The environment moves the shared registers and the interrupt enable, and nothing else. -/
theorem frame_of_exec_environment (h : exec i s = .next t) (henv : i.environment = true) :
    t = { s with hw := t.hw, irqEnable := t.irqEnable } := by
  obtain ⟨m, hm⟩ | ⟨on, rfl⟩ := busMove?_or_irqSetEnable henv
  · rw [(ready_of_exec_move h hm).2]
    rfl
  · rw [(State.env_next (k := ({ · with irqEnable := on })) h).2]

/-! ## After FlashFatal -/

/-- No entry is due once FlashFatal stands (60_exceptions R272). -/
theorem State.entryIfDue_of_fatal {a : Addr32} (hfatal : s.fatal = some a) : s.entryIfDue = s := by
  simp [State.entryIfDue, State.due, hfatal]

/-- No instruction takes FlashFatal away (60_exceptions R272). -/
theorem fatal_of_exec_next {a : Addr32} (hfatal : s.fatal = some a) (h : exec i s = .next t) : t.fatal = some a := by
  cases henv : i.environment with
  | false =>
    have hnone := (runnable_of_exec_next h henv).2
    rw [hfatal] at hnone
    cases hnone
  | true => rw [frame_of_exec_environment h henv]; exact hfatal

/-- What is presented is refused, or runs an instruction on a state that differs in `cmd_buf` alone. -/
theorem present_cases (c : Code) (s : State) :
    (∃ i b, present c s = exec i { s with cmdBuf := b }) ∨ ∃ r, present c s = .refused r := by
  have hkeep : ∀ c, ∃ b, s.keepRecord c = { s with cmdBuf := b } := by
    intro c
    cases c with
    | bulk p => rw [State.keepRecord]; split <;> exact ⟨_, rfl⟩
    | _ => exact ⟨_, rfl⟩
  obtain ⟨b, hb⟩ := hkeep c.resolve
  simp only [present, hb]
  split
  · exact .inl ⟨_, _, rfl⟩
  · cases decode s.sess.blState c.resolve with
    | instr i => exact .inl ⟨i, s.cmdBuf, rfl⟩
    | reject r =>
      cases r with
      | recordLength | recordId => exact .inl ⟨.reportError _, b, rfl⟩
      | setupLength | eventEndpoint | notSelectedByName => exact .inr ⟨_, rfl⟩

theorem fatal_of_present_next {a : Addr32} {c : Code} (hfatal : s.fatal = some a) (h : present c s = .next t) :
    t.fatal = some a := by
  obtain ⟨i, b, hi⟩ | ⟨r, hr⟩ := present_cases c s
  · exact fatal_of_exec_next (s := { s with cmdBuf := b }) hfatal (hi.symm.trans h)
  · cases hr.symm.trans h

/-- An entry that a step would run is none once FlashFatal stands. -/
theorem env_entry_of_fatal {a : Addr32} (hfatal : s.fatal = some a) (h : s.env State.entryIfDue = .next t) :
    t.fatal = some a := by
  rw [(State.env_next h).2, State.entryIfDue_of_fatal hfatal, hfatal]

/-- Every step but a power-on keeps FlashFatal (60_exceptions R272). -/
theorem fatal_of_step_next {a : Addr32} (hfatal : s.fatal = some a) (h : step s = .next t) :
    t.fatal = some a ∨ ∃ rest, s.lines = .powerOn :: rest := by
  match hlines : s.lines with
  | [] =>
    simp only [step, hlines] at h
    exact .inl (env_entry_of_fatal hfatal h)
  | .powerOn :: rest => exact .inr ⟨rest, rfl⟩
  | .irq :: rest =>
    simp only [step, hlines] at h
    exact .inl (env_entry_of_fatal (s := { s with lines := rest }) hfatal h)
  | .op c :: rest =>
    rw [step_op hlines] at h
    exact .inl (fatal_of_present_next (s := { s with lines := rest }) hfatal h)

end Sys2Proof.Machine

/-! ## The statements -/

open Sys2Proof Sys2Proof.Machine

/-- Settles O11: where the operands fit, an instruction is `State.run` or `State.env` of its effect. -/
theorem everyInstructionCompletes : Obligations.EveryInstructionCompletes := by
  intro i s hfits r hfatal
  cases henv : i.environment with
  | false =>
    obtain ⟨k, hk⟩ := exec_eq_run henv hfits
    exact ⟨_, hk.trans (State.run_of_runnable ⟨r, hfatal henv⟩ k)⟩
  | true =>
    obtain ⟨k, hk⟩ := exec_eq_env henv hfits
    exact ⟨_, hk.trans (State.env_of_ready r k)⟩

/-- Settles O12: `State.run` faults, no entry is due, and only the environment still moves
(`fatal_of_exec_next`). -/
theorem flashFatalStops : Obligations.FlashFatalStops := by
  intro s a hfatal
  refine ⟨?_, ?_, fun t => fatal_of_step_next hfatal⟩
  · intro i hblock hfits
    obtain ⟨k, hk⟩ := exec_eq_run hblock hfits
    exact hk.trans (State.run_of_fatal hfatal k)
  · intro rest hlines r
    simp only [step, hlines]
    rw [State.env_of_ready (s := { s with lines := rest }) r,
      State.entryIfDue_of_fatal (s := { s with lines := rest }) hfatal]

/-- Settles O13: `State.run` and `State.env` look at the parameters first, and a move or a READ at its operands before
that. -/
theorem refused : Obligations.Refused := by
  intro s
  refine ⟨fun hbad => ⟨?_, ?_⟩, fun a b dr dt hb => if_pos hb, fun a e b tail dr hb => if_pos hb, ?_⟩
  · intro i hfatal hfits
    have henv : ∀ k, s.env k = .refused .badConfiguration := fun k => by simp [State.env, hbad]
    cases hkind : i.environment with
    | false =>
      obtain ⟨k, hk⟩ := exec_eq_run hkind hfits
      rw [hk, State.run, hfatal]
      exact henv k
    | true =>
      obtain ⟨k, hk⟩ := exec_eq_env hkind hfits
      exact hk.trans (henv k)
  · intro rest hlines
    simp [step, hlines, hbad]
  · intro e d m q hlong
    refine if_pos ?_
    rwa [Hw.read_quiet q, Hw.received_length]

end

section
/-! SUPPORT. The view ISTR (spec/10_state.md R14), writes of one register repeated, and accesses with a move of the bus
side between them (spec/40_endpoint_register.md R119, spec/70_reset_and_hazards.md R306, R319); and the statements
about them. -/

namespace Sys2Proof.Machine

/-! ## ISTR -/

section
variable {h : Hw}

/-- The least endpoint with a completion flag has the next completion. -/
theorem Hw.exists_nextCompletion_of_least {e : Ep} (hflag : ∃ d, eprFlag (h.epr.get e) d = true)
    (hleast : ∀ f : Ep, f.num < e.num → ∀ d, eprFlag (h.epr.get f) d = false) : ∃ d, h.NextCompletion e d := by
  obtain ⟨d, hd⟩ := hflag
  cases hrx : eprFlag (h.epr.get e) .rx with
  | true => exact ⟨.rx, hrx, hleast, nofun⟩
  | false =>
    cases d with
    | rx => exact absurd (hrx.symm.trans hd) (by decide)
    | tx => exact ⟨.tx, hd, hleast, fun _ => hrx⟩

/-- The direction of the next completion is told by the receive flag. -/
theorem Hw.NextCompletion.dir_eq {e : Ep} {d : Dir} (next : h.NextCompletion e d) :
    (d == .rx) = eprFlag (h.epr.get e) .rx := by
  cases d with
  | rx => exact next.flag.symm
  | tx => exact (next.receiveFirst rfl).symm

/-- `CTR` is the or of the six completion flags (10_state R14). -/
theorem Hw.istr_ctr_iff : h.istr.getLsbD 15 = true ↔ ∃ e d, eprFlag (h.epr.get e) d = true := by
  constructor
  · intro hctr
    obtain ⟨e, d, next⟩ := Hw.exists_nextCompletion hctr
    exact ⟨e, d, next.flag⟩
  · rintro ⟨e, d, hflag⟩
    by_contra hctr
    obtain hnone | ⟨f, hpending, hleast⟩ := none_or_least_pending h.epr
    · exact Bool.eq_false_iff.mp (hnone e) (eprPending_iff.mpr ⟨d, hflag⟩)
    · have hflags : ∀ g : Ep, g.num < f.num → ∀ d', eprFlag (h.epr.get g) d' = false := fun g hg d' =>
        Bool.eq_false_iff.mpr fun hset => Bool.eq_false_iff.mp (hleast g hg) (eprPending_iff.mpr ⟨d', hset⟩)
      obtain ⟨d', next⟩ := Hw.exists_nextCompletion_of_least (eprPending_iff.mp hpending) hflags
      exact hctr next.istr_ctr

/-- `EP_ID` and `DIR` are 0 where there is no completion (10_state R14). -/
theorem Hw.istr_low_of_noFlag (hno : ∀ e d, eprFlag (h.epr.get e) d = false) : h.istr.extractLsb' 0 5 = 0 := by
  rw [Hw.istr, completionView, firstPending_eq_none fun e => eprPending_eq_false (hno e)]
  apply BitVec.eq_of_getLsbD_eq
  intro i hi
  interval_cases i <;> simp

/-- Bits 7:5 of ISTR are reserved (10_state R14). -/
theorem Hw.istr_reserved : h.istr.extractLsb' 5 3 = 0 := by
  have hview : (completionView h.epr).extractLsb' 5 3 = 0 := by
    rw [completionView]
    cases firstPending h.epr with
    | none => exact (by decide : (0#16).extractLsb' 5 3 = 0)
    | some e =>
      have hdir : ∀ b : Bool,
          (0x8000#16 ||| (if b then 0x0010#16 else 0) ||| BitVec.ofNat 16 e.num).extractLsb' 5 3 = 0 := by
        cases e <;> decide
      exact hdir _
  rw [← hview, Hw.istr]
  refine extractLsb'_congr fun i hi => ?_
  rw [BitVec.getLsbD_or]
  interval_cases i <;> simp

/-- Bits 14:8 of ISTR as one field are the stored causes (10_state R14). -/
theorem Hw.istr_causes : h.istr.extractLsb' 8 7 = h.causes := by
  apply BitVec.eq_of_getLsbD_eq
  intro i hi
  rw [BitVec.getLsbD_extractLsb', Hw.getLsbD_istr h hi]
  simp [hi]

/-- A stored cause is a pending cause (R220). -/
theorem Hw.istr_ne_zero_of_causes (hcauses : h.causes ≠ 0) : h.istr &&& 0xFF00 ≠ 0 := by
  intro hzero
  apply hcauses
  rw [← Hw.istr_causes (h := h)]
  apply BitVec.eq_of_getLsbD_eq
  intro i hi
  have hbit := congrArg (fun v : Word16 => v.getLsbD (8 + i)) hzero
  rw [BitVec.getLsbD_extractLsb']
  interval_cases i <;> simpa using hbit

end

/-! ## Writes of one register repeated -/

/-- The word of `set_status` toggles one status field, so written twice it changes nothing (R119 (a)). -/
theorem regWriteValue_twice (r : Word16) (d : Dir) (t : Stat) :
    regWriteValue (regWriteValue r (setStatusWord d t r)) (setStatusWord d t r) = r := by
  apply word16_ext
  intro i
  simp only [regWriteValue, setStatusWord, transitionBits, preserveMask]
  generalize statCode t = k
  have hcancel : ∀ x y : Bool, (x ^^ (y ^^ x)) = y := by decide
  cases d <;> fin_cases i <;> simp [hcancel]

/-- Setting a status twice is setting it once (R119 (b)). -/
theorem Hw.setTo_setTo (h : Hw) (e : Ep) (d : Dir) (t : Stat) : (h.setTo e d t).setTo e d t = h.setTo e d t := by
  simp [Hw.setTo]

section
variable {s : State} (r : s.runnable) (q : s.quiet)
include r q

theorem exec_eprWrite_quiet (e : Ep) (v : Word16) :
    exec (.eprWrite e v) s = .next { s with
      hw := { s.hw with epr := s.hw.epr.set e (regWriteValue (s.hw.epr.get e) v) } } := by
  rw [exec_eprWrite r, State.onHw, Hw.regWrite_quiet q]

end

/-! ## A move between two accesses -/

section
variable {c : Config} {h : Hw} {moves : List BusMove} {rest : List (List BusMove)}

theorem Hw.slot_of_between (hb : h.between = moves :: rest) :
    h.slot c = moves.foldl (Hw.move c) { h with between := rest } := by
  rw [Hw.slot, hb]

/-- The device answers at its own address where the function is enabled (45_collaborators R240). -/
theorem Hw.answers_none (henabled : daddrEf h.daddr = true) : h.answers none = true := by
  simp [Hw.answers, Hw.addressed, henabled]

end

/-- The word of a SET_STATUS on the receive direction, written over the value that an IN transaction left: the
completion is lost and the NAK stands (70_reset R306 (a)). -/
theorem regWriteValue_eprAfterIn (r : Word16) (t : Stat) (dt : Bool) (hflag : eprFlag r .tx = false) :
    eprFlag (regWriteValue (eprAfterIn r dt) (setStatusWord .rx t r)) .tx = false ∧
    eprStat (regWriteValue (eprAfterIn r dt) (setStatusWord .rx t r)) .tx = .nak ∧
    eprStat (regWriteValue (eprAfterIn r dt) (setStatusWord .rx t r)) .rx = t := by
  have h7 : r[7] = false := by simpa [eprFlag] using hflag
  have htx : (regWriteValue (eprAfterIn r dt) (setStatusWord .rx t r)).extractLsb' 4 2 = statCode .nak := by
    apply BitVec.eq_of_getLsbD_eq
    intro i hi
    interval_cases i <;>
      simp [regWriteValue, eprAfterIn, setStatusWord, withBits, transitionBits, preserveMask, statCode]
  have hrx : (regWriteValue (eprAfterIn r dt) (setStatusWord .rx t r)).extractLsb' 12 2 = statCode t := by
    apply BitVec.eq_of_getLsbD_eq
    intro i hi
    interval_cases i <;> simp [regWriteValue, eprAfterIn, setStatusWord, withBits, transitionBits, preserveMask]
  refine ⟨?_, congrArg statOf htx, (congrArg statOf hrx).trans (statOf_statCode t)⟩
  simp [eprFlag, regWriteValue, eprAfterIn, setStatusWord, withBits, transitionBits, preserveMask, h7]

/-- An IN transaction between the read and the write of a SET_STATUS: the write goes over what it left (R306 (a)). -/
theorem Hw.setStatus_of_take {c : Config} {h : Hw} {e : Ep} {dt : Bool} {rest : List (List BusMove)}
    (hb : h.between = [] :: [.take none e dt] :: rest) (henabled : daddrEf h.daddr = true)
    (hvalid : eprStat (h.epr.get e) .tx = .valid) (d : Dir) (t : Stat) :
    Hw.setStatus c e d t h = { h with
      between := rest
      epr := h.epr.set e (regWriteValue (eprAfterIn (h.epr.get e) dt) (setStatusWord d t (h.epr.get e)))
      replies := h.replies ++ [.bytes (daddrAdd h.daddr) (h.outgoing e)] } := by
  have hread : h.slot c = { h with between := [.take none e dt] :: rest } := Hw.slot_of_between hb
  have hwrite : Hw.slot c { h with between := [.take none e dt] :: rest } =
      Hw.busIn { h with between := rest } none e dt :=
    Hw.slot_of_between (h := { h with between := _ }) rfl
  rw [Hw.busIn_of_valid (h := { h with between := rest }) (Hw.answers_none henabled) hvalid] at hwrite
  simp only [Hw.setStatus, hread, Hw.regWrite, hwrite, PerEp.get_set_self, PerEp.set_set]
  rfl

/-! ## A cause between the snapshot and the clearing write -/

/-- An entry with no RESUME, SUSPEND or RESET in its snapshot and no completion: what it does is the clearing write,
over whatever the bus side has set by then (70_reset R319). -/
theorem entryRule_of_unseen {s : State} {moves : List BusMove} (hb : s.hw.between = [[], moves])
    (hseen : s.hw.istr &&& 0x1C00 = 0) :
    entryRule s = drainRule (clearCausesRule { s with hw := { s.hw with between := [moves] } }) := by
  have hbit : ∀ i, (0x1C00#16).getLsbD i = true → s.hw.istr.getLsbD i = false := fun i hi => by
    simpa [BitVec.getLsbD_and, hi] using congrArg (fun w : Word16 => w.getLsbD i) hseen
  have hslot : s.slot = { s with hw := { s.hw with between := [moves] } } := by
    rw [State.slot, State.onHw, Hw.slot_of_between hb]; rfl
  have hresume : s.slot.hw.istr.getLsbD 12 = false := by rw [hslot]; exact hbit 12 rfl
  have hsuspend : s.slot.hw.istr.getLsbD 11 = false := by rw [hslot]; exact hbit 11 rfl
  have hreset : s.slot.hw.istr.getLsbD 10 = false := by rw [hslot]; exact hbit 10 rfl
  have hentry : entryRule s = drainRule (clearCausesRule s.slot) := by
    simp only [entryRule, hresume, hsuspend, hreset, Bool.false_eq_true, if_false]
  rw [hentry, hslot]

/-- The clearing write takes a cause with it that was set in the slot before it. -/
theorem clearCausesRule_of_cause {s : State} {k : Cause} (hb : s.hw.between = [[.cause k]]) :
    clearCausesRule s = { s with hw := { s.hw with between := [], causes := 0 } } := by
  rw [clearCausesRule, State.onHw, Hw.slot_of_between hb]
  rfl

end Sys2Proof.Machine

/-! ## The statements -/

open Sys2Proof Sys2Proof.Machine

/-- Settles O1: ISTR shows the next completion (`Hw.NextCompletion`), beside the stored causes. -/
theorem istrIsAView : Obligations.IstrIsAView := by
  intro h
  refine ⟨Hw.istr_ctr_iff, ?_, Hw.istr_low_of_noFlag, Hw.istr_causes, Hw.istr_reserved⟩
  intro e hflag hleast
  obtain ⟨d, next⟩ := Hw.exists_nextCompletion_of_least hflag hleast
  exact ⟨next.istr_epId, next.istr_dir.trans next.dir_eq⟩

/-- Settles O19: the raw word toggles a field and so undoes itself (`regWriteValue_twice`), where SET_STATUS computes a
new word from what it reads (`Hw.setTo_setTo`). -/
theorem repeatedWrites : Obligations.RepeatedWrites := by
  intro s e d t r q
  constructor
  · refine ⟨_, exec_eprWrite_quiet r q e _, ?_⟩
    rw [exec_eprWrite_quiet (by exact r) (by exact q)]
    simp only [PerEp.get_set_self, PerEp.set_set, regWriteValue_twice, PerEp.set_get]
  · refine ⟨_, exec_setStatus_quiet r q e d t, ?_⟩
    rw [exec_setStatus_quiet (by exact r) (by exact q)]
    exact congrArg (fun h => Host.Outcome.next { s with hw := h }) (Hw.setTo_setTo s.hw e d t)

/-- Settles O20: the write of a SET_STATUS goes over what the IN transaction left (`Hw.setStatus_of_take`), and the
clearing write of an entry over the cause (`clearCausesRule_of_cause`). -/
theorem interleavingHazards : Obligations.InterleavingHazards := by
  constructor
  · intro s e target dt rest r hb henabled hvalid hflag
    obtain ⟨hlost, hnak, hset⟩ := regWriteValue_eprAfterIn (s.hw.epr.get e) target dt hflag
    have hexec := exec_setStatus r e .rx target
    rw [State.onHw, Hw.setStatus_of_take hb henabled hvalid] at hexec
    refine ⟨_, hexec, ?_, ?_, ?_, rfl⟩ <;> simpa only [PerEp.get_set_self]
  · intro s rest r henable hlines hb hseen hcauses hctr
    let s0 : State := { s with lines := rest }
    have hdue : s0.due = true := (State.due_iff (s := s0) r).mpr ⟨henable, Hw.istr_ne_zero_of_causes hcauses⟩
    have hnone : ∀ e d, eprFlag (s.hw.epr.get e) d = false := fun e d =>
      Bool.eq_false_iff.mpr fun hset => Bool.eq_false_iff.mp hctr (Hw.istr_ctr_iff.mpr ⟨e, d, hset⟩)
    have hentry : entryRule s0 = { s0 with hw := { s.hw with between := [], causes := 0 } } := by
      rw [entryRule_of_unseen (s := s0) hb hseen, clearCausesRule_of_cause (k := .susp) (by rfl)]
      exact drainRule_of_done (by rfl) (Hw.istr_ctr_eq_false hnone)
    have hstep : step s = .next { s0 with hw := { s.hw with between := [], causes := 0 } } := by
      rw [step_irq r hlines, State.entryIfDue, if_pos hdue, hentry]
    exact ⟨_, hstep, rfl, rfl, rfl⟩

end

section
/-! SUPPORT. The operations of spec/41_buffer_transfer.md with the bus side still: what READ and WRITE answer, the bytes
that a queued packet leaves, and the statements about them. -/

namespace Sys2Proof.Machine

/-! ## Queued bytes -/

section
variable {e : Ep} {b : List Byte} {h h' : Hw} (hq : Hw.queues e b h h')
include hq

theorem Hw.queues.txBase_eq (f : Ep) : h'.txBase f = h.txBase f := by
  obtain ⟨-, -, -, hframe⟩ := hq
  rw [hframe]
  rfl

/-- A queued byte stands in the transmit area (41_buffer R131). -/
theorem Hw.queues.pmaByte_eq {i : Nat} (hi : i < b.length) : h'.pmaByte (h'.txBase e + i) = b[i] := by
  rw [hq.txBase_eq]
  exact hq.1 i _ (List.getElem?_eq_getElem hi)

end

/-- Units that are equal hold equal bytes (20_memory R54). -/
theorem Hw.pmaByte_eq_of_units {g h : Hw} {a x k : Nat}
    (hunits : ∀ i, i < ceil2 k → g.pmaUnit (a + 2 * i) = h.pmaUnit (x + 2 * i)) {i : Nat} (hi : i < k) :
    g.pmaByte (a + i) = h.pmaByte (x + i) := by
  obtain ⟨hlow, hhigh⟩ := le16_inj (hunits (i / 2) (by simp only [ceil2]; omega))
  obtain heven | hodd := Nat.mod_two_eq_zero_or_one i
  · rwa [show 2 * (i / 2) = i by omega] at hlow
  · rwa [show a + 2 * (i / 2) + 1 = a + i by omega, show x + 2 * (i / 2) + 1 = x + i by omega] at hhigh

/-! ## What READ and WRITE answer -/

section
variable {s : State} (r : s.runnable) (q : s.quiet)
include r q

theorem exec_read_quiet {e : Ep} {dest : Buffer} {m : Nat} (hfits : s.hw.readable s.cfg e m ≤ bufferSize s.cfg dest) :
    exec (.read e dest m) s = .next (State.withBuffer { s with
      hw := if e = .ctrl then s.hw.setTo .ctrl .rx .valid else s.hw
      result := s.hw.readable s.cfg e m } dest
        (overlay (s.buffer dest) (s.hw.received e (s.hw.readable s.cfg e m)))) := by
  have hlen : (Hw.read s.cfg e m s.hw).1.length = s.hw.readable s.cfg e m := by
    rw [Hw.read_quiet q, Hw.received_length]
  rw [execRead_eq_run (hlen ▸ hfits), State.run_of_runnable r, State.readInto_quiet q, hlen]
  cases dest <;> rfl

theorem exec_write_quiet (e : Ep) (src : List Byte) (count : Nat) :
    exec (.write e src count) s = .next { s with
      hw := s.hw.afterWrite e (queuedBytes s.cfg s.hw.powerOns e src count)
      result := min count (s.cfg.cap.get e) } := by
  rw [exec_write r, State.send_quiet q, Hw.write_fst]

end

end Sys2Proof.Machine

/-! ## The statements -/

open Sys2Proof Sys2Proof.Machine

/-- Settles O21: the destination is its old contents with the received bytes laid over them. -/
theorem readResult : Obligations.ReadResult := by
  intro s e dest m r q n hn
  refine ⟨_, exec_read_quiet r q hn, fun i hi => ?_, fun i hi => ?_⟩
  · rw [overlay_getElem?, Hw.received_length, if_pos (by exact hi)]
    exact Hw.received_getElem? _ _ _ _ hi
  · rw [overlay_getElem?, Hw.received_length]
    exact if_neg (Nat.not_lt.mpr hi)

/-- Settles O22: the queued bytes are a slice of the caller's buffer, and `Hw.afterWrite` queues them. -/
theorem writeResult : Obligations.WriteResult := by
  intro s e src count r q k
  exact ⟨_, _, exec_write_quiet r q e src count, rfl, sliceOf_chunk _ _ src 0 k, Hw.afterWrite_queues e _⟩

/-- Settles O23: equal units hold equal bytes (`Hw.pmaByte_eq_of_units`), so what `readResult` reads is what
`writeResult` queued. -/
theorem roundTrip : Obligations.RoundTrip := by
  intro s t u e f src n dest m rs qs hwrite k hsrc ru qu hcap hcount hm hdest hunits
  have ht : t.hw = s.hw.afterWrite e (src.take k) := by
    rw [exec_write_quiet rs qs, queuedBytes, sliceOf_eq_take _ _ _ _ hsrc] at hwrite
    cases hwrite
    rfl
  have hqueues : Hw.queues e (src.take k) s.hw t.hw := ht ▸ Hw.afterWrite_queues e _
  have hread : min m (min (u.hw.rxCount.get f).toNat (u.cfg.cap.get f)) = k := by omega
  obtain ⟨b, hexec, hbytes, -⟩ := readResult u f dest m ru qu (hread.trans_le hdest)
  rw [hread] at hexec hbytes
  refine ⟨_, hexec, ?_, ?_⟩
  · cases dest <;> rfl
  · rw [State.buffer_withBuffer]
    apply List.ext_getElem?
    intro i
    by_cases hi : i < k
    · have hlen : i < (src.take k).length := by rw [List.length_take]; omega
      rw [List.getElem?_take, if_pos hi, hbytes i hi, Hw.pmaByte_eq_of_units hunits hi, hqueues.pmaByte_eq hlen,
        ← List.getElem?_eq_getElem hlen]
    · rw [List.getElem?_take, List.getElem?_take, if_neg hi, if_neg hi]

end

section
/-! SUPPORT. The packets of spec/42_control_transfer.md: that an instruction carries its packet, CTRL_SETUP, the packets
of an IN data stage, and the statements about them. -/

namespace Sys2Proof.Machine

/-! ## An instruction carries its packet -/

section
variable {s : State} {i : Instr} {p : List Byte}

/-- A row that a SETUP packet selects captures that packet and runs a rule (log 2). -/
theorem exists_runSetup (h : encode i = .setup p) : ∃ rule, ∀ s, exec i s = runSetup p rule s := by
  cases i <;> cases h <;> exact ⟨_, fun _ => rfl⟩

/-- The packet that is captured does not depend on what stood there before. -/
theorem runSetup_capture (rule : State → State) : runSetup p rule (s.capture p) = runSetup p rule s := rfl

/-- The instruction of a row runs the row's rule (30_encoding R84). -/
theorem exec_setupRow {row : SetupRow} (h : encode (row.instr p) = .setup p) :
    exec (row.instr p) s = runSetup p (SetupRow.rule row) s := by
  cases row <;> exact congrArg (fun q => runSetup q _ s) (Code.setup.inj h)

section
variable (r : s.runnable)
include r

theorem exec_ctrlSetup : exec .ctrlSetup s = .next (ctrlSetupRule s) := State.run_of_runnable r _

theorem exec_ctrlIn : exec .ctrlIn s = .next (ctrlInRule s) := State.run_of_runnable r _

theorem exec_transmitSetupPacket : exec .transmitSetupPacket s =
    .next { (transmitRule s).2 with result := (transmitRule s).1.toNat } := State.run_of_runnable r _

theorem State.runnable.readInto (e : Ep) (dest : Buffer) (m : Nat) : (s.readInto e dest m).runnable := by
  cases dest <;> exact r.keep rfl (Hw.read_areas e m) rfl

end

end

theorem transmitRule_result (s : State) : (transmitRule s).2.result = s.result := by
  rw [transmitRule]
  split <;> rfl

/-! ## The next packet of a data stage -/

/-- Where its source holds the bytes, a chunk is those bytes. -/
theorem Chunk.eq_take {src left b : List Byte} {off n : Nat} (h : Chunk src off n b) (hleft : left <+: src.drop off)
    (hn : n ≤ left.length) : b = left.take n := by
  obtain ⟨hlen, hbytes⟩ := h
  apply List.ext_getElem?
  intro i
  rw [List.getElem?_take]
  split
  · have hi : i < left.length := by omega
    rw [List.getElem?_eq_getElem hi]
    refine hbytes i _ ‹_› ?_
    rw [← List.getElem?_drop]
    exact (List.prefix_iff_getElem?.mp hleft) i hi
  · exact List.getElem?_eq_none (by omega)

/-- What the host fetches is the packet that was queued (45_collaborators R243). -/
theorem Hw.queues.outgoing_eq {e : Ep} {b : List Byte} {h h' : Hw} (hq : Hw.queues e b h h') (hb : b.length < 2 ^ 10) :
    h'.outgoing e = b := by
  have hcount : (h'.txCount.get e).toNat = b.length := by
    obtain ⟨-, -, -, hframe⟩ := hq
    rw [hframe, PerEp.get_set_self, BitVec.toNat_ofNat, Nat.mod_eq_of_lt hb]
  have hlen : (h'.outgoing e).length = b.length := by rw [Hw.outgoing, Hw.pmaBytes_length, hcount]
  apply List.ext_getElem hlen
  intro i hi hi'
  have hbyte := Hw.outgoing_getElem? hi
  rw [List.getElem?_eq_getElem hi, hq.pmaByte_eq hi'] at hbyte
  exact Option.some.inj hbyte

/-! ## The rest of a data stage -/

/-- In `s` an IN data stage is under way, the bus side still, with the bytes `left` not yet queued
(42_control R145, R146). -/
structure State.Sending (s : State) (left : List Byte) : Prop where
  runnable : s.runnable
  quiet : s.quiet
  dirIn : s.ctl.dirIn = true
  rem : s.ctl.xferRem.toNat = left.length
  source : left <+: (sourceBytes s s.ctl.xferSrc).drop s.ctl.xferOff.toNat
  noWrap : s.ctl.xferOff.toNat + left.length < 2 ^ 16

/-- The bytes of a source do not depend on how much of them is sent. -/
theorem sourceBytes_withOffsets (s : State) (h : Hw) (off rem : Word16) (src : XferSrc) :
    sourceBytes { s with hw := h, ctl := { s.ctl with xferOff := off, xferRem := rem } } src = sourceBytes s src := by
  cases src <;> rfl

section
variable {s : State} {left : List Byte}

theorem State.Sending.enter (S : s.Sending left) (x : CtlState) : (s.enter x).Sending left := by
  have hsource : sourceBytes (s.enter x) (s.enter x).ctl.xferSrc = sourceBytes s s.ctl.xferSrc := by
    rw [show (s.enter x).ctl.xferSrc = s.ctl.xferSrc from rfl]
    cases s.ctl.xferSrc <;> rfl
  exact ⟨S.runnable, S.quiet, S.dirIn, S.rem, hsource ▸ S.source, S.noWrap⟩

variable (S : s.Sending left)
include S

theorem State.Sending.nextChunk_eq : nextChunk s = left.take (packetSize s.cfg) := by
  have hchunk := sliceOf_chunk .source s.hw.powerOns (sourceBytes s s.ctl.xferSrc) s.ctl.xferOff.toNat
    (min s.ctl.xferRem.toNat (packetSize s.cfg))
  rw [S.rem] at hchunk
  rw [nextChunk, S.rem, hchunk.eq_take S.source (Nat.min_le_left _ _), List.take_eq_take_iff]
  omega

/-- TRANSMIT_SETUP_PACKET queues the next packet, and the bytes after it are left (42_control R146). -/
theorem State.Sending.transmit : ∃ t, transmitRule s = (true, t) ∧ t.cfg = s.cfg ∧
    t.hw.outgoing .ctrl = left.take (packetSize s.cfg) ∧ t.Sending (left.drop (packetSize s.cfg)) := by
  obtain ⟨h', heq, hwrite⟩ := transmitRule_of_dirIn s S.dirIn
  obtain rfl := hwrite S.quiet
  have hsize : packetSize s.cfg ≤ 1023 := cap_le S.runnable.1.1 .ctrl
  refine ⟨_, heq, rfl, ?_, ?_⟩
  · rw [S.nextChunk_eq]
    exact (Hw.afterWrite_queues .ctrl _).outgoing_eq (by rw [List.length_take]; omega)
  · have hnoWrap := S.noWrap
    have hrem := S.rem
    have hlt := s.ctl.xferRem.isLt
    obtain ⟨n, hn⟩ : ∃ n, n = min s.ctl.xferRem.toNat (packetSize s.cfg) := ⟨_, rfl⟩
    have hdrop : left.drop (packetSize s.cfg) = left.drop n := by
      rw [List.drop_eq_drop_iff]
      omega
    have hoff : (s.ctl.xferOff + BitVec.ofNat 16 n).toNat = s.ctl.xferOff.toNat + n := by
      rw [BitVec.toNat_add, BitVec.toNat_ofNat]
      omega
    have hleft : (s.ctl.xferRem - BitVec.ofNat 16 n).toNat = left.length - n := by
      rw [BitVec.toNat_sub, BitVec.toNat_ofNat]
      omega
    rw [← hn, hdrop]
    refine ⟨S.runnable.keep rfl ⟨rfl, rfl⟩ rfl, S.quiet, S.dirIn, ?_, ?_, ?_⟩
    · rw [List.length_drop]; exact hleft
    · have htail : left.drop n <+:
          (sourceBytes s s.ctl.xferSrc).drop (s.ctl.xferOff + BitVec.ofNat 16 n).toNat := by
        rw [hoff, ← List.drop_drop]
        exact S.source.drop n
      exact (congrArg (left.drop n <+: List.drop (s.ctl.xferOff + BitVec.ofNat 16 n).toNat ·)
        (sourceBytes_withOffsets s _ _ _ _)).mpr htail
    · rw [hoff, List.length_drop]; omega

/-- CTRL_IN sends the next packet as long as bytes are left (42_control R176). -/
theorem State.Sending.ctrlIn (hleft : left ≠ []) : ∃ t, exec .ctrlIn s = .next t ∧ t.cfg = s.cfg ∧
    t.hw.outgoing .ctrl = left.take (packetSize s.cfg) ∧ t.Sending (left.drop (packetSize s.cfg)) := by
  obtain ⟨t, heq, hcfg, hout, T⟩ := S.transmit
  have hrem : s.ctl.xferRem ≠ 0 := by
    intro hzero
    have := S.rem
    rw [hzero] at this
    exact hleft (List.eq_nil_of_length_eq_zero this.symm)
  have hrule : ctrlInRule s = t.enter .dataIn := by
    rw [ctrlInRule, if_neg hrem, heq]
    rfl
  exact ⟨_, (exec_ctrlIn S.runnable).trans (congrArg _ hrule), hcfg, hout, T.enter .dataIn⟩

end

/-- The lengths of the packets of `n` bytes, `size` to a packet, with no empty one. -/
def packetLengths (size n : Nat) : List Nat :=
  List.replicate (n / size) size ++ if n % size = 0 then [] else [n % size]

theorem packetLengths_cons {size n : Nat} (hsize : 0 < size) (hn : n ≠ 0) :
    min size n :: packetLengths size (n - size) = packetLengths size n := by
  by_cases hlt : n < size
  · simp [packetLengths, Nat.min_eq_right hlt.le, Nat.sub_eq_zero_of_le hlt.le, Nat.div_eq_of_lt hlt,
      Nat.mod_eq_of_lt hlt, hn]
  · obtain ⟨k, rfl⟩ := Nat.exists_eq_add_of_le' (Nat.le_of_not_lt hlt)
    simp [packetLengths, Nat.add_div_right _ hsize, List.replicate_succ]

/-- CTRL_INs bring what is left, in packets of full size but for the last (42_control R180). -/
theorem State.Sending.laterPackets {s : State} {left : List Byte} (S : s.Sending left) {k : Nat}
    (hk : left.length ≤ k) : (s.laterPackets k).flatten = left ∧
      (s.laterPackets k).map List.length = packetLengths (packetSize s.cfg) left.length := by
  have hsize : 0 < packetSize s.cfg := cap_pos S.runnable.1.1 .ctrl
  induction k generalizing s left with
  | zero =>
    obtain rfl := List.eq_nil_of_length_eq_zero (Nat.le_zero.mp hk)
    simp [State.laterPackets, packetLengths]
  | succ k ih =>
    by_cases hleft : left = []
    · subst hleft
      have hrem : s.ctl.xferRem = 0 := BitVec.eq_of_toNat_eq S.rem
      simp [State.laterPackets, hrem, packetLengths]
    · obtain ⟨t, hexec, hcfg, hout, T⟩ := S.ctrlIn hleft
      have hpos : left.length ≠ 0 := mt List.eq_nil_of_length_eq_zero hleft
      have hrem : s.ctl.xferRem ≠ 0 := by
        intro hzero
        have := S.rem
        rw [hzero] at this
        exact hpos this.symm
      obtain ⟨hflatten, hlengths⟩ := ih T (by rw [List.length_drop]; omega) (hcfg ▸ hsize)
      simp only [State.laterPackets, if_neg hrem, hexec, List.flatten_cons, List.map_cons, hout, hflatten, hlengths]
      constructor
      · exact List.take_append_drop _ _
      · rw [hcfg, List.length_take, List.length_drop, packetLengths_cons hsize hpos]

/-- START_IN begins the stage of the first `total` bytes of its source (42_control R145). -/
theorem startInRule_sending {s : State} (r : s.runnable) (q : s.quiet) (hdir : s.ctl.dirIn = true) {src : XferSrc}
    {natural : Word16} {total : Nat} (htotal : min natural.toNat s.ctl.wLength.toNat = total)
    (hsource : total ≤ (sourceBytes s src).length) :
    (startInRule src natural s).cfg = s.cfg ∧
    (startInRule src natural s).hw.outgoing .ctrl = ((sourceBytes s src).take total).take (packetSize s.cfg) ∧
    (startInRule src natural s).Sending (((sourceBytes s src).take total).drop (packetSize s.cfg)) := by
  let u : State := { s with ctl.xferSrc := src, ctl.xferOff := 0, ctl.xferRem := min16 natural s.ctl.wLength }
  have hlt : total < 2 ^ 16 := by have := natural.isLt; omega
  have hlen : ((sourceBytes s src).take total).length = total := List.length_take_of_le hsource
  have hrem : u.ctl.xferRem.toNat = total := by
    rw [← htotal, show u.ctl.xferRem = min16 natural s.ctl.wLength from rfl, min16_eq_ofNat, BitVec.toNat_ofNat,
      Nat.mod_eq_of_lt (htotal ▸ hlt)]
  have hbytes : sourceBytes u u.ctl.xferSrc = sourceBytes s src := by cases src <;> rfl
  have U : u.Sending ((sourceBytes s src).take total) := by
    refine ⟨r, q, hdir, hrem.trans hlen.symm, ?_, ?_⟩
    · rw [hbytes]
      exact List.take_prefix _ _
    · rw [hlen]
      exact (Nat.zero_add total).trans_lt hlt
  obtain ⟨t, heq, hcfg, hout, T⟩ := U.transmit
  have hrule : startInRule src natural s = t.enter .dataIn := by
    rw [startInRule, heq]
    rfl
  rw [hrule]
  exact ⟨hcfg, hout, T.enter .dataIn⟩

end Sys2Proof.Machine

/-! ## The statements -/

open Sys2Proof Sys2Proof.Machine

/-- Settles O24: an instruction's first act is to capture its packet, whatever stood in its place
(`exists_runSetup`). -/
theorem packetIsCaptured : Obligations.PacketIsCaptured := by
  refine fun i s p => ⟨fun henc => ?_, ?_⟩
  · obtain ⟨rule, hrule⟩ := exists_runSetup henc
    rw [hrule, hrule]
    exact (runSetup_capture rule).symm
  · rintro ⟨pad, page, len, crc, rfl | rfl⟩ _ <;> rfl

/-- Settles O25: the READ leaves the packet in `setup`, and the row it selects runs on it (`exec_setupRow`). -/
theorem setupEventDispatches : Obligations.SetupEventDispatches := by
  intro s u bl i r hread hdecode
  have hexec := exec_ctrlSetup r
  rw [exec_read_of_le r (Nat.le_refl 8)] at hread
  cases hread
  obtain ⟨-, rfl⟩ := decode_setup_eq_instr hdecode
  refine ⟨?_, _, hexec⟩
  rw [hexec, exec_setupRow (encode_of_decode_setup hdecode), ctrlSetupRule_eq]
  exact (runSetup_of_captured (r.readInto .ctrl .setup 8) rfl _).symm

/-- Settles O28: one clause for each value of the direction bit. -/
theorem transmitSetupPacket : Obligations.TransmitSetupPacket := by
  intro s r
  have hexec := exec_transmitSetupPacket r
  constructor
  · intro hdir
    have hguard : transmitRule s = (false, s.logEvent .badDirection) := if_neg (by simp [hdir])
    rw [hexec, hguard]
    rfl
  · intro hdir n
    obtain ⟨h', heq, hwrite⟩ := transmitRule_of_dirIn s hdir
    rw [heq] at hexec
    refine ⟨_, hexec, rfl, fun q => ⟨nextChunk s, sliceOf_chunk _ _ _ _ _, ?_⟩⟩
    rw [hwrite q]
    exact Hw.afterWrite_queues .ctrl _

/-- Settles O29: START_IN sends the first packet (`startInRule_sending`) and CTRL_INs the others
(`State.Sending.laterPackets`). -/
theorem dataStageIsClamped : Obligations.DataStageIsClamped := by
  intro s t src natural k r q hdir hexec total size hsource hk packets
  rw [show exec (.startIn src natural) s = .next (startInRule src natural s) from State.run_of_runnable r _] at hexec
  cases hexec
  obtain ⟨hcfg, hout, S⟩ := startInRule_sending r q hdir (src := src) rfl hsource
  have hsize : 0 < size := cap_pos r.1.1 .ctrl
  have hlen : ((sourceBytes s src).take total).length = total := List.length_take_of_le hsource
  obtain ⟨hflatten, hlengths⟩ := S.laterPackets (k := k) (by rw [List.length_drop, hlen]; omega)
  constructor
  · rw [List.flatten_cons, hout, hflatten, List.take_append_drop]
  · rw [List.map_cons, hout, hlengths, hcfg, List.length_take, List.length_drop, hlen]
    by_cases hzero : total = 0
    · simp [hzero, packetLengths]
    · refine (packetLengths_cons hsize hzero).trans ?_
      simp only [packetLengths, hzero, ne_eq, not_false_eq_true, and_true]

/-- Settles O37: with bytes left CTRL_IN is TRANSMIT_SETUP_PACKET and a phase, and the phase alone without. -/
theorem controlIn : Obligations.ControlIn := by
  intro s r after
  have hphase : afterCtrlIn false s.ctl.ctlState = after := by
    cases hstate : s.ctl.ctlState <;> simp [after, hstate, afterCtrlIn]
  constructor
  · intro hrem
    rw [exec_ctrlIn r, ctrlInRule, if_pos hrem, hphase]
    rfl
  · intro hrem
    refine ⟨_, exec_transmitSetupPacket r, ?_⟩
    rw [exec_ctrlIn r, ctrlInRule, if_neg hrem, ← transmitRule_result s]
    cases (transmitRule s).1
    · rw [hphase]
      rfl
    · rfl

end

section
/-! SUPPORT. The flash calls (spec/45_collaborators.md R250 to R253) and the two kinds of bulk packet that make one,
page headers and page data (spec/43_bulk_protocol.md R194 to R196); and the statements about them. -/

namespace Sys2Proof.Machine

/-! ## The flash calls -/

section
variable {s : State} {a : Addr32}

theorem oddAddress_eq_false (heven : a.toNat % 2 = 0) : oddAddress a = false :=
  Bool.eq_false_iff.mpr fun hodd => absurd ((oddAddress_iff a).mp hodd) (by omega)

theorem State.flashErase_of_odd (hodd : a.toNat % 2 = 1) : s.flashErase a = { s with fatal := some a } :=
  if_pos ((oddAddress_iff a).mpr hodd)

theorem State.flashErase_of_even (heven : oddAddress a = false) :
    s.flashErase a = { s with flash := storeFlash s.flash a (List.replicate s.cfg.pageSize 0xFF) } := by
  simp [State.flashErase, heven]

/-- The bytes a FLASH_WRITE of `k` units stores (45_collaborators R251): see `State.flashWrite_of_even`. -/
def State.writtenBytes (s : State) (buf : List Byte) (k : Nat) : List Byte :=
  sliceOf .caller s.hw.powerOns buf 0 (2 * k)

variable {buf : List Byte} {k : Nat}

theorem State.writtenBytes_length : (s.writtenBytes buf k).length = 2 * k := by simp [State.writtenBytes, sliceOf]

theorem State.flashWrite_of_odd (hodd : a.toNat % 2 = 1) : s.flashWrite a buf k = { s with fatal := some a } :=
  if_pos ((oddAddress_iff a).mpr hodd)

theorem State.flashWrite_of_even (heven : oddAddress a = false) :
    s.flashWrite a buf k = { s with flash := storeFlash s.flash a (s.writtenBytes buf k) } := by
  simp [State.flashWrite, State.writtenBytes, heven]

/-- Each of the last 2^32 bytes of a write stands at its address modulo 2^32 (log 17). -/
theorem State.exists_read?_writtenBytes {m : Memory} {i : Nat} (hi : i < 2 * k) (hlast : 2 * k ≤ i + 2 ^ 32) :
    ∃ b, (storeFlash m a (s.writtenBytes buf k)).read? (a + BitVec.ofNat 32 i).toNat = some b ∧
      ∀ y, buf[i]? = some y → b = y := by
  obtain ⟨hlen, hbytes⟩ := sliceOf_chunk .caller s.hw.powerOns buf 0 (2 * k)
  have hread := read?_storeFlash_at m a (bs := s.writtenBytes buf k) (hi.trans_eq State.writtenBytes_length.symm)
    (State.writtenBytes_length.trans_le hlast)
  refine ⟨_, hread.trans (List.getElem?_eq_getElem (hi.trans_eq hlen.symm)), fun y hy => ?_⟩
  have hbyte := hbytes i y hi (by rwa [Nat.zero_add])
  exact (List.getElem?_eq_some_iff.mp hbyte).2

end

/-! ## Page headers -/

section
variable {s : State} (r : s.runnable)
include r

theorem State.runnable.send (e : Ep) (src : List Byte) (count : Nat) : (s.send e src count).runnable :=
  r.onHw (Hw.write_areas e src count)

theorem State.runnable.ackPageHeader : (ackPageHeader s).runnable := by
  rw [Machine.ackPageHeader]
  split
  · exact r
  · exact r.send .data s.cmdBuf 8
  · exact r.send .data _ 1

end

/-- The acknowledgement of a page header is a packet, or nothing: it reaches the shared registers alone
(43_bulk R194). -/
theorem ackPageHeader_frame (s : State) : ackPageHeader s = { s with hw := (ackPageHeader s).hw } := by
  rw [ackPageHeader]
  split <;> rfl

/-- The state of a page header that is yet to be acknowledged: its page is erased and open for data (43_bulk R194). See
`pageHeaderRule_eq`. -/
def State.pageOpened (s : State) : State :=
  { s with
    flash := storeFlash s.flash (pageBase s.cfg s.sess.curPage) (List.replicate s.cfg.pageSize 0xFF)
    sess.lastCmd := cmdRecordOf s.cmdBuf
    sess.expectedLen := (cmdRecordOf s.cmdBuf).dataLen
    sess.pageOffset := 0
    sess.headerAccepted := true
    sess.blState := .receivingPage }

/-- A page starts at an even address (00_scope R5), so its erase is never fatal. -/
theorem pageHeaderRule_eq {s : State} (r : s.runnable) : pageHeaderRule s = ackPageHeader s.pageOpened := by
  have heven : oddAddress (pageBase s.cfg s.sess.curPage) = false := pageBase_even r.1.1 _
  simp only [pageHeaderRule, State.flashErase_of_even heven]
  exact if_neg (by simp [r.2])

theorem exec_cmdPageHeader_of_captured {s : State} (r : s.runnable) {pad : Byte} {page len crc : Word16}
    (hcmd : s.cmdBuf = recordOf 0x21 pad page len crc) :
    exec (.cmdPageHeader pad page len crc) s = .next (ackPageHeader s.pageOpened) := by
  have hexec : exec (.cmdPageHeader pad page len crc) s =
      .next (pageHeaderRule { s with cmdBuf := recordOf 0x21 pad page len crc }) := State.run_of_runnable r _
  rw [hexec, ← hcmd, ← pageHeaderRule_eq r]

/-! ## Page data -/

/-- The address where page data is written (43_bulk R195). -/
def State.pageAddress (s : State) : Addr32 := pageBase s.cfg s.sess.curPage + s.sess.pageOffset

/-- The address is the page's base and the offset, modulo 2^32 (43_bulk R203). -/
theorem State.pageAddress_eq_ofNat (s : State) : s.pageAddress = BitVec.ofNat 32
    (s.cfg.flashBase.toNat + s.sess.curPage.toNat * s.cfg.pageSize + s.sess.pageOffset.toNat) := by
  rw [BitVec.ofNat_add, BitVec.ofNat_toNat, BitVec.setWidth_eq]
  rfl

/-- How many bytes of page data arrived (43_bulk R195). -/
def State.pageBytes (s : State) : Nat := min (s.hw.rxCount.get .data).toNat (s.cfg.cap.get .data)

/-- `scratch` has room for a whole packet, and for the whole units it fills (00_scope R5). -/
theorem State.pageBytes_le (s : State) : s.pageBytes ≤ 2 * ceil2 s.pageBytes ∧
    2 * ceil2 s.pageBytes ≤ scratchSize s.cfg := by
  simp only [State.pageBytes, ceil2, scratchSize, PerEp.get]
  omega

theorem readable_scratch (s : State) : s.hw.readable s.cfg .data (scratchSize s.cfg) = s.pageBytes := by
  have hle := s.pageBytes_le
  simp only [State.pageBytes, Hw.readable] at hle ⊢
  omega

/-- `scratch` after its fill (43_bulk R195): see `readInto_scratch_quiet`. -/
def State.filledScratch (s : State) : List Byte := overlay s.scratch (s.hw.received .data s.pageBytes)

/-- The page data written to program memory: whole units, from `scratch` (43_bulk R195). See `pageDataRule_of_even`. -/
def State.writtenPage (s : State) : List Byte := s.filledScratch.take (2 * ceil2 s.pageBytes)

section
variable {s : State}

theorem State.filledScratch_length (hscratch : s.scratch.length = scratchSize s.cfg) :
    s.filledScratch.length = scratchSize s.cfg := by
  have hle := s.pageBytes_le
  rw [State.filledScratch, overlay_length (by rw [Hw.received_length]; omega), hscratch]

theorem State.filledScratch_received {i : Nat} (hi : i < s.pageBytes) :
    s.filledScratch[i]? = some (s.hw.pmaByte (s.hw.rxBase .data + i)) := by
  rw [State.filledScratch, overlay_getElem?, Hw.received_length, if_pos hi, Hw.received_getElem? _ _ _ _ hi]

theorem State.filledScratch_kept {i : Nat} (hi : s.pageBytes ≤ i) : s.filledScratch[i]? = s.scratch[i]? := by
  rw [State.filledScratch, overlay_getElem?, Hw.received_length, if_neg (Nat.not_lt.mpr hi)]

theorem State.writtenPage_length (hscratch : s.scratch.length = scratchSize s.cfg) :
    s.writtenPage.length = 2 * ceil2 s.pageBytes :=
  List.length_take_of_le (s.pageBytes_le.2.trans_eq (State.filledScratch_length hscratch).symm)

/-- What program memory reads after page data is written (43_bulk R195). -/
theorem read?_storeFlash_writtenPage (v : configValid s.cfg = true) (hscratch : s.scratch.length = scratchSize s.cfg)
    (m : Memory) (a x : Addr32) : (storeFlash m a s.writtenPage).read? x.toNat =
      if (x - a).toNat < 2 * ceil2 s.pageBytes then s.filledScratch[(x - a).toNat]? else m.read? x.toNat := by
  have hlen := State.writtenPage_length hscratch
  have hle := s.pageBytes_le.2
  have hcap := cap_le v .data
  have hsmall : s.writtenPage.length ≤ 2 ^ 32 := by
    simp only [scratchSize, PerEp.get] at hle hcap
    omega
  rw [read?_storeFlash m a hsmall, hlen]
  split
  · rw [State.writtenPage, List.getElem?_take, if_pos ‹_›]
  · rfl

section
variable (q : s.quiet)
include q

theorem readInto_scratch_quiet :
    s.readInto .data .scratch (scratchSize s.cfg) = { s with scratch := s.filledScratch } := by
  rw [State.readInto_quiet q, readable_scratch]
  rfl

theorem pageDataRule_quiet : pageDataRule s =
    let t := State.flashWrite { s with scratch := s.filledScratch } s.pageAddress s.filledScratch (ceil2 s.pageBytes)
    if t.fatal.isSome then t else { t with sess := pageAdvance s.pageBytes t.sess } := by
  have hlen : (Hw.read s.cfg .data (scratchSize s.cfg) s.hw).1.length = s.pageBytes := by
    rw [Hw.read_quiet q, Hw.received_length, readable_scratch]
  simp only [pageDataRule, hlen, readInto_scratch_quiet q]
  rfl

theorem pageDataRule_of_odd (hodd : s.pageAddress.toNat % 2 = 1) :
    pageDataRule s = { s with scratch := s.filledScratch, fatal := some s.pageAddress } := by
  rw [pageDataRule_quiet q, State.flashWrite_of_odd hodd]
  rfl

theorem pageDataRule_of_even (hf : s.fatal = none) (hscratch : s.scratch.length = scratchSize s.cfg)
    (heven : s.pageAddress.toNat % 2 = 0) : pageDataRule s = { s with
      scratch := s.filledScratch
      flash := storeFlash s.flash s.pageAddress s.writtenPage
      sess := pageAdvance s.pageBytes s.sess } := by
  have hbytes : State.writtenBytes { s with scratch := s.filledScratch } s.filledScratch (ceil2 s.pageBytes) =
      s.writtenPage :=
    sliceOf_eq_take _ _ _ _ (s.pageBytes_le.2.trans_eq (State.filledScratch_length hscratch).symm)
  rw [pageDataRule_quiet q, State.flashWrite_of_even (oddAddress_eq_false heven), hbytes]
  exact if_neg (by simp [hf])

end

end

/-- The session while the page is not full (43_bulk R195). -/
theorem pageAdvance_of_lt {n : Nat} {x : FlashSession}
    (h : (x.pageOffset + BitVec.ofNat 32 n).toNat < x.expectedLen.toNat) :
    pageAdvance n x = { x with pageOffset := x.pageOffset + BitVec.ofNat 32 n } := if_neg (Nat.not_le.mpr h)

/-- The session when the page is full (43_bulk R196). -/
theorem pageAdvance_of_ge {n : Nat} {x : FlashSession}
    (h : x.expectedLen.toNat ≤ (x.pageOffset + BitVec.ofNat 32 n).toNat) :
    pageAdvance n x = pageComplete { x with pageOffset := x.pageOffset + BitVec.ofNat 32 n } := if_pos h

end Sys2Proof.Machine

/-! ## The statements -/

open Sys2Proof Sys2Proof.Machine

/-- Settles O60: an erase stores equal bytes (`read?_storeFlash_replicate`) and a write the caller's
(`State.exists_read?_writtenBytes`). -/
theorem flashCalls : Obligations.FlashCalls := by
  intro s a buf k r
  have herase : exec (.flashErase a) s = .next (s.flashErase a) := State.run_of_runnable r _
  have hwrite : exec (.flashWrite a buf k) s = .next (s.flashWrite a buf k) := State.run_of_runnable r _
  constructor
  · intro hodd
    rw [herase, hwrite, State.flashErase_of_odd hodd, State.flashWrite_of_odd hodd]
    exact ⟨rfl, rfl⟩
  · intro heven
    rw [State.flashErase_of_even (oddAddress_eq_false heven)] at herase
    rw [State.flashWrite_of_even (oddAddress_eq_false heven)] at hwrite
    refine ⟨⟨_, herase, rfl, read?_storeFlash_replicate _ a _ _⟩, _, hwrite, rfl, ?_, ?_⟩
    · exact fun i => State.exists_read?_writtenBytes
    · exact fun x hx => read?_storeFlash_outside _ a (State.writtenBytes_length.trans_le hx)

/-- Settles O41: the header opens its page (`pageHeaderRule_eq`), and its acknowledgement reaches the shared registers
alone. -/
theorem pageHeader : Obligations.PageHeader := by
  intro s pad page len crc r hcmd base
  have hlen : s.cmdBuf.length = 8 := by rw [hcmd, recordOf_length]
  have hrecord : cmdRecordOf s.cmdBuf = { id := 0x21, page := page, dataLen := len, crc := crc } := by
    rw [hcmd, cmdRecordOf_recordOf]
  have ropened : s.pageOpened.runnable := r
  have hexec := exec_cmdPageHeader_of_captured r hcmd
  have hframe := ackPageHeader_frame s.pageOpened
  refine ⟨_, hexec, ?_, ?_, ?_, ?_, ?_⟩
  · rw [hframe, State.pageOpened, hrecord]
  · rw [hframe]
    exact read?_storeFlash_replicate s.flash base _ 0xFF
  · intro hack
    rw [ackPageHeader, show s.pageOpened.cfg.ackDataHeader = .none from hack]
    rfl
  · intro hack q
    rw [ackPageHeader, show s.pageOpened.cfg.ackDataHeader = .echo from hack]
    exact queues_echoRule ropened q hlen
  · intro hack q
    rw [ackPageHeader, show s.pageOpened.cfg.ackDataHeader = .noError from hack]
    exact queues_reportRule ropened q .noError

/-- Settles O42: the rule by the parity of its address (`pageDataRule_of_odd`, `pageDataRule_of_even`). -/
theorem pageData : Obligations.PageData := by
  intro s r q hscratch n a offset
  have hexec : exec .pageData s = .next (pageDataRule s) := State.run_of_runnable r _
  have haddress : s.pageAddress = a := s.pageAddress_eq_ofNat
  obtain heven | hodd := Nat.mod_two_eq_zero_or_one a.toNat
  · rw [pageDataRule_of_even q r.2 hscratch (haddress ▸ heven), haddress] at hexec
    refine ⟨_, hexec, fun _ => State.filledScratch_received, fun _ => State.filledScratch_kept,
      fun hodd => absurd hodd (by omega), fun _ => ⟨read?_storeFlash_writtenPage r.1.1 hscratch _ _, ?_, ?_⟩⟩
    · intro hlt
      rw [pageAdvance_of_lt (by exact hlt)]
      rfl
    · intro hge
      rw [pageAdvance_of_ge (by exact hge)]
      rfl
  · rw [pageDataRule_of_odd q (haddress ▸ hodd), haddress] at hexec
    exact ⟨_, hexec, fun _ => State.filledScratch_received, fun _ => State.filledScratch_kept, fun _ => rfl,
      fun heven => absurd heven (by omega)⟩

end

section
/-! SUPPORT. Command records and the event of a bulk packet (spec/43_bulk_protocol.md R191, R192, R200 to R202): what
VALIDATE_CMD finds, what each phase makes of a packet, and the statements about them. -/

namespace Sys2Proof.Machine

/-! ## VALIDATE_CMD -/

/-- After the READ of a record of the right length (43_bulk R192): see `exec_read_record`. -/
def State.recordRead (s : State) : State := s.slot.readInto .data .cmdBuf 8

/-- A record of the right length arrived (43_bulk R192): the count is read in a slot of its own. -/
def State.fullRecord (s : State) : Prop := (s.slot.hw.rxCount.get .data).toNat = 8

section
variable {s : State} {want : Byte}

theorem validateRule_of_length (h : ¬s.fullRecord) : validateRule want s = (.cmdWrongLength, s.slot) := if_pos h

section
variable (h : s.fullRecord)
include h

theorem validateRule_of_full : validateRule want s =
    if ¬recordCrcGood s.cfg s.recordRead.cmdBuf then (.cmdWrongCrc, s.recordRead)
    else if byteAt s.recordRead.cmdBuf 0 ≠ want then (.cmdWrongId, s.recordRead)
    else (.noError, s.recordRead) := if_neg (not_not_intro h)

theorem validateRule_of_crc (hbad : ¬recordCrcGood s.cfg s.recordRead.cmdBuf) :
    validateRule want s = (.cmdWrongCrc, s.recordRead) := by
  rw [validateRule_of_full h, if_pos hbad]

variable (hgood : recordCrcGood s.cfg s.recordRead.cmdBuf)
include hgood

theorem validateRule_of_id (hid : byteAt s.recordRead.cmdBuf 0 ≠ want) :
    validateRule want s = (.cmdWrongId, s.recordRead) := by
  rw [validateRule_of_full h, if_neg (not_not_intro hgood), if_pos hid]

theorem validateRule_of_good (hid : byteAt s.recordRead.cmdBuf 0 = want) :
    validateRule want s = (.noError, s.recordRead) := by
  rw [validateRule_of_full h, if_neg (not_not_intro hgood), if_neg (not_not_intro hid)]

end

/-- A record that VALIDATE_CMD accepts was read, and has the id that was wanted (43_bulk R192). -/
theorem validateRule_eq_noError (h : (validateRule want s).1 = .noError) :
    validateRule want s = (.noError, s.recordRead) ∧ byteAt s.recordRead.cmdBuf 0 = want := by
  by_cases hfull : s.fullRecord
  · by_cases hgood : recordCrcGood s.cfg s.recordRead.cmdBuf
    · by_cases hid : byteAt s.recordRead.cmdBuf 0 = want
      · exact ⟨validateRule_of_good hfull hgood hid, hid⟩
      · rw [validateRule_of_id hfull hgood hid] at h
        cases h
    · rw [validateRule_of_crc hfull hgood] at h
      cases h
  · rw [validateRule_of_length hfull] at h
    cases h

/-- A record fills `cmd_buf` (43_bulk R192). -/
theorem State.recordRead_cmdBuf_length (hlen : s.cmdBuf.length = 8) : s.recordRead.cmdBuf.length = 8 := by
  refine (overlay_length ?_).trans hlen
  rw [Hw.read_length]
  exact (Nat.min_le_left _ _).trans_eq hlen.symm

/-- No two codes have one byte (30_encoding R90). -/
theorem errByte_toNat_inj {x y : ErrCode} (h : (errByte x).toNat = (errByte y).toNat) : x = y := by
  cases x <;> cases y <;> simp_all +decide

variable (r : s.runnable)
include r

theorem exec_validateCmd (want : Byte) : exec (.validateCmd want) s =
    .next { (validateRule want s).2 with result := (errByte (validateRule want s).1).toNat } :=
  State.run_of_runnable r _

theorem exec_reportError (code : ErrCode) : exec (.reportError code) s = .next (s.raiseBulkError code) :=
  State.run_of_runnable r _

/-- The READ of a record runs after the slot in which its count was read. -/
theorem exec_read_record : exec (.read .data .cmdBuf 8) s.slot = .next { s.recordRead with
    result := (Hw.read s.slot.cfg .data 8 s.slot.hw).1.length } := exec_read_of_le r.slot (Nat.le_refl 8)

theorem State.runnable.recordRead : s.recordRead.runnable := r.slot.readInto .data .cmdBuf 8

theorem State.runnable.validate (want : Byte) : (validateRule want s).2.runnable := by
  by_cases hfull : s.fullRecord
  · rw [validateRule_of_full hfull]
    split
    · exact r.recordRead
    · split <;> exact r.recordRead
  · rw [validateRule_of_length hfull]
    exact r.slot

end

/-! ## A valid record -/

/-- The rule of a valid record in a header phase (43_bulk R193, R194): see `bulkCase_of_header`. -/
def headerRule (bl : BlState) : State → State := if bl = .waitSizeHeader then sizeHeaderRule else pageHeaderRule

section
variable {s : State} {want : Byte} (hphase : HeaderPhase s.sess.blState want)
include hphase

theorem bulkCase_of_header : bulkCase s = headerPacket want (headerRule s.sess.blState) s := by
  obtain ⟨hbl, rfl⟩ | ⟨hbl, rfl⟩ := hphase
  · rw [bulkCase, hbl]; rfl
  · rw [bulkCase, hbl]; rfl

theorem bulkCase_of_noError (h : validateRule want s = (.noError, s.recordRead)) :
    bulkCase s = headerRule s.sess.blState s.recordRead := by
  rw [bulkCase_of_header hphase, headerPacket, h]
  rfl

theorem bulkCase_of_error {code : ErrCode} (hcode : code ≠ .noError) (h : (validateRule want s).1 = code) :
    bulkCase s = (validateRule want s).2.raiseBulkError code := by
  rw [bulkCase_of_header hphase, headerPacket, h, if_neg hcode]

end

section
variable {s : State} (r : s.runnable)
include r

theorem State.runnable.headerRule (bl : BlState) : (headerRule bl s).runnable := by
  rw [Machine.headerRule]
  split
  · exact r.send .data s.cmdBuf 8
  · rw [pageHeaderRule_eq r]
    exact State.runnable.ackPageHeader (s := s.pageOpened) r

/-- A record in `cmd_buf` with the id its phase accepts decodes to the header instruction whose rule is run. -/
theorem exists_header_instr {bl : BlState} {want : Byte} (hphase : HeaderPhase bl want) (hlen : s.cmdBuf.length = 8)
    (hid : byteAt s.cmdBuf 0 = want) :
    ∃ i, decode bl (.bulk s.cmdBuf) = .instr i ∧ exec i s = .next (Machine.headerRule bl s) := by
  have hdecode : ∀ mk, decodeRecord want mk s.cmdBuf = .instr (mk (byteAt s.cmdBuf 1)
      (le16 (byteAt s.cmdBuf 2) (byteAt s.cmdBuf 3)) (le16 (byteAt s.cmdBuf 4) (byteAt s.cmdBuf 5))
      (le16 (byteAt s.cmdBuf 6) (byteAt s.cmdBuf 7))) := fun mk => by
    rw [decodeRecord, if_neg (not_not_intro hlen), if_pos hid]
  have hrecord := recordOf_fields hlen
  rw [hid] at hrecord
  obtain ⟨rfl, rfl⟩ | ⟨rfl, rfl⟩ := hphase
  · exact ⟨_, hdecode .cmdSizeHeader, exec_cmdSizeHeader_of_captured r hrecord.symm⟩
  · refine ⟨_, hdecode .cmdPageHeader, (exec_cmdPageHeader_of_captured r hrecord.symm).trans ?_⟩
    rw [← pageHeaderRule_eq r]
    rfl

/-! ## The event -/

theorem exec_bulkOut : exec .bulkOut s = .next (bulkOutRule s) := State.run_of_runnable r _

/-- Reception is re-armed last where the case of the phase was not fatal (43_bulk R200). -/
theorem exec_bulkOut_of_case (rc : (bulkCase s).runnable) :
    exec .bulkOut s = exec (.markRxDone .data) (bulkCase s) := by
  rw [exec_bulkOut r, exec_markRxDone rc, bulkOutRule]
  exact congrArg _ (if_neg (by simp [rc.2]))

theorem exec_pageData : exec .pageData s = .next (pageDataRule s) := State.run_of_runnable r _

end

theorem State.flashWrite_cfg (s : State) (a : Addr32) (b : List Byte) (k : Nat) : (s.flashWrite a b k).cfg = s.cfg := by
  rw [State.flashWrite]; split <;> rfl

theorem State.flashWrite_hw (s : State) (a : Addr32) (b : List Byte) (k : Nat) : (s.flashWrite a b k).hw = s.hw := by
  rw [State.flashWrite]; split <;> rfl

/-- Of the shared registers page data touches those that its READ touches (43_bulk R195). -/
theorem pageDataRule_hw (s : State) : (pageDataRule s).hw = (Hw.read s.cfg .data (scratchSize s.cfg) s.hw).2 := by
  rw [pageDataRule]
  split <;> exact State.flashWrite_hw _ _ _ _

/-- Page data that is not fatal leaves a state in which the next operation runs. -/
theorem State.runnable.pageDataRule {s : State} (r : s.runnable) (hf : (pageDataRule s).fatal = none) :
    (pageDataRule s).runnable := by
  have hcfg : (Machine.pageDataRule s).cfg = s.cfg := by
    rw [Machine.pageDataRule]
    split <;> exact State.flashWrite_cfg _ _ _ _
  exact r.keep hcfg (pageDataRule_hw s ▸ Hw.read_areas .data _) (hf.trans r.2.symm)

/-! ## A bad record, the bus side still -/

section
variable {s : State} (r : s.runnable) (q : s.quiet)
include r q

/-- With the bus side still the READ of a record brings what stands in the receive area. -/
theorem recordRead_quiet (hlen : s.cmdBuf.length = 8) (hfull : (s.hw.rxCount.get .data).toNat = 8) :
    s.recordRead = { s with cmdBuf := s.hw.received .data 8 } := by
  have hcap := capData_ge r.1.1
  have hreadable : s.hw.readable s.cfg .data 8 = 8 := by rw [Hw.readable, hfull]; omega
  have hoverlay : overlay s.cmdBuf (s.hw.received .data 8) = s.hw.received .data 8 := by
    rw [overlay, Hw.received_length, List.drop_of_length_le hlen.le, List.append_nil]
  rw [State.recordRead, State.slot_quiet q, State.readInto_quiet q, hreadable]
  exact congrArg (fun b => { s with cmdBuf := b }) hoverlay

/-- The state after a bulk packet that drew an error byte: the byte is queued, and reception re-armed. -/
theorem exec_bulkOut_of_error {want : Byte} {code : ErrCode} {b : List Byte}
    (hphase : HeaderPhase s.sess.blState want) (hcode : code ≠ .noError)
    (h : validateRule want s = (code, { s with cmdBuf := b })) :
    exec .bulkOut s = .next { s with
      cmdBuf := b, hw := (s.hw.afterWrite .data [errByte code]).setTo .data .rx .valid } := by
  have hqueued : queuedBytes s.cfg s.hw.powerOns .data [errByte code] 1 = [errByte code] := by
    rw [queuedBytes_of_le _ _ (Nat.le_refl 1), Nat.min_eq_left (cap_pos r.1.1 .data)]
    rfl
  have hcase : bulkCase s = { s with cmdBuf := b, hw := s.hw.afterWrite .data [errByte code] } := by
    rw [bulkCase_of_error hphase hcode (congrArg Prod.fst h), h, State.raiseBulkError]
    refine (State.send_quiet (by exact q) .data [errByte code] 1).trans ?_
    exact congrArg (fun bs => { s with cmdBuf := b, hw := s.hw.afterWrite .data bs }) hqueued
  have rc : (bulkCase s).runnable := hcase ▸ r.keep rfl ⟨rfl, rfl⟩ rfl
  rw [exec_bulkOut_of_case r rc, exec_markRxDone rc, hcase, State.onHw, Hw.markRxDone_quiet (by exact q)]

end

/-- VALIDATE_CMD says nothing by `result` but where it is run by itself (log 23). -/
theorem validateRule_result (s : State) (want : Byte) : (validateRule want s).2.result = s.result := by
  by_cases hfull : s.fullRecord
  · rw [validateRule_of_full hfull]
    split
    · rfl
    · split <;> rfl
  · rw [validateRule_of_length hfull]
    rfl

end Sys2Proof.Machine

/-! ## The statements -/

open Sys2Proof Sys2Proof.Machine

/-- Settles O39: one clause for each way out of VALIDATE_CMD. -/
theorem validateCommand : Obligations.ValidateCommand := by
  intro s want r u
  have hexec := exec_validateCmd r want
  constructor
  · intro hlen
    rw [hexec, validateRule_of_length hlen]
    rfl
  · intro hfull
    refine ⟨_, exec_read_record r, fun hbad => ?_, fun hgood hid => ?_, fun hgood hid => ?_, rfl⟩
    · rw [hexec, validateRule_of_crc hfull hbad]
      rfl
    · rw [hexec, validateRule_of_id hfull hgood hid]
      rfl
    · rw [hexec, validateRule_of_good hfull hgood hid]
      rfl

/-- Settles O43: in a header phase `exec_bulkOut_of_case` with the case that VALIDATE_CMD's answer selects; with page
data and in DONE the case is one rule. -/
theorem bulkOut : Obligations.BulkOut := by
  intro s r hcmd
  refine ⟨fun want hphase => ⟨_, exec_validateCmd r want, fun hresult => ?_, fun code hcode hresult => ?_⟩,
    fun hbl => ⟨_, exec_pageData r, ?_⟩, fun hbl => ?_⟩
  · obtain ⟨hvalid, hid⟩ := validateRule_eq_noError (errByte_toNat_inj (y := .noError) hresult)
    have hcase := bulkCase_of_noError hphase hvalid
    have rrec := r.recordRead
    obtain ⟨i, hdecode, hexec⟩ :=
      exists_header_instr rrec hphase (State.recordRead_cmdBuf_length hcmd) hid
    have rc : (bulkCase s).runnable := hcase ▸ rrec.headerRule _
    rw [hvalid]
    exact ⟨i, _, hdecode, hexec, (exec_bulkOut_of_case r rc).trans (congrArg _ hcase)⟩
  · have herr : (validateRule want s).1 = code := errByte_toNat_inj hresult
    have hcase := bulkCase_of_error hphase hcode herr
    have rv := r.validate want
    have rc : (bulkCase s).runnable := hcase ▸ rv.send .data [errByte code] 1
    refine ⟨_, ?_, (exec_bulkOut_of_case r rc).trans (congrArg _ hcase)⟩
    rw [← validateRule_result s want]
    exact exec_reportError rv code
  · have hcase : bulkCase s = pageDataRule s := by rw [bulkCase, hbl]
    by_cases hfatal : (pageDataRule s).fatal = none
    · rw [if_pos hfatal, exec_bulkOut_of_case r (hcase ▸ r.pageDataRule hfatal), hcase]
    · rw [if_neg hfatal, exec_bulkOut r, bulkOutRule, hcase]
      exact congrArg _ (if_pos (Option.isSome_iff_ne_none.mpr hfatal))
  · have hcase : bulkCase s = s := by rw [bulkCase, hbl]; rfl
    rw [exec_bulkOut_of_case r (hcase.symm ▸ r), hcase]

/-- Settles O45: each code is VALIDATE_CMD's (`exec_bulkOut_of_error`). -/
theorem badHeaderKeepsSession : Obligations.BadHeaderKeepsSession := by
  intro s want r q hcmd hphase rec8 good len code hbad
  obtain ⟨err, b, hbyte, herr, hvalid⟩ : ∃ err b, errByte err = code ∧ err ≠ .noError ∧
      validateRule want s = (err, { s with cmdBuf := b }) := by
    have hfull : len = 8 → s.fullRecord ∧ s.recordRead = { s with cmdBuf := rec8 } := fun hlen =>
      ⟨(congrArg (fun t : State => (t.hw.rxCount.get .data).toNat) (State.slot_quiet q)).trans hlen,
        recordRead_quiet r q hcmd hlen⟩
    obtain ⟨rfl, hlen⟩ | ⟨rfl, hlen, hcrc⟩ | ⟨rfl, hlen, hcrc, hid⟩ := hbad
    · refine ⟨.cmdWrongLength, s.cmdBuf, rfl, nofun, ?_⟩
      have hnot : ¬s.fullRecord := by rwa [State.fullRecord, State.slot_quiet q]
      rw [validateRule_of_length hnot, State.slot_quiet q]
    · obtain ⟨hfull, hread⟩ := hfull hlen
      refine ⟨.cmdWrongCrc, rec8, rfl, nofun, ?_⟩
      rw [validateRule_of_crc hfull (hread ▸ hcrc), hread]
    · obtain ⟨hfull, hread⟩ := hfull hlen
      refine ⟨.cmdWrongId, rec8, rfl, nofun, ?_⟩
      rw [validateRule_of_id hfull (hread ▸ hcrc) (hread ▸ hid), hread]
  refine ⟨_, exec_bulkOut_of_error r q hphase herr hvalid, rfl, rfl, rfl, rfl, ?_, ?_, ?_, ?_, ?_⟩
  · rw [← hbyte]
    exact (Hw.afterWrite_queues .data [errByte err]).outgoing_eq (show 1 < 2 ^ 10 by decide)
  · simp [Hw.setTo, Hw.afterWrite, eprStat_withStatus_other]
  · simp [Hw.setTo, Hw.afterWrite]
  · simp [Hw.setTo, Hw.afterWrite]
  · simp [Hw.setTo, Hw.afterWrite]

/-- Settles O46: each of the four rules is the identity. -/
theorem eventsWithoutEffect : Obligations.EventsWithoutEffect := fun _ r =>
  ⟨State.run_of_runnable r doneDiscardRule, State.run_of_runnable r bulkInRule, State.run_of_runnable r commOutRule,
    State.run_of_runnable r commInRule⟩

end

section
/-! SUPPORT. What the moves of the bus side can do to the shared registers (spec/45_collaborators.md R240 to R248), and
the statements about it. -/

namespace Sys2Proof.Machine

/-! ## The buffer areas do not overlap -/

theorem apart_iff {x y : Nat × Nat} : apart x y = true ↔ x.1 + x.2 ≤ y.1 ∨ y.1 + y.2 ≤ x.1 := by
  simp [apart]

/-- The bytes of an endpoint's receive area. -/
def Hw.rxArea (c : Config) (h : Hw) (e : Ep) (j : Nat) : Prop :=
  h.rxBase e ≤ j ∧ j < h.rxBase e + 2 * ceil2 (c.cap.get e)

/-- The bytes of an endpoint's transmit area. -/
def Hw.txArea (c : Config) (h : Hw) (e : Ep) (j : Nat) : Prop :=
  h.txBase e ≤ j ∧ j < h.txBase e + 2 * ceil2 (c.cap.get e)

section
variable {c : Config} {h : Hw}

theorem Hw.not_rxArea_iff {e : Ep} {j : Nat} :
    ¬h.rxArea c e j ↔ j < h.rxBase e ∨ h.rxBase e + 2 * ceil2 (c.cap.get e) ≤ j := by
  rw [Hw.rxArea, not_and_or, Nat.not_le, Nat.not_lt]

variable (v : configValid c = true) (L : h.Legal c)
include v L

/-- 00_scope R5, on the offsets that the machine holds. -/
theorem Hw.Legal.areas_pairwise :
    (bufferAreas c h.rxOffset h.txOffset).Pairwise (fun x y => apart x y = true) := by
  rw [L.rxOffsets, L.txOffsets]
  have hareas := configValid_areas v
  rw [areasValid, Bool.and_eq_true, decide_eq_true_eq] at hareas
  exact hareas.2

theorem Hw.Legal.not_txArea_of_rxArea {e f : Ep} {j : Nat} (hj : h.rxArea c e j) : ¬h.txArea c f j := by
  obtain ⟨-, -, hcross⟩ := List.pairwise_append.mp (L.areas_pairwise v)
  have hmem : ∀ g : Ep, g ∈ [Ep.ctrl, Ep.data, Ep.comm] := fun g => by cases g <;> decide
  have hapart := apart_iff.mp (hcross _ (List.mem_map_of_mem (hmem e)) _ (List.mem_map_of_mem (hmem f)))
  simp only [Hw.rxArea, Hw.txArea, Hw.rxBase, Hw.txBase] at hj ⊢
  omega

theorem Hw.Legal.not_rxArea_of_rxArea {e f : Ep} (hef : f ≠ e) {j : Nat} (hj : h.rxArea c e j) :
    ¬h.rxArea c f j := by
  obtain ⟨hrx, -, -⟩ := List.pairwise_append.mp (L.areas_pairwise v)
  simp only [List.map_cons, List.map_nil, List.pairwise_cons, List.mem_cons, List.not_mem_nil, or_false,
    forall_eq_or_imp, forall_eq, apart_iff] at hrx
  obtain ⟨⟨hcd, hcc⟩, hdc, -⟩ := hrx
  simp only [Hw.rxArea, Hw.rxBase] at hj ⊢
  cases e <;> cases f
  case ctrl.ctrl | data.data | comm.comm => exact absurd rfl hef
  all_goals omega

end

/-! ## A completed transaction, on its register -/

/-- `r'` shows the completion of a transaction in direction `d` on a register that held `r`; its other flag, type, kind
and address are those of `r` (45_collaborators R241 to R243). -/
structure Completes (r r' : Word16) (d : Dir) : Prop where
  flag : eprFlag r' d = true
  otherFlag : ∀ d', d' ≠ d → eprFlag r' d' = eprFlag r d'
  type : eprType r' = eprType r
  kind : eprKind r' = eprKind r
  addr : eprAddr r' = eprAddr r

theorem completes_eprAfterSetup (r : Word16) (dr dt : Bool) : Completes r (eprAfterSetup r dr dt) .rx := by
  constructor
  case otherFlag => intro d' hd; cases d' <;> simp_all +decide [eprAfterSetup]
  all_goals simp +decide [eprAfterSetup]

theorem completes_eprAfterOut (r : Word16) (dr : Bool) : Completes r (eprAfterOut r dr) .rx := by
  constructor
  case otherFlag => intro d' hd; cases d' <;> simp_all +decide [eprAfterOut]
  all_goals simp +decide [eprAfterOut]

theorem completes_eprAfterIn (r : Word16) (dt : Bool) : Completes r (eprAfterIn r dt) .tx := by
  constructor
  case otherFlag => intro d' hd; cases d' <;> simp_all +decide [eprAfterIn]
  all_goals simp +decide [eprAfterIn]

/-! ## What a move can do -/

/-- What a line of the environment can make of the shared registers: something the host sees, a transaction on a
direction where it is open, a reset or a cause (45_collaborators R240 to R246). -/
inductive Hw.Moved (c : Config) (h : Hw) : Instr → Hw → Prop where
  | seen (i : Instr) (rs : List Reply) : Hw.Moved c h i { h with replies := rs }
  | setup (a : DevAddr) (b : List Byte) (dr dt : Bool) (rs : List Reply) (hb : b.length = 8) :
    Hw.Moved c h (.busSetup a b dr dt)
      { h.receive .ctrl b 0 with epr := h.epr.set .ctrl (eprAfterSetup (h.epr.get .ctrl) dr dt), replies := rs }
  | out (a : DevAddr) (e : Ep) (b : List Byte) (tail : Byte) (dr : Bool) (rs : List Reply)
    (hfit : b.length ≤ c.cap.get e) (hvalid : eprStat (h.epr.get e) .rx = .valid) :
    Hw.Moved c h (.busOut a e b tail dr)
      { h.receive e b tail with epr := h.epr.set e (eprAfterOut (h.epr.get e) dr), replies := rs }
  | take (a : DevAddr) (e : Ep) (dt : Bool) (rs : List Reply) (hvalid : eprStat (h.epr.get e) .tx = .valid) :
    Hw.Moved c h (.busIn a e dt) { h with epr := h.epr.set e (eprAfterIn (h.epr.get e) dt), replies := rs }
  | reset : Hw.Moved c h .busReset h.busReset
  | cause (k : Cause) : Hw.Moved c h (.busCause k) (h.busCause k)

/-- The line that makes a scheduled move: see `eq_instr_of_busMove?`. -/
def BusMove.instr : BusMove → Instr
  | .setup a b dr dt => .busSetup a b dr dt
  | .out a e b tail dr => .busOut a e b tail dr
  | .take a e dt => .busIn a e dt
  | .refuse a e d => .busRefuse a e d
  | .reset => .busReset
  | .cause k => .busCause k

theorem eq_instr_of_busMove? {i : Instr} {m : BusMove} (h : busMove? i = some m) : i = BusMove.instr m := by
  cases i <;> cases h <;> rfl

theorem Hw.moved_move (c : Config) (h : Hw) (m : BusMove) : h.Moved c (BusMove.instr m) (Hw.move c h m) := by
  cases m with
  | setup a b dr dt =>
    simp only [Hw.move, Hw.busSetup, BusMove.instr]
    split
    · exact .seen _ _
    · split
      · exact .seen _ _
      · refine .setup a b dr dt _ ?_
        simp_all
  | out a e b tail dr =>
    simp only [Hw.move, Hw.busOut, BusMove.instr]
    split
    · exact .seen _ _
    · split
      · exact .seen _ _
      · split
        · exact .seen _ _
        · refine .out a e b tail dr _ (Nat.not_lt.mp ‹_›) ?_
          simp_all
  | take a e dt =>
    simp only [Hw.move, Hw.busIn, BusMove.instr]
    split
    · exact .seen _ _
    · split
      · exact .seen _ _
      · refine .take a e dt _ ?_
        simp_all
  | refuse a e d =>
    simp only [Hw.move, Hw.busRefuse, BusMove.instr]
    split <;> exact .seen _ _
  | reset => exact .reset
  | cause k => exact .cause k

theorem moved_of_exec_environment {s t : State} {i : Instr} (h : exec i s = .next t) (henv : i.environment = true) :
    s.ready ∧ s.hw.Moved s.cfg i t.hw := by
  obtain ⟨m, hm⟩ | ⟨on, rfl⟩ := busMove?_or_irqSetEnable henv
  · obtain ⟨r, rfl⟩ := ready_of_exec_move h hm
    rw [eq_instr_of_busMove? hm]
    exact ⟨r, Hw.moved_move s.cfg s.hw m⟩
  · obtain ⟨r, rfl⟩ := State.env_next (k := ({ · with irqEnable := on })) h
    exact ⟨r, .seen _ s.hw.replies⟩

/-! ## What it cannot do -/

section
variable {c : Config} {h h' : Hw} {i : Instr} (M : h.Moved c i h')
include M

/-- No move writes an offset, a transmit count or CNTR, or clears a cause (45_collaborators R248). -/
theorem Hw.Moved.frame : h'.txCount = h.txCount ∧ h'.txOffset = h.txOffset ∧ h'.rxOffset = h.rxOffset ∧
    h'.cntr = h.cntr ∧ h'.causes &&& h.causes = h.causes ∧ h'.between = h.between := by
  have hkept : ∀ k : BitVec 7, (h.causes ||| k) &&& h.causes = h.causes := fun k => by
    apply BitVec.eq_of_getLsbD_eq
    intro j _
    rw [BitVec.getLsbD_and, BitVec.getLsbD_or]
    cases h.causes.getLsbD j <;> simp
  cases M with
  | reset => exact ⟨rfl, rfl, rfl, rfl, hkept _, rfl⟩
  | cause k => exact ⟨rfl, rfl, rfl, rfl, hkept _, rfl⟩
  | seen | setup | out | take => exact ⟨rfl, rfl, rfl, rfl, BitVec.and_self, rfl⟩

/-- Beside a reset a move writes at most one endpoint register, to complete a transaction there. -/
theorem Hw.Moved.register : (i = .busReset ∧ h' = h.busReset) ∨
    h'.daddr = h.daddr ∧ (h'.epr = h.epr ∨ ∃ e d r', h'.epr = h.epr.set e r' ∧ Completes (h.epr.get e) r' d ∧
      (eprStat (h.epr.get e) d = .valid ∨ d = .rx ∧ e = .ctrl ∧ ∃ a b dr dt, i = .busSetup a b dr dt)) := by
  cases M with
  | seen => exact .inr ⟨rfl, .inl rfl⟩
  | setup a b dr dt =>
    exact .inr ⟨rfl, .inr ⟨_, _, _, rfl, completes_eprAfterSetup .., .inr ⟨rfl, rfl, a, b, dr, dt, rfl⟩⟩⟩
  | out _ _ _ _ _ _ _ hvalid => exact .inr ⟨rfl, .inr ⟨_, _, _, rfl, completes_eprAfterOut .., .inl hvalid⟩⟩
  | take _ _ _ _ hvalid => exact .inr ⟨rfl, .inr ⟨_, _, _, rfl, completes_eprAfterIn .., .inl hvalid⟩⟩
  | reset => exact .inl ⟨rfl, rfl⟩
  | cause k => exact .inr ⟨rfl, .inl rfl⟩

/-- A line that is no reset leaves an endpoint register as it is, but for the fields of a transaction. -/
theorem Hw.Moved.fields (hreset : i ≠ .busReset) (e : Ep) :
    eprType (h'.epr.get e) = eprType (h.epr.get e) ∧ eprKind (h'.epr.get e) = eprKind (h.epr.get e) ∧
      eprAddr (h'.epr.get e) = eprAddr (h.epr.get e) ∧
      (∀ d, eprFlag (h.epr.get e) d = true → eprFlag (h'.epr.get e) d = true) ∧ h'.daddr = h.daddr := by
  obtain ⟨hi, -⟩ | ⟨hdaddr, hepr | ⟨f, d, r', hepr, C, -⟩⟩ := M.register
  · exact absurd hi hreset
  · rw [hepr]
    exact ⟨rfl, rfl, rfl, fun _ h => h, hdaddr⟩
  · rw [hepr, PerEp.get_set]
    split
    · subst e
      refine ⟨C.type, C.kind, C.addr, fun d' hd' => ?_, hdaddr⟩
      by_cases hd : d' = d
      · rw [hd]; exact C.flag
      · rw [C.otherFlag d' hd]; exact hd'
    · exact ⟨rfl, rfl, rfl, fun _ h => h, hdaddr⟩

/-- Where a move sets a completion flag, the direction was VALID, SETUP excepted. -/
theorem Hw.Moved.completion {e : Ep} {d : Dir} (hbefore : eprFlag (h.epr.get e) d = false)
    (hafter : eprFlag (h'.epr.get e) d = true) :
    eprStat (h.epr.get e) d = .valid ∨ d = .rx ∧ e = .ctrl ∧ ∃ a b dr dt, i = .busSetup a b dr dt := by
  obtain ⟨-, rfl⟩ | ⟨-, hepr | ⟨f, d', r', hepr, C, hopen⟩⟩ := M.register
  · have hzero : eprFlag (h.busReset.epr.get e) d = false := by
      cases e <;> cases d <;> exact BitVec.getLsbD_zero
    exact absurd (hzero.symm.trans hafter) (by decide)
  · rw [hepr, hbefore] at hafter
    cases hafter
  · rw [hepr, PerEp.get_set] at hafter
    split at hafter
    · subst e
      by_cases hd : d = d'
      · exact hd ▸ hopen
      · rw [C.otherFlag d hd, hbefore] at hafter
        cases hafter
    · rw [hbefore] at hafter
      cases hafter

end

/-- The line delivers a packet to the endpoint, if it delivers any. -/
def DeliversTo (i : Instr) (e : Ep) : Prop :=
  (∃ a b dr dt, i = .busSetup a b dr dt ∧ e = .ctrl) ∨ ∃ a b tail dr, i = .busOut a e b tail dr

theorem DeliversTo.unique {i : Instr} {e f : Ep} (he : DeliversTo i e) (hf : DeliversTo i f) : e = f := by
  obtain ⟨a, b, dr, dt, rfl, rfl⟩ | ⟨a, b, tail, dr, rfl⟩ := he
  · obtain ⟨_, _, _, _, -, rfl⟩ | ⟨_, _, _, _, hi⟩ := hf
    · rfl
    · cases hi
  · obtain ⟨_, _, _, _, hi, -⟩ | ⟨_, _, _, _, hi⟩ := hf
    · cases hi
    · cases hi
      rfl

/-- A move that delivers no packet leaves packet memory and the receive counts; one that does leaves the counts of the
other endpoints and every byte outside the receive area of its own (45_collaborators R248). -/
theorem Hw.Moved.memory {c : Config} {h h' : Hw} {i : Instr} (M : h.Moved c i h') (hcap : 8 ≤ c.cap.get .ctrl) :
    (h'.pma = h.pma ∧ h'.rxCount = h.rxCount ∧ h'.powerOns = h.powerOns) ∨
    ∃ e, DeliversTo i e ∧ ((∃ a b dr dt, i = .busSetup a b dr dt) ∨ eprStat (h.epr.get e) .rx = .valid) ∧
      (∀ f, f ≠ e → h'.rxCount.get f = h.rxCount.get f) ∧ ∀ j, ¬h.rxArea c e j → h'.pmaByte j = h.pmaByte j := by
  have hbytes : ∀ (e : Ep) (b : List Byte) (tail : Byte), b.length ≤ c.cap.get e → ∀ j, ¬h.rxArea c e j →
      (h.receive e b tail).pmaByte j = h.pmaByte j := fun e b tail hfit j hj => by
    have hunits := ceil2_mono hfit
    refine Hw.receive_pmaByte_outside ?_
    rw [Hw.not_rxArea_iff] at hj
    omega
  cases M with
  | setup a b dr dt _ hb =>
    exact .inr ⟨.ctrl, .inl ⟨a, b, dr, dt, rfl, rfl⟩, .inl ⟨a, b, dr, dt, rfl⟩,
      fun f hf => PerEp.get_set_ne _ _ hf, hbytes .ctrl b 0 (hb.trans_le hcap)⟩
  | out a e b tail dr _ hfit hvalid =>
    exact .inr ⟨e, .inr ⟨a, b, tail, dr, rfl⟩, .inr hvalid,
      fun f hf => PerEp.get_set_ne _ _ hf, hbytes e b tail hfit⟩
  | seen | take | reset | cause => exact .inl ⟨rfl, rfl, rfl⟩

theorem Hw.pmaByte_congr {h h' : Hw} (hpma : h'.pma = h.pma) (hn : h'.powerOns = h.powerOns) (j : Nat) :
    h'.pmaByte j = h.pmaByte j := by rw [Hw.pmaByte, Hw.pmaByte, hpma, hn]

/-! ## Transactions that are not taken -/

section
variable {h : Hw} {a : DevAddr}

section
variable (ha : h.answers a = false)
include ha

theorem Hw.busSetup_of_unanswered (b : List Byte) (dr dt : Bool) : h.busSetup a b dr dt = h.reply .silent := by
  simp [Hw.busSetup, ha]

theorem Hw.busOut_of_unanswered (c : Config) (e : Ep) (b : List Byte) (tail : Byte) (dr : Bool) :
    Hw.busOut c h a e b tail dr = h.reply .silent := by simp [Hw.busOut, ha]

theorem Hw.busIn_of_unanswered (e : Ep) (dt : Bool) : h.busIn a e dt = h.reply .silent := by simp [Hw.busIn, ha]

theorem Hw.busRefuse_of_unanswered (e : Ep) (d : Dir) : h.busRefuse a e d = h.reply .silent := by
  simp [Hw.busRefuse, ha]

end

variable (ha : h.answers a = true)
include ha

theorem Hw.busSetup_of_notOpen (hopen : h.setupOpen = false) (b : List Byte) (dr dt : Bool) :
    h.busSetup a b dr dt = h.reply .notMade := by simp [Hw.busSetup, ha, hopen]

theorem Hw.busRefuse_of_answers (e : Ep) (d : Dir) :
    h.busRefuse a e d = h.reply (refusal (eprStat (h.epr.get e) d)) := by simp [Hw.busRefuse, ha]

theorem Hw.busOut_of_notValid {e : Ep} (hvalid : eprStat (h.epr.get e) .rx ≠ .valid) (c : Config) (b : List Byte)
    (tail : Byte) (dr : Bool) : Hw.busOut c h a e b tail dr = h.reply (refusal (eprStat (h.epr.get e) .rx)) := by
  simp [Hw.busOut, ha, hvalid]

theorem Hw.busIn_of_notValid {e : Ep} (hvalid : eprStat (h.epr.get e) .tx ≠ .valid) (dt : Bool) :
    h.busIn a e dt = h.reply (refusal (eprStat (h.epr.get e) .tx)) := by
  simp [Hw.busIn, ha, hvalid]

end

theorem exec_busRefuse {s : State} (r : s.ready) (a : DevAddr) (e : Ep) (d : Dir) :
    exec (.busRefuse a e d) s = .next (s.onHw (fun _ h => h.busRefuse a e d)) :=
  State.env_of_ready r (State.onHw · fun _ h => h.busRefuse a e d)

/-- What a SETUP transaction needs (45_collaborators R241). -/
theorem Hw.setupOpen_eq_false {h : Hw} (hclosed : eprType (h.epr.get .ctrl) ≠ 1 ∨
    eprStat (h.epr.get .ctrl) .rx = .disabled ∨ eprFlag (h.epr.get .ctrl) .rx = true) : h.setupOpen = false := by
  obtain htype | hstat | hflag := hclosed
  · have hbad : (eprType h.epr.ctrl == epTypeCode .control) = false := beq_eq_false_iff_ne.mpr htype
    rw [Hw.setupOpen, hbad, Bool.false_and, Bool.false_and]
  · have hbad : (eprStat h.epr.ctrl .rx != .disabled) = false := bne_eq_false_iff_eq.mpr hstat
    rw [Hw.setupOpen, hbad, Bool.and_false, Bool.false_and]
  · rw [Hw.setupOpen, show eprFlag h.epr.ctrl .rx = true from hflag, Bool.not_true, Bool.and_false]

end Sys2Proof.Machine

/-! ## The statements -/

open Sys2Proof Sys2Proof.Machine

/-- Settles O57: each line is a reply, and nothing else (`Hw.busSetup_of_unanswered` and its kind). -/
theorem unansweredTransactions : Obligations.UnansweredTransactions := by
  intro s a r replied
  refine ⟨fun ha => ⟨fun b dr dt hb => ?_, fun e b tail dr hfit => ?_, fun e dt => ?_, fun e d => ?_⟩,
    fun ha => ⟨fun e d hvalid => ?_, fun b dr dt hb hclosed => ?_, fun e d hvalid => ?_⟩⟩
  · rw [exec_busSetup r a hb, State.onHw, Hw.busSetup_of_unanswered ha]; rfl
  · rw [exec_busOut r a hfit, State.onHw, Hw.busOut_of_unanswered ha]; rfl
  · rw [exec_busIn r, State.onHw, Hw.busIn_of_unanswered ha]; rfl
  · rw [exec_busRefuse r, State.onHw, Hw.busRefuse_of_unanswered ha]; rfl
  · intro handshake
    have hrefusal : refusal (eprStat (s.hw.epr.get e) d) = handshake := by
      cases hstat : eprStat (s.hw.epr.get e) d <;> simp_all [handshake, refusal]
    refine ⟨?_, ?_, ?_⟩
    · rw [exec_busRefuse r, State.onHw, Hw.busRefuse_of_answers ha, hrefusal]; rfl
    · rintro rfl b tail dr hfit
      rw [exec_busOut r a hfit, State.onHw, Hw.busOut_of_notValid ha hvalid, hrefusal]; rfl
    · rintro rfl dt
      rw [exec_busIn r, State.onHw, Hw.busIn_of_notValid ha hvalid, hrefusal]; rfl
  · rw [exec_busSetup r a hb, State.onHw, Hw.busSetup_of_notOpen ha (Hw.setupOpen_eq_false hclosed)]; rfl
  · rw [exec_busRefuse r, State.onHw, Hw.busRefuse_of_answers ha, hvalid]; rfl

/-- Settles O59: a line of the environment is a `Hw.Moved`; the registers it can change are those of
`Hw.Moved.register` and the bytes those of `Hw.Moved.memory`, which under the invariant are in no other area. -/
theorem busSideNever : Obligations.BusSideNever := by
  intro s t i henv hexec
  obtain ⟨⟨v, -⟩, M⟩ := moved_of_exec_environment hexec henv
  have hmemory := M.memory (capCtrl_ge v)
  obtain ⟨htxCount, htxOffset, hrxOffset, hcntr, hcauses, -⟩ := M.frame
  refine ⟨frame_of_exec_environment hexec henv, htxCount, htxOffset, hrxOffset, hcntr, hcauses, M.fields,
    fun e he j hj => ?_, fun hsetup hout => ?_, fun I e j hlo hhi => ?_, fun e d => M.completion,
    fun hsetup e hvalid => ?_⟩
  all_goals obtain ⟨hpma, hcount, hn⟩ | ⟨f, hf, hopen, hcounts, hbytes⟩ := hmemory
  · exact Hw.pmaByte_congr hpma hn j
  · obtain rfl := hf.unique he
    exact hbytes j (Hw.not_rxArea_iff.mpr hj)
  · exact hpma
  · obtain ⟨a, b, dr, dt, hi, -⟩ | ⟨a, b, tail, dr, hi⟩ := hf
    · exact absurd hi (hsetup a b dr dt)
    · exact absurd hi (hout a f b tail dr)
  · exact Hw.pmaByte_congr hpma hn j
  · exact hbytes j fun hj => I.hw.not_txArea_of_rxArea I.config hj ⟨hlo, hhi⟩
  · exact ⟨by rw [hcount], fun j _ _ _ => Hw.pmaByte_congr hpma hn j⟩
  · have hne : e ≠ f := by
      rintro rfl
      obtain ⟨a, b, dr, dt, hi⟩ | hv := hopen
      · exact hsetup a b dr dt hi
      · exact hvalid hv
    exact ⟨hcounts e hne, fun j hlo hhi I =>
      hbytes j (I.hw.not_rxArea_of_rxArea I.config hne.symm ⟨hlo, hhi⟩)⟩

end

section
/-! SUPPORT. The drain loop under any schedule of the bus side (spec/44_interrupt_dispatcher.md R226, R232): only a
scheduled move sets a completion flag, and a turn clears one; and the statement about it. -/

namespace Sys2Proof.Machine

/-! ## Flags set are paid for by moves -/

/-- What leads from `h` to `h'` has made at least as many of the scheduled moves as it has set completion flags. -/
def Hw.Spends (h h' : Hw) : Prop := (h'.flagged \ h.flagged).card + h'.scheduled ≤ h.scheduled

/-- The turns that the drain loop can still take: completions, and moves that may bring one (R232). -/
def Hw.work (h : Hw) : Nat := h.flagged.card + h.scheduled

theorem Hw.card_newFlags_le (h g k : Hw) :
    (k.flagged \ h.flagged).card ≤ (k.flagged \ g.flagged).card + (g.flagged \ h.flagged).card :=
  (Finset.card_le_card (sdiff_triangle _ _ _)).trans (Finset.card_union_le _ _)

section
variable {h g k : Hw}

theorem Hw.Spends.refl (h : Hw) : h.Spends h := by simp [Hw.Spends]

theorem Hw.Spends.trans (a : h.Spends g) (b : g.Spends k) : h.Spends k := by
  have hcard := Hw.card_newFlags_le h g k
  rw [Hw.Spends] at a b ⊢
  omega

theorem Hw.Spends.of_flags (hbetween : k.between = h.between)
    (hflags : ∀ e d, eprFlag (k.epr.get e) d = true → eprFlag (h.epr.get e) d = true) : h.Spends k := by
  have hnone : k.flagged \ h.flagged = ∅ :=
    Finset.sdiff_eq_empty_iff_subset.mpr fun _ hx => Hw.mem_flagged.mpr (hflags _ _ (Hw.mem_flagged.mp hx))
  rw [Hw.Spends, hnone, Finset.card_empty, Nat.zero_add, Hw.scheduled, Hw.scheduled, hbetween]

theorem Hw.Spends.work_le (a : h.Spends k) : k.work ≤ h.work := by
  have hcard := Finset.card_le_card_sdiff_add_card (s := k.flagged) (t := h.flagged)
  rw [Hw.Spends] at a
  rw [Hw.work, Hw.work]
  omega

/-- Where a completion is served, less work is left. -/
theorem Hw.Spends.work_lt (a : h.Spends k) {x : Ep × Dir} (hbefore : x ∈ h.flagged) (hafter : x ∉ k.flagged) :
    k.work < h.work := by
  have hsubset : k.flagged \ h.flagged.erase x ⊆ k.flagged \ h.flagged := fun y hy => by
    obtain ⟨hyk, hyh⟩ := Finset.mem_sdiff.mp hy
    have hne : y ≠ x := ne_of_mem_of_not_mem hyk hafter
    exact Finset.mem_sdiff.mpr ⟨hyk, fun hmem => hyh (Finset.mem_erase.mpr ⟨hne, hmem⟩)⟩
  have hnew := Finset.card_le_card hsubset
  have hcard := Finset.card_le_card_sdiff_add_card (s := k.flagged) (t := h.flagged.erase x)
  have herase := Finset.card_erase_lt_of_mem hbefore
  rw [Hw.Spends] at a
  rw [Hw.work, Hw.work]
  omega

end

/-! ## The bus side -/

section
variable {c : Config} {h : Hw}

/-- A move sets one completion flag at most. -/
theorem Hw.Moved.card_newFlags_le_one {h' : Hw} {i : Instr} (M : h.Moved c i h') :
    (h'.flagged \ h.flagged).card ≤ 1 := by
  have hnew : ∃ x, ∀ y ∈ h'.flagged, y ∉ h.flagged → y = x := by
    obtain ⟨-, rfl⟩ | ⟨-, hepr | ⟨e, d, r', hepr, C, -⟩⟩ := M.register
    · refine ⟨(.ctrl, .rx), fun ⟨e, d⟩ hafter _ => ?_⟩
      have hzero : eprFlag (h.busReset.epr.get e) d = false := by
        cases e <;> cases d <;> exact BitVec.getLsbD_zero
      exact absurd (hzero.symm.trans (Hw.mem_flagged.mp hafter)) (by decide)
    · refine ⟨(.ctrl, .rx), fun ⟨e, d⟩ hafter hbefore => absurd ?_ hbefore⟩
      rwa [Hw.mem_flagged, ← hepr, ← Hw.mem_flagged]
    · refine ⟨(e, d), fun ⟨f, d'⟩ hafter hbefore => ?_⟩
      rw [Hw.mem_flagged, hepr, PerEp.get_set] at hafter
      rw [Hw.mem_flagged] at hbefore
      split at hafter
      · subst f
        by_cases hd : d' = d
        · rw [hd]
        · rw [C.otherFlag d' hd] at hafter
          exact absurd hafter hbefore
      · exact absurd hafter hbefore
  obtain ⟨x, hx⟩ := hnew
  have hsubset : h'.flagged \ h.flagged ⊆ {x} := fun y hy =>
    Finset.mem_singleton.mpr (hx y (Finset.mem_sdiff.mp hy).1 (Finset.mem_sdiff.mp hy).2)
  exact Finset.card_le_card hsubset

theorem Hw.moves_between (ms : List BusMove) : (ms.foldl (Hw.move c) h).between = h.between := by
  induction ms generalizing h with
  | nil => rfl
  | cons m ms ih =>
    obtain ⟨-, -, -, -, -, hbetween⟩ := (Hw.moved_move c h m).frame
    exact ih.trans hbetween

theorem Hw.moves_card_newFlags_le (ms : List BusMove) :
    ((ms.foldl (Hw.move c) h).flagged \ h.flagged).card ≤ ms.length := by
  induction ms generalizing h with
  | nil => simp
  | cons m ms ih =>
    have hmove := (Hw.moved_move c h m).card_newFlags_le_one
    have hcard := Hw.card_newFlags_le h (Hw.move c h m) (ms.foldl (Hw.move c) (Hw.move c h m))
    have hmoves := ih (h := Hw.move c h m)
    rw [List.foldl_cons, List.length_cons]
    omega

theorem Hw.spends_slot (c : Config) (h : Hw) : h.Spends (h.slot c) := by
  rw [Hw.slot]
  split
  · exact .refl h
  case _ ms rest hbetween =>
    have hcard := Hw.moves_card_newFlags_le (c := c) (h := { h with between := rest }) ms
    have hrest := Hw.moves_between (c := c) (h := { h with between := rest }) ms
    rw [Hw.Spends, Hw.scheduled, Hw.scheduled, hrest, hbetween, List.map_cons, List.sum_cons]
    exact Nat.add_le_add_right hcard _

/-! ## Shared operations -/

/-- A completion flag is set by no write (40_endpoint_register R110). -/
theorem eprFlag_regWriteValue (old v : Word16) (d : Dir) :
    eprFlag (regWriteValue old v) d = (eprFlag old d && eprFlag v d) := by
  cases d <;> exact getLsbD_regWriteValue old v (by decide)

theorem Hw.spends_regWrite (e : Ep) (v : Word16) : h.Spends (Hw.regWrite c e v h) := by
  refine (Hw.spends_slot c h).trans (.of_flags rfl fun f d hflag => ?_)
  rw [Hw.regWrite, PerEp.get_set] at hflag
  split at hflag
  · subst f
    rw [eprFlag_regWriteValue, Bool.and_eq_true] at hflag
    exact hflag.1
  · exact hflag

theorem Hw.spends_setStatus (e : Ep) (d : Dir) (t : Stat) : h.Spends (Hw.setStatus c e d t h) :=
  (Hw.spends_slot c h).trans (Hw.spends_regWrite e _)

theorem Hw.spends_clearCtr (e : Ep) (d : Dir) : h.Spends (Hw.clearCtr c e d h) :=
  (Hw.spends_slot c h).trans (Hw.spends_regWrite e _)

/-- CLEAR_CTR clears its flag, whatever the register holds when it is written (R118). -/
theorem Hw.not_mem_flagged_clearCtr (e : Ep) (d : Dir) : (e, d) ∉ (Hw.clearCtr c e d h).flagged := by
  have hword : ∀ both r, eprFlag (clearCtrWord both d r) d = false := fun both r => by
    cases both <;> cases d <;> simp [clearCtrWord, eprFlag, flagBit]
  rw [Hw.mem_flagged, Hw.clearCtr, Hw.regWrite, PerEp.get_set_self, eprFlag_regWriteValue, hword]
  simp

theorem Hw.spends_readUnits (k a : Nat) : h.Spends (Hw.readUnits c k a h).2 := by
  induction k generalizing a h with
  | zero => exact .refl h
  | succ k ih => exact (Hw.spends_slot c h).trans (ih (a + 2))

theorem Hw.spends_read (e : Ep) (m : Nat) : h.Spends (Hw.read c e m h).2 := by
  have hunits : ∀ k a, h.Spends (Hw.readUnits c k a (h.slot c)).2 := fun k a =>
    (Hw.spends_slot c h).trans (Hw.spends_readUnits k a)
  cases e with
  | ctrl => exact (hunits _ _).trans (Hw.spends_setStatus .ctrl .rx .valid)
  | data => exact hunits _ _
  | comm => exact hunits _ _

theorem Hw.spends_writeUnits (a : Nat) (b : List Byte) : h.Spends (Hw.writeUnits c a b h) := by
  have hput : ∀ (h : Hw) a v, h.Spends ((h.slot c).putUnit a v) := fun h a v =>
    (Hw.spends_slot c h).trans (.of_flags rfl fun _ _ hflag => hflag)
  induction a, b, h using Hw.writeUnits.induct c with
  | case1 a h => exact .refl h
  | case2 a lo h => exact hput h a _
  | case3 a lo hi rest h ih => exact (hput h a _).trans ih

theorem Hw.spends_write (e : Ep) (src : List Byte) (count : Nat) : h.Spends (Hw.write c e src count h).2 := by
  have hcount : ∀ (h : Hw) n, h.Spends { h.slot c with txCount := (h.slot c).txCount.set e n } := fun h n =>
    (Hw.spends_slot c h).trans (.of_flags rfl fun _ _ hflag => hflag)
  exact ((Hw.spends_writeUnits _ _).trans (hcount _ _)).trans (Hw.spends_setStatus e .tx .valid)

theorem Hw.spends_putDaddr (v : BitVec 8) : h.Spends (Hw.putDaddr c v h) :=
  (Hw.spends_slot c h).trans (.of_flags rfl fun _ _ hflag => hflag)

end

/-! ## Control transfers -/

section
variable {s : State}

theorem State.spends_readInto (e : Ep) (dest : Buffer) (m : Nat) : s.hw.Spends (s.readInto e dest m).hw := by
  cases dest <;> exact Hw.spends_read e m

theorem spends_ackInto (x : CtlState) : s.hw.Spends (ackInto x s).hw := Hw.spends_write .ctrl [] 0

theorem spends_rejectRule : s.hw.Spends (rejectRule s).hw := Hw.spends_setStatus .ctrl .rx .stall

theorem spends_transmitRule : s.hw.Spends (transmitRule s).2.hw := by
  rw [transmitRule]
  split
  · exact Hw.spends_write .ctrl _ _
  · exact .refl _

theorem spends_startInRule (src : XferSrc) (n : Word16) : s.hw.Spends (startInRule src n s).hw :=
  spends_transmitRule (s := { s with ctl.xferSrc := src, ctl.xferOff := 0, ctl.xferRem := min16 n s.ctl.wLength })

theorem spends_replyStatus (b : Byte) : s.hw.Spends (replyStatus b s).hw :=
  spends_startInRule (s := { s with ctl.statusBuf := [b, 0] }) .status 2

theorem spends_getStatusRule : s.hw.Spends (getStatusRule s).hw := by
  rw [getStatusRule]
  split
  · exact spends_replyStatus _
  · split
    · exact spends_replyStatus _
    · split
      · split
        · exact (Hw.spends_slot s.cfg s.hw).trans (spends_replyStatus (s := s.slot) _)
        · exact spends_rejectRule
      · exact spends_rejectRule

theorem State.spends_halted (on : Bool) (e : Ep) : s.hw.Spends (halted on e s).hw := by
  cases on <;> exact (Hw.spends_setStatus e .rx _).trans (Hw.spends_setStatus e .tx _)

theorem spends_featureRule (on : Bool) : s.hw.Spends (featureRule on s).hw := by
  cases h : s.ctl.feature with
  | remoteWakeup =>
    rw [featureRule_remoteWakeup on h]
    exact spends_ackInto (s := { s with ctl.remoteWakeup := on }) .status
  | halt e =>
    rw [featureRule_halt on h]
    exact (State.spends_halted on e).trans (spends_ackInto .status)
  | unknown =>
    rw [featureRule_unknown on h]
    exact spends_rejectRule

theorem spends_getDescriptorStringRule : s.hw.Spends (getDescriptorStringRule s).hw := by
  rw [getDescriptorStringRule]
  split
  · exact spends_startInRule _ _
  · exact spends_rejectRule

theorem spends_setConfigurationRule : s.hw.Spends (setConfigurationRule s).hw := by
  rw [setConfigurationRule]
  split <;> exact Hw.spends_write .ctrl [] 0

theorem SetupRow.rule_spends (row : SetupRow) : s.hw.Spends (SetupRow.rule row s).hw := by
  cases row
  case getStatus => exact spends_getStatusRule
  case clearFeature => exact spends_featureRule false
  case setFeature => exact spends_featureRule true
  case getDescriptorString => exact spends_getDescriptorStringRule
  case setConfiguration => exact spends_setConfigurationRule
  case getDescriptorDevice | getDescriptorConfiguration | getConfiguration | getInterface | getLineCoding =>
    exact spends_startInRule _ _
  case setAddress | setInterface | setLineCoding | setControlLineState | sendBreak | classOther =>
    exact Hw.spends_write .ctrl [] 0
  all_goals exact spends_rejectRule

theorem spends_ctrlSetupRule : s.hw.Spends (ctrlSetupRule s).hw := by
  rw [ctrlSetupRule_eq]
  exact (Hw.spends_read .ctrl 8).trans (SetupRow.rule_spends _)

theorem spends_ctrlInRule : s.hw.Spends (ctrlInRule s).hw := by
  rw [ctrlInRule]
  split
  · exact .refl _
  · exact spends_transmitRule

theorem spends_ctrlOutRule : s.hw.Spends (ctrlOutRule s).hw := by
  by_cases h20 : s.ctl.reqType = 1 ∧ s.ctl.request = 0x20
  · rw [ctrlOutRule_lineCoding h20]
    exact Hw.spends_read .ctrl 7
  · by_cases h22 : s.ctl.reqType = 1 ∧ s.ctl.request = 0x22
    · rw [ctrlOutRule_lineState h22]
      exact Hw.spends_setStatus .ctrl .rx .valid
    · rw [ctrlOutRule_discard h20 h22]
      exact Hw.spends_setStatus .ctrl .rx .valid

/-! ## The bulk protocol -/

theorem spends_validateRule (want : Byte) : s.hw.Spends (validateRule want s).2.hw := by
  have hslot := Hw.spends_slot s.cfg s.hw
  by_cases hfull : s.fullRecord
  · have hread : s.hw.Spends s.recordRead.hw := hslot.trans (Hw.spends_read .data 8)
    rw [validateRule_of_full hfull]
    split
    · exact hread
    · split <;> exact hread
  · rw [validateRule_of_length hfull]
    exact hslot

theorem spends_ackPageHeader : s.hw.Spends (ackPageHeader s).hw := by
  rw [ackPageHeader]
  split
  · exact .refl _
  · exact Hw.spends_write .data s.cmdBuf 8
  · exact Hw.spends_write .data _ 1

theorem spends_pageHeaderRule : s.hw.Spends (pageHeaderRule s).hw := by
  have hcase : ∀ t : State, t.hw = s.hw → s.hw.Spends (if t.fatal.isSome then t else
      ackPageHeader { t with sess.headerAccepted := true, sess.blState := .receivingPage }).hw := fun t ht => by
    split
    · exact ht ▸ .refl _
    · exact ht ▸ spends_ackPageHeader
  refine hcase _ ?_
  rw [State.flashErase]
  split <;> rfl

theorem spends_pageDataRule : s.hw.Spends (pageDataRule s).hw := by
  rw [pageDataRule_hw]
  exact Hw.spends_read .data _

theorem spends_headerPacket (want : Byte) {accept : State → State}
    (haccept : ∀ t : State, t.hw.Spends (accept t).hw) : s.hw.Spends (headerPacket want accept s).hw := by
  have hvalidate := spends_validateRule (s := s) want
  rw [headerPacket]
  split
  · exact hvalidate.trans (haccept _)
  · exact hvalidate.trans (Hw.spends_write .data _ 1)

theorem spends_bulkCase : s.hw.Spends (bulkCase s).hw := by
  rw [bulkCase]
  split
  · exact spends_headerPacket 0x20 fun t => Hw.spends_write .data t.cmdBuf 8
  · exact spends_headerPacket 0x21 fun _ => spends_pageHeaderRule
  · exact spends_pageDataRule
  · exact .refl _

theorem spends_bulkOutRule : s.hw.Spends (bulkOutRule s).hw := by
  have hcase := spends_bulkCase (s := s)
  rw [bulkOutRule]
  split
  · exact hcase
  · exact hcase.trans (Hw.spends_setStatus .data .rx .valid)

/-! ## A turn -/

theorem EventRow.rule_spends (row : EventRow) : s.hw.Spends (EventRow.rule row s).hw := by
  cases row with
  | ctrlSetup => exact spends_ctrlSetupRule
  | ctrlOut => exact spends_ctrlOutRule
  | ctrlIn => exact spends_ctrlInRule
  | bulkOut => exact spends_bulkOutRule
  | bulkIn | commOut | commIn => exact .refl _

theorem spends_routeCompletion (e : Ep) (d : Dir) (isSetup : Bool) :
    s.hw.Spends (routeCompletion e d isSetup s).hw := by
  obtain ⟨row, hrow⟩ := exists_eventRow e d isSetup
  have happly : s.hw.Spends (applyIfPending d s).hw := by
    rw [applyIfPending]
    split
    · exact Hw.spends_putDaddr _
    · exact .refl _
  rw [routeCompletion_of_row hrow]
  exact happly.trans (EventRow.rule_spends row)

/-- A turn on the next completion, under any schedule (R226); `drainTurn_of_next` is its form with the bus side
still. -/
theorem drainTurn_eq {e : Ep} {d : Dir} (next : s.hw.NextCompletion e d) : drainTurn s.hw.istr s =
    routeCompletion e d (eprSetup (s.slot.hw.epr.get e)) (completionCleared e d s.slot) := by
  have hep : epOfNum (BitVec.ofNat 4 e.num).toNat = some e := by cases e <;> rfl
  have hdir : (if (d == .rx) = true then Dir.rx else .tx) = d := by cases d <;> rfl
  simp only [drainTurn, next.istr_epId, hep, next.istr_dir, hdir]
  rfl

/-- A turn clears its completion's flag, and any flag set since is paid for by a move. -/
theorem work_drainTurn_lt {e : Ep} {d : Dir} (next : s.hw.NextCompletion e d) :
    (drainTurn s.hw.istr s).hw.work < s.hw.work := by
  have hcleared : s.hw.Spends (completionCleared e d s.slot).hw :=
    (Hw.spends_slot s.cfg s.hw).trans (Hw.spends_clearCtr e d)
  rw [drainTurn_eq next]
  calc (routeCompletion e d _ (completionCleared e d s.slot)).hw.work
      ≤ (completionCleared e d s.slot).hw.work := (spends_routeCompletion e d _).work_le
    _ < s.hw.work := hcleared.work_lt (Hw.mem_flagged.mpr next.flag) (Hw.not_mem_flagged_clearCtr e d)

/-- With fuel for the work that is left, the drain loop ends because no flag is left, or by a FlashFatal (R232). -/
theorem eprFlag_drainLoop {n : Nat} (hwork : s.hw.work < n) (hfatal : (drainLoop n s).fatal = none) (e : Ep) (d : Dir) :
    eprFlag ((drainLoop n s).hw.epr.get e) d = false := by
  induction n generalizing s with
  | zero => exact absurd hwork (Nat.not_lt_zero _)
  | succ n ih =>
    have hslot : s.slot.hw.work ≤ s.hw.work := (Hw.spends_slot s.cfg s.hw).work_le
    simp only [drainLoop] at hfatal ⊢
    by_cases hctr : s.slot.hw.istr.getLsbD 15 = true
    · obtain ⟨f, d', next⟩ := Hw.exists_nextCompletion hctr
      have hturn := work_drainTurn_lt next
      rw [if_pos hctr] at hfatal ⊢
      by_cases hstop : (drainTurn s.slot.hw.istr s.slot).fatal.isSome = true
      · rw [if_pos hstop] at hfatal
        rw [hfatal] at hstop
        cases hstop
      · rw [if_neg hstop] at hfatal ⊢
        exact ih (by omega) hfatal
    · rw [if_neg hctr]
      rw [Hw.istr_ctr_iff] at hctr
      exact Bool.eq_false_iff.mpr fun hflag => hctr ⟨e, d, hflag⟩

end

end Sys2Proof.Machine

/-! ## The statements -/

open Sys2Proof Sys2Proof.Machine

/-- Settles O52: every turn leaves less work (`work_drainTurn_lt`), and the fuel is above the work at the start, six
flags and the moves scheduled. -/
theorem drainLeavesNoFlag : Obligations.DrainLeavesNoFlag := by
  intro s r
  have hwork : s.hw.work < s.hw.scheduled + 7 := by
    have hcard := s.hw.card_flagged_le
    rw [Hw.work]
    omega
  exact ⟨_, exec_irqCtr r, eprFlag_drainLoop hwork⟩

end

section
/-! SUPPORT. The invariant right after a power-on (spec/10_state.md R32, section 6), and the statement about the machine
right after reset. -/

namespace Sys2Proof.Machine

/-- Under valid parameters a power-on meets the invariant: the areas are those of the parameters, nothing is counted
and no memory lists a byte (10_state R32). -/
theorem Inv.powerOn {c : Config} (v : configValid c = true) (n : Nat) : Inv (State.powerOn c n) where
  config := v
  hw :=
    { canonical := List.Pairwise.nil
      inside := nofun
      txOffsets := rfl
      rxOffsets := rfl
      rxCounts := fun e => by cases e <;> exact Nat.zero_le _
      txCounts := fun e => by cases e <;> exact Nat.zero_le _
      lowPower := BitVec.zero_and }
  ctl := ⟨rfl, rfl, show 0 + 0 < 2 ^ 16 by decide, nofun⟩
  session := rfl
  lineCoding := lcDefault_length v
  scratch := by simp [State.powerOn]
  cmdBuf := rfl
  flash := ⟨List.Pairwise.nil, nofun⟩
  fatalOdd := nofun

end Sys2Proof.Machine

/-! ## The statements -/

open Sys2Proof Sys2Proof.Machine

/-- Settles O3: REFCFG obeys 00_scope R5, and a power-on under such parameters meets the invariant (`Inv.powerOn`). -/
theorem resetMeetsInvariant : Obligations.ResetMeetsInvariant :=
  ⟨Inv.powerOn (by decide) 0, rfl, rfl, rfl⟩

end
